-- ==== Sys2Proof/Word.lean ====
section
/-! DEFINITION. The data of the block: 64-bit register values, bytes, text, and the integer readings of
`00_scope.md` R9, R10 and R16. -/

namespace Sys2Proof

/-- A `bits64` value (R9): what a register holds and what the ALU computes. -/
abbrev Word := BitVec 64

/-- A byte of memory (R9). -/
abbrev Byte := BitVec 8

/-- A finite sequence of characters (R16): a line, a token, a name, an emitted text. -/
abbrev Text := List Char

/-- `wrap64(i)`, the word congruent to the mathematical integer `i` modulo 2^64 (R10). -/
def wrap64 (i : Int) : Word := BitVec.ofInt 64 i

/-- `u(v)`, the unsigned reading (R10). -/
def Word.u (v : Word) : Int := v.toNat

/-- `s(v)`, the two's-complement reading (R10). -/
def Word.s (v : Word) : Int := v.toInt

end Sys2Proof
end

