-- ==== Sys2Proof/Config.lean ====
section
/-! DEFINITION. The configuration record of `00_scope.md` R7, the default register names of `10_state.md` R22,
the two named configurations of R8, and validity (`70_reset_and_hazards.md` R263). -/

namespace Sys2Proof

/-- `FLOAT_LITERAL_MODE` (R7, `30_encoding.md` R83). -/
inductive FloatMode where
  | rawBits
  | truncate
  deriving DecidableEq, Repr

/-- `DEC_LITERAL_MAX` (R7, `30_encoding.md` R82): the two values R7 allows. -/
inductive DecLiteralMax where
  | signed63
  | unsigned64
  deriving DecidableEq, Repr

/-- The largest decimal literal accepted: `2^63 - 1` or `2^64 - 1` (R7). -/
def DecLiteralMax.value : DecLiteralMax → Nat
  | .signed63 => 2 ^ 63 - 1
  | .unsigned64 => 2 ^ 64 - 1

/-- `REG_RESET` (R7, `10_state.md` R27). -/
inductive RegReset where
  | zero
  | unwritten
  deriving DecidableEq, Repr

/-- `DUMP_HEX_CASE` (R7, `47_dump.md` R211). -/
inductive HexCase where
  | upper
  | lower
  deriving DecidableEq, Repr

/-- `FEEDER_POLICY` (R7, `70_reset_and_hazards.md` R276). -/
inductive FeederPolicy where
  | continueRun
  | abortRun
  deriving DecidableEq, Repr

/-- The configuration record of R7. The width of registers (64), the register-based stack and the
three-operand forms are fixed by R7 and are no fields. -/
structure Config where
  regNames : List Text
  memSize : Nat
  stackSize : Nat
  floatMode : FloatMode
  decMax : DecLiteralMax
  regReset : RegReset
  dumpOrder : List Text
  hexCase : HexCase
  feederPolicy : FeederPolicy
  deriving DecidableEq, Repr

/-- The name of the stack pointer register (`10_state.md` R25). -/
def rspName : Text := "RSP".toList

/-- The name of the stack-segment base register (`10_state.md` R25). -/
def ssName : Text := "SS".toList

/-- The default `REG_NAMES`, group by group as `10_state.md` R22 lists them. -/
def defaultRegNames : List Text :=
  ["R0", "R1", "R2", "R3", "R4", "R5", "R6", "R7", "R8", "R9", "R10", "R11", "R12", "R13", "R14", "R15"].map String.toList
  ++ ["RAX", "RBX", "RCX", "RDX", "RSI", "RDI", "RBP", "RSP"].map String.toList
  ++ ["EAX", "EBX", "ECX", "EDX", "ESI", "EDI", "EBP", "ESP"].map String.toList
  ++ ["AX", "BX", "CX", "DX", "SI", "DI", "BP", "SP"].map String.toList
  ++ ["AL", "BL", "CL", "DL", "AH", "BH", "CH", "DH"].map String.toList
  ++ ["CS", "DS", "ES", "FS", "GS", "SS"].map String.toList
  ++ ["ST0", "ST1", "ST2", "ST3", "ST4", "ST5", "ST6", "ST7"].map String.toList
  ++ ["XMM0", "XMM1", "XMM2", "XMM3", "XMM4", "XMM5", "XMM6", "XMM7",
      "XMM8", "XMM9", "XMM10", "XMM11", "XMM12", "XMM13", "XMM14", "XMM15"].map String.toList

/-- A configuration with the given sizes and every other parameter at its default (R7). -/
def Config.withSizes (memSize stackSize : Nat) : Config where
  regNames := defaultRegNames
  memSize := memSize
  stackSize := stackSize
  floatMode := .rawBits
  decMax := .unsigned64
  regReset := .zero
  dumpOrder := defaultRegNames
  hexCase := .upper
  feederPolicy := .continueRun

/-- `ZERO_CFG` (R8): the zero-config mode, `MEM_SIZE = 0x0FFFFF` and `STACK_SIZE = MEM_SIZE`. R7 gives
`FEEDER_POLICY` no default; `Continue` is what `95_test_vectors.md` runs its programs with
(notes/assumptions/13.md). -/
def zeroCfg : Config := .withSizes 0x0FFFFF 0x0FFFFF

/-- `TEST_CFG` (R8): `MEM_SIZE = 0x100`, `STACK_SIZE = 0x20`. -/
def testCfg : Config := .withSizes 0x100 0x20

/-- A configuration is valid (R263): `REG_NAMES` is duplicate-free, contains `RSP` and `SS` and has no empty
name (`10_state.md` R23), `1 <= MEM_SIZE <= 2^63 - 1`, `0 <= STACK_SIZE <= MEM_SIZE`, and `DUMP_ORDER` is a
permutation of `REG_NAMES` (R7). -/
abbrev Config.Valid (c : Config) : Prop :=
  c.regNames.Nodup ∧ rspName ∈ c.regNames ∧ ssName ∈ c.regNames ∧ (∀ n ∈ c.regNames, n ≠ []) ∧
  1 ≤ c.memSize ∧ c.memSize ≤ 2 ^ 63 - 1 ∧ c.stackSize ≤ c.memSize ∧ c.dumpOrder.Perm c.regNames

end Sys2Proof
end

