-- ==== Sys2Proof/Syntax.lean ====
section
/-! DEFINITION. The syntax of instructions: the sixteen opcodes (`30_encoding.md` R84), the operand descriptors
(R92), the twenty-three forms (R85, R90, one constructor a row of `opcode_table.json`), and the names of the ten
error kinds (`60_exceptions.md` R220). -/

namespace Sys2Proof

/-- The ten error kinds, in the document's order (R220). -/
inductive ErrorKind where
  | malformedInstruction
  | unknownInstruction
  | arityMismatch
  | unknownOperand
  | unknownRegister
  | invalidDestination
  | divisionByZero
  | stackOverflow
  | stackUnderflow
  | outOfBounds
  deriving DecidableEq, Repr

/-- The sixteen opcodes (R84). -/
inductive Opcode where
  | mov | add | sub | and | or | xor | mul | div | neg | not | lsl | lsr | cmp | push | pop | rdump
  deriving DecidableEq, Repr

/-- The sixteen opcodes in the document's order (R84); an opcode's position is its tag (R91). -/
def Opcode.all : List Opcode :=
  [.mov, .add, .sub, .and, .or, .xor, .mul, .div, .neg, .not, .lsl, .lsr, .cmp, .push, .pop, .rdump]

/-- An operand as a descriptor gives it (R92): `kind = 0x00` IMM, `kind = 0x01` REG with the zero-based position
in `REG_NAMES`. Any other kind byte is kept as it came, because R94 has `exec` check descriptors in their order
and raise `UnknownOperand` for it; no line of text decodes to one. -/
inductive Operand where
  | imm (value : Word)
  | reg (position : Nat)
  | bad (kind : Byte) (payload : Word)
  deriving DecidableEq, Repr

/-- A decoded instruction, one constructor a form of R85. A destination stands as the descriptor that came in its
place: that it names a register is one of the checks of R94 and R111. -/
inductive Instr where
  | mov (dest src : Operand)
  | add2 (dest src : Operand)
  | add3 (dest src1 src2 : Operand)
  | sub2 (dest src : Operand)
  | sub3 (dest src1 src2 : Operand)
  | and2 (dest src : Operand)
  | and3 (dest src1 src2 : Operand)
  | or2 (dest src : Operand)
  | or3 (dest src1 src2 : Operand)
  | xor2 (dest src : Operand)
  | xor3 (dest src1 src2 : Operand)
  | mul2 (dest src : Operand)
  | mul3 (dest src1 src2 : Operand)
  | div2 (dest src : Operand)
  | div3 (dest src1 src2 : Operand)
  | neg (dest : Operand)
  | bitNot (dest : Operand)
  | lsl (dest amount : Operand)
  | lsr (dest amount : Operand)
  | cmp (src1 src2 : Operand)
  | push (value : Operand)
  | pop (dest : Operand)
  | rdump
  deriving DecidableEq, Repr

/-- The opcode of an instruction. -/
def Instr.opcode : Instr → Opcode
  | .mov _ _ => .mov
  | .add2 _ _ => .add
  | .add3 _ _ _ => .add
  | .sub2 _ _ => .sub
  | .sub3 _ _ _ => .sub
  | .and2 _ _ => .and
  | .and3 _ _ _ => .and
  | .or2 _ _ => .or
  | .or3 _ _ _ => .or
  | .xor2 _ _ => .xor
  | .xor3 _ _ _ => .xor
  | .mul2 _ _ => .mul
  | .mul3 _ _ _ => .mul
  | .div2 _ _ => .div
  | .div3 _ _ _ => .div
  | .neg _ => .neg
  | .bitNot _ => .not
  | .lsl _ _ => .lsl
  | .lsr _ _ => .lsr
  | .cmp _ _ => .cmp
  | .push _ => .push
  | .pop _ => .pop
  | .rdump => .rdump

/-- The destination operand, where the form has one (R85); it is then operand position 1. -/
def Instr.dest? : Instr → Option Operand
  | .mov d _ => some d
  | .add2 d _ => some d
  | .add3 d _ _ => some d
  | .sub2 d _ => some d
  | .sub3 d _ _ => some d
  | .and2 d _ => some d
  | .and3 d _ _ => some d
  | .or2 d _ => some d
  | .or3 d _ _ => some d
  | .xor2 d _ => some d
  | .xor3 d _ _ => some d
  | .mul2 d _ => some d
  | .mul3 d _ _ => some d
  | .div2 d _ => some d
  | .div3 d _ _ => some d
  | .neg d => some d
  | .bitNot d => some d
  | .lsl d _ => some d
  | .lsr d _ => some d
  | .cmp _ _ => none
  | .push _ => none
  | .pop d => some d
  | .rdump => none

/-- The source operands, left to right (R85). -/
def Instr.sources : Instr → List Operand
  | .mov _ a => [a]
  | .add2 _ a => [a]
  | .add3 _ a b => [a, b]
  | .sub2 _ a => [a]
  | .sub3 _ a b => [a, b]
  | .and2 _ a => [a]
  | .and3 _ a b => [a, b]
  | .or2 _ a => [a]
  | .or3 _ a b => [a, b]
  | .xor2 _ a => [a]
  | .xor3 _ a b => [a, b]
  | .mul2 _ a => [a]
  | .mul3 _ a b => [a, b]
  | .div2 _ a => [a]
  | .div3 _ a b => [a, b]
  | .neg _ => []
  | .bitNot _ => []
  | .lsl _ a => [a]
  | .lsr _ a => [a]
  | .cmp a b => [a, b]
  | .push a => [a]
  | .pop _ => []
  | .rdump => []

/-- All operands in their order: the destination, where there is one, then the sources (R85). -/
def Instr.operands (i : Instr) : List Operand := i.dest?.toList ++ i.sources

end Sys2Proof
end

