-- ==== Sys2Proof/WellFormed.lean ====
section
/-! DEFINITION. Well-formed instructions: those whose operands pass the checks of `30_encoding.md` R86 and R94 (3)
for the configuration's `REG_NAMES`. -/

namespace Sys2Proof

/-- A destination is well-formed when it names a register of `REG_NAMES` (R86). -/
def Operand.destOk (cfg : Config) : Operand → Bool
  | .reg k => decide (k < cfg.regNames.length)
  | .imm _ => false
  | .bad _ _ => false

/-- A source is well-formed when it is a literal or names a register of `REG_NAMES` (R77, R94). -/
def Operand.sourceOk (cfg : Config) : Operand → Bool
  | .reg k => decide (k < cfg.regNames.length)
  | .imm _ => true
  | .bad _ _ => false

/-- An instruction is well-formed when its destination and each of its sources are. -/
def WellFormed (cfg : Config) (i : Instr) : Bool :=
  i.dest?.all (Operand.destOk cfg) && i.sources.all (Operand.sourceOk cfg)

/-- An operand fits its nine-byte descriptor (R92): a register position fits the 8-byte payload, and a kind byte
kept as it came is neither IMM nor REG. -/
def Operand.fits : Operand → Bool
  | .reg k => decide (k < 2 ^ 64)
  | .imm _ => true
  | .bad kind _ => decide (kind ≠ 0) && decide (kind ≠ 1)

/-- Every operand of the instruction fits its descriptor (R92). -/
def Instr.fits (i : Instr) : Bool := i.operands.all Operand.fits

end Sys2Proof
end

