-- ==== Sys2Proof/Decode.lean ====
section
/-! DEFINITION. Reading an instruction: from a line of text (`30_encoding.md` R70 to R88, the normative encoding)
and from the bytes of a command (R90 to R94), and the two encoders. Both decoders are total and answer a rejection
by name. -/

namespace Sys2Proof

/-- Why an instruction could not be read. -/
inductive DecodeError where
  /-- The block's own error kind for it (R95, R94, `40_execution.md` R111 stages 1 to 5). -/
  | raised (e : ErrorKind)
  /-- A float literal that `Truncate` mode gives no meaning (R83, `40_execution.md` R115). -/
  | floatOutOfRange
  /-- Bytes that are no command: R92 serialises a command as exactly `1 + 9 * nops` bytes
  (notes/assumptions/4.md). -/
  | notACommand
  deriving DecidableEq, Repr

/-! ## Opcodes: mnemonics, tags, arities -/

/-- The mnemonic of an opcode (R84). -/
def Opcode.mnemonic : Opcode → Text
  | .mov => "MOV".toList
  | .add => "ADD".toList
  | .sub => "SUB".toList
  | .and => "AND".toList
  | .or => "OR".toList
  | .xor => "XOR".toList
  | .mul => "MUL".toList
  | .div => "DIV".toList
  | .neg => "NEG".toList
  | .not => "NOT".toList
  | .lsl => "LSL".toList
  | .lsr => "LSR".toList
  | .cmp => "CMP".toList
  | .push => "PUSH".toList
  | .pop => "POP".toList
  | .rdump => "RDUMP".toList

/-- The opcode whose mnemonic is exactly `t` (R74). -/
def Opcode.ofMnemonic? (t : Text) : Option Opcode := Opcode.all.find? (fun o => o.mnemonic == t)

/-- The 4-bit tag of an opcode (R91). -/
def Opcode.tag : Opcode → BitVec 4
  | .mov => 0x0#4
  | .add => 0x1#4
  | .sub => 0x2#4
  | .and => 0x3#4
  | .or => 0x4#4
  | .xor => 0x5#4
  | .mul => 0x6#4
  | .div => 0x7#4
  | .neg => 0x8#4
  | .not => 0x9#4
  | .lsl => 0xA#4
  | .lsr => 0xB#4
  | .cmp => 0xC#4
  | .push => 0xD#4
  | .pop => 0xE#4
  | .rdump => 0xF#4

/-- The opcode of a tag (R91: every 4-bit value is an opcode). -/
def Opcode.ofTag? (t : BitVec 4) : Option Opcode := Opcode.all.find? (fun o => o.tag == t)

/-- The operand counts an opcode accepts (R85). -/
def Opcode.arities : Opcode → List Nat
  | .mov => [2]
  | .add => [2, 3]
  | .sub => [2, 3]
  | .and => [2, 3]
  | .or => [2, 3]
  | .xor => [2, 3]
  | .mul => [2, 3]
  | .div => [2, 3]
  | .neg => [1]
  | .not => [1]
  | .lsl => [2]
  | .lsr => [2]
  | .cmp => [2]
  | .push => [1]
  | .pop => [1]
  | .rdump => [0]

/-- Whether operand position 1 of an opcode's forms is a destination (R85). -/
def Opcode.hasDest : Opcode → Bool
  | .mov => true
  | .add => true
  | .sub => true
  | .and => true
  | .or => true
  | .xor => true
  | .mul => true
  | .div => true
  | .neg => true
  | .not => true
  | .lsl => true
  | .lsr => true
  | .cmp => false
  | .push => false
  | .pop => true
  | .rdump => false

/-- The form an opcode and its operands make (R85); none where the count is not one of the opcode's. -/
def Instr.build? : Opcode → List Operand → Option Instr
  | .mov, [d, a] => some (.mov d a)
  | .add, [d, a] => some (.add2 d a)
  | .add, [d, a, b] => some (.add3 d a b)
  | .sub, [d, a] => some (.sub2 d a)
  | .sub, [d, a, b] => some (.sub3 d a b)
  | .and, [d, a] => some (.and2 d a)
  | .and, [d, a, b] => some (.and3 d a b)
  | .or, [d, a] => some (.or2 d a)
  | .or, [d, a, b] => some (.or3 d a b)
  | .xor, [d, a] => some (.xor2 d a)
  | .xor, [d, a, b] => some (.xor3 d a b)
  | .mul, [d, a] => some (.mul2 d a)
  | .mul, [d, a, b] => some (.mul3 d a b)
  | .div, [d, a] => some (.div2 d a)
  | .div, [d, a, b] => some (.div3 d a b)
  | .neg, [d] => some (.neg d)
  | .not, [d] => some (.bitNot d)
  | .lsl, [d, a] => some (.lsl d a)
  | .lsr, [d, a] => some (.lsr d a)
  | .cmp, [a, b] => some (.cmp a b)
  | .push, [a] => some (.push a)
  | .pop, [d] => some (.pop d)
  | .rdump, [] => some .rdump
  | _, _ => none

/-- The form, or `ArityMismatch` (R85). -/
def Instr.build (o : Opcode) (args : List Operand) : Except DecodeError Instr :=
  match Instr.build? o args with
  | some i => .ok i
  | none => .error (.raised .arityMismatch)

/-! ## Characters and tokens -/

/-- The six whitespace characters (R72). -/
def isWhitespace (c : Char) : Bool :=
  c.toNat == 0x20 || c.toNat == 0x09 || c.toNat == 0x0A || c.toNat == 0x0B || c.toNat == 0x0C || c.toNat == 0x0D

/-- `0` to `9` in ASCII. -/
def isDigit (c : Char) : Bool := decide (0x30 ≤ c.toNat) && decide (c.toNat ≤ 0x39)

/-- `A` to `Z` in ASCII. -/
def isUpperLetter (c : Char) : Bool := decide (0x41 ≤ c.toNat) && decide (c.toNat ≤ 0x5A)

/-- `a` to `z` in ASCII. -/
def isLowerLetter (c : Char) : Bool := decide (0x61 ≤ c.toNat) && decide (c.toNat ≤ 0x7A)

/-- `0` to `9`, `A` to `F`, `a` to `f` in ASCII (R75, R78). -/
def isHexDigit (c : Char) : Bool :=
  isDigit c || (decide (0x41 ≤ c.toNat) && decide (c.toNat ≤ 0x46)) || (decide (0x61 ≤ c.toNat) && decide (c.toNat ≤ 0x66))

/-- The value of a hexadecimal (or decimal) digit. -/
def digitValue (c : Char) : Nat :=
  if isDigit c then c.toNat - 0x30 else if isUpperLetter c then c.toNat - 0x41 + 10 else c.toNat - 0x61 + 10

/-- The number whose digits in base `base`, most significant first, are `t` (R79, R82). -/
def digitsValue (base : Nat) (t : Text) : Nat := t.foldl (fun acc c => acc * base + digitValue c) 0

/-- An ASCII lower-case letter to its upper case, any other character unchanged (R16). -/
def upperChar (c : Char) : Char := if isLowerLetter c then Char.ofNat (c.toNat - 0x20) else c

/-- `upper(t)` (R16). -/
def upper (t : Text) : Text := t.map upperChar

/-- The maximal non-empty runs of characters that are not whitespace, in order; `acc` is the run being read,
reversed (R72). -/
def runsFrom : Text → Text → List Text
  | acc, [] => if acc.isEmpty then [] else [acc.reverse]
  | acc, c :: cs =>
    if isWhitespace c then
      if acc.isEmpty then runsFrom [] cs else acc.reverse :: runsFrom [] cs
    else runsFrom (c :: acc) cs

/-- `tokens(line)`: every comma deleted (R71), then split on whitespace (R72). -/
def tokens (line : Text) : List Text := runsFrom [] (line.filter (fun c => c != ','))

/-! ## Token classes -/

/-- The classes of operand tokens (R78). -/
inductive TokenClass where
  | hex
  | dec
  | flt
  | regName
  | other
  deriving DecidableEq, Repr

/-- `0x[0-9A-Fa-f]+` as a whole token (R78). -/
def isHexToken : Text → Bool
  | '0' :: 'x' :: ds => !ds.isEmpty && ds.all isHexDigit
  | _ => false

/-- `[0-9]+` as a whole token (R78). -/
def isDecToken (t : Text) : Bool := !t.isEmpty && t.all isDigit

/-- The digits before and after the point of a float literal. -/
def fltParts (t : Text) : Text × Text := (t.takeWhile isDigit, (t.dropWhile isDigit).drop 1)

/-- `[0-9]+\.[0-9]+` as a whole token (R78). -/
def isFltToken (t : Text) : Bool :=
  isDecToken (fltParts t).1 && (t.dropWhile isDigit).head? == some '.' && isDecToken (fltParts t).2

/-- `[A-Z]+[0-9]*` as a whole token (R78). -/
def isRegNameToken (t : Text) : Bool :=
  !(t.takeWhile isUpperLetter).isEmpty && (t.dropWhile isUpperLetter).all isDigit

/-- The class of an operand token (R78). -/
def tokenClass (t : Text) : TokenClass :=
  if isHexToken t then .hex
  else if isDecToken t then .dec
  else if isFltToken t then .flt
  else if isRegNameToken t then .regName
  else .other

/-! ## Float literals -/

/-- A non-negative IEEE 754 binary64 value: `finite m e` is `m * 2^e / 2^1074`, where `m < 2^53`, and
`2^52 <= m` unless `e = 0`. -/
inductive Binary64 where
  | finite (m e : Nat)
  | inf
  deriving DecidableEq, Repr

/-- The integer nearest to `a / b`, ties to even. -/
def roundHalfEven (a b : Nat) : Nat :=
  if 2 * (a % b) < b then a / b
  else if b < 2 * (a % b) then a / b + 1
  else a / b + a / b % 2

/-- The rounded significand `m` at exponent `e` in the form `Binary64.finite` asks for: a significand that
rounding took to 2^53 moves up one exponent, and past the largest finite value the result is +infinity. -/
def Binary64.normal (m e : Nat) : Binary64 :=
  if m = 2 ^ 53 then (if e + 1 > 2045 then .inf else .finite (2 ^ 52) (e + 1))
  else if e > 2045 then .inf else .finite m e

/-- The exponent at which `a / b`, counted in units of `2^-1074`, has a significand of at most 53 bits. -/
def binary64Exponent (a b : Nat) : Nat := Nat.log2 (a / b) - 52

/-- `round_binary64_nearest_even(num / den)` (R83). -/
def roundBinary64 (num den : Nat) : Binary64 :=
  let a := num * 2 ^ 1074
  let e := binary64Exponent a den
  Binary64.normal (roundHalfEven a (den * 2 ^ e)) e

/-- `binary64_bits(d)` (R83): sign 0, the biased exponent, the fraction. -/
def Binary64.bits : Binary64 → Word
  | .inf => 0x7FF0000000000000#64
  | .finite m e => if m < 2 ^ 52 then BitVec.ofNat 64 m else BitVec.ofNat 64 ((e + 1) * 2 ^ 52 + (m - 2 ^ 52))

/-- `trunc(d)` of a finite value (R83). -/
def Binary64.truncated (m e : Nat) : Nat := m * 2 ^ e / 2 ^ 1074

/-- `float_literal` of a value `d` (R83): its bits, or its integer part where that is below 2^63. -/
def Binary64.literal (mode : FloatMode) (d : Binary64) : Except DecodeError Word :=
  match mode with
  | .rawBits => .ok d.bits
  | .truncate =>
    match d with
    | .inf => .error .floatOutOfRange
    | .finite m e =>
      if Binary64.truncated m e ≥ 2 ^ 63 then .error .floatOutOfRange else .ok (wrap64 (Binary64.truncated m e))

/-- The value of the FLT token `a.b`: `a + b / 10^len(b)` as a numerator over `10^len(b)`, rounded (R83). -/
def fltValue (t : Text) : Binary64 :=
  let p := fltParts t
  roundBinary64 (digitsValue 10 p.1 * 10 ^ p.2.length + digitsValue 10 p.2) (10 ^ p.2.length)

/-! ## Operands -/

/-- The position of a register name in `REG_NAMES` (R81: exact, case-sensitive equality). -/
def Config.position? (cfg : Config) (name : Text) : Option Nat := cfg.regNames.idxOf? name

/-- A source token that names a register (R81). -/
def decodeRegName (cfg : Config) (t : Text) : Except DecodeError Operand :=
  match cfg.position? t with
  | some k => .ok (.reg k)
  | none => .error (.raised .unknownRegister)

/-- A literal of value `v` where the largest accepted is `max` (R79, R82). -/
def decodeLiteral (max v : Nat) : Except DecodeError Operand :=
  if v ≤ max then .ok (.imm (wrap64 v)) else .error (.raised .unknownOperand)

/-- A source token (R80 without the register read, which R93 leaves to `exec`). -/
def decodeSource (cfg : Config) (t : Text) : Except DecodeError Operand :=
  match tokenClass t with
  | .hex => decodeLiteral (2 ^ 64 - 1) (digitsValue 16 (t.drop 2))
  | .dec => decodeLiteral cfg.decMax.value (digitsValue 10 t)
  | .flt => (Binary64.literal cfg.floatMode (fltValue t)).map Operand.imm
  | .regName => decodeRegName cfg t
  | .other => .error (.raised .unknownOperand)

/-- A destination token (R86). -/
def decodeDest (cfg : Config) (t : Text) : Except DecodeError Operand :=
  match tokenClass t with
  | .regName => decodeRegName cfg t
  | .hex => .error (.raised .invalidDestination)
  | .dec => .error (.raised .invalidDestination)
  | .flt => .error (.raised .invalidDestination)
  | .other => .error (.raised .invalidDestination)

/-- Source tokens, left to right (`40_execution.md` R111 stage 5). -/
def decodeSources (cfg : Config) : List Text → Except DecodeError (List Operand)
  | [] => .ok []
  | t :: ts => do
    let a ← decodeSource cfg t
    let as ← decodeSources cfg ts
    pure (a :: as)

/-- The operand tokens of an opcode's form: the destination first, where there is one, then the sources
(`40_execution.md` R111 stages 4 and 5). -/
def decodeOperands (cfg : Config) (o : Opcode) (ts : List Text) : Except DecodeError (List Operand) :=
  if o.hasDest then
    match ts with
    | [] => .ok []
    | t :: rest => do
      let d ← decodeDest cfg t
      let as ← decodeSources cfg rest
      pure (d :: as)
  else decodeSources cfg ts

/-- `decode(line)` (R93): stages 1 to 5 of `40_execution.md` R111 in their order. -/
def decodeLine (cfg : Config) (line : Text) : Except DecodeError Instr :=
  match tokens line with
  | [] => .error (.raised .malformedInstruction)
  | op :: ops =>
    match Opcode.ofMnemonic? (upper op) with
    | none => .error (.raised .unknownInstruction)
    | some o =>
      if ops.length ∈ o.arities then do
        let args ← decodeOperands cfg o ops
        Instr.build o args
      else .error (.raised .arityMismatch)

/-! ## Commands -/

/-- The number whose little-endian bytes are given (R92: least significant first). -/
def leValue : List Byte → Nat
  | [] => 0
  | b :: bs => b.toNat + 256 * leValue bs

/-- The low `n` bytes of a number, least significant first (R92). -/
def leBytes : Nat → Nat → List Byte
  | 0, _ => []
  | n + 1, v => BitVec.ofNat 8 v :: leBytes n (v / 256)

/-- The operand of a descriptor `(kind, payload)` (R92). -/
def decodeDescriptor (kind : Byte) (payload : Nat) : Operand :=
  if kind = 0x00#8 then .imm (BitVec.ofNat 64 payload)
  else if kind = 0x01#8 then .reg payload
  else .bad kind (BitVec.ofNat 64 payload)

/-- Exactly `n` descriptors of nine bytes each (R92). -/
def decodeDescriptors : Nat → List Byte → Option (List Operand)
  | 0, [] => some []
  | 0, _ :: _ => none
  | n + 1, k :: b0 :: b1 :: b2 :: b3 :: b4 :: b5 :: b6 :: b7 :: rest =>
    (decodeDescriptors n rest).map (decodeDescriptor k (leValue [b0, b1, b2, b3, b4, b5, b6, b7]) :: ·)
  | _ + 1, _ => none

/-- The header's `tag` field, bits 3:0 (R90). -/
def headerTag (h : Byte) : BitVec 4 := h.extractLsb' 0 4

/-- The header's `nops` field, bits 5:4 (R90). -/
def headerNops (h : Byte) : Nat := (h.extractLsb' 4 2).toNat

/-- The header's `rsv` field, bits 7:6 (R90). -/
def headerRsv (h : Byte) : BitVec 2 := h.extractLsb' 6 2

/-- A command's bytes (R92) to its instruction: checks (1) and (2) of R94, then the descriptors. The checks (3) on
the descriptors are `exec`'s, in their order. -/
def decodeCommand (bytes : List Byte) : Except DecodeError Instr :=
  match bytes with
  | [] => .error .notACommand
  | h :: rest =>
    if headerRsv h ≠ 0#2 then .error (.raised .unknownInstruction)
    else
      match Opcode.ofTag? (headerTag h) with
      | none => .error (.raised .unknownInstruction)
      | some o =>
        if headerNops h ∈ o.arities then
          match decodeDescriptors (headerNops h) rest with
          | some args => Instr.build o args
          | none => .error .notACommand
        else .error (.raised .arityMismatch)

/-! ## The encoders -/

/-- `header = (nops << 4) | tag` (R90). -/
def Instr.header (i : Instr) : Byte := (BitVec.ofNat 8 i.operands.length <<< 4) ||| i.opcode.tag.setWidth 8

/-- A descriptor's nine bytes (R92). -/
def encodeOperand : Operand → List Byte
  | .imm v => 0x00#8 :: leBytes 8 v.toNat
  | .reg k => 0x01#8 :: leBytes 8 k
  | .bad kind v => kind :: leBytes 8 v.toNat

/-- An instruction's command bytes: the header, then the descriptors in operand order (R92). -/
def encode (i : Instr) : List Byte := i.header :: i.operands.flatMap encodeOperand

/-- A hexadecimal digit (R211: `A`-`F` upper or lower case). -/
def hexDigit (hexCase : HexCase) (d : Nat) : Char :=
  if d < 10 then Char.ofNat (0x30 + d)
  else match hexCase with
    | .upper => Char.ofNat (0x41 + (d - 10))
    | .lower => Char.ofNat (0x61 + (d - 10))

/-- The low `n` hexadecimal digits of a number, most significant first. -/
def hexDigits (hexCase : HexCase) : Nat → Nat → Text
  | 0, _ => []
  | n + 1, v => hexDigits hexCase n (v / 16) ++ [hexDigit hexCase (v % 16)]

/-- An operand as a token: a literal in hexadecimal, a register by its name (R78). -/
def renderOperand (cfg : Config) : Operand → Text
  | .imm v => '0' :: 'x' :: hexDigits .upper 16 v.toNat
  | .reg k => cfg.regNames.getD k []
  | .bad _ _ => []

/-- An instruction as a line in the assembler syntax of R88. -/
def renderLine (cfg : Config) (i : Instr) : Text :=
  i.opcode.mnemonic ++ i.operands.flatMap (fun o => ' ' :: renderOperand cfg o)

/-! ## Words as `opcode_table.json` numbers them -/

/-- The length of the command whose header is `h`: `1 + 9 * nops` bytes (R92). -/
def commandLength (h : Byte) : Nat := 1 + 9 * headerNops h

/-- The command bytes of the bits `w`, the least significant byte first, bits from `nbits` up 0, cut at the length
the header gives. -/
def tableWordBytes (nbits w : Nat) : List Byte :=
  let bytes := leBytes 28 (w % 2 ^ nbits)
  bytes.take (commandLength (bytes.headD 0#8))

/-- What the command decoder reads from the bits `w`. -/
def decodeTableWord (nbits w : Nat) : Option Instr :=
  match decodeCommand (tableWordBytes nbits w) with
  | .ok i => some i
  | .error _ => none

end Sys2Proof
end

