-- ==== Sys2Proof/Machine/State.lean ====
section
/-! DEFINITION. The state of one block instance (`10_state.md` R41), the model's fields for its ports
(`00_scope.md` R6, `10_state.md` R33 to R38, `20_memory.md` R51, R52), the reasons a step can stop, and reset as
construction (`70_reset_and_hazards.md` R260 to R263). -/

namespace Sys2Proof.Machine

/-- Why the machine stops with a fault. The block's ten error kinds are no faults: they are statuses, and the
engine goes on (`40_execution.md` R112). -/
inductive Fault where
  /-- A read of a register that holds no value, possible with `REG_RESET = Unwritten` alone (`10_state.md` R27,
  `40_execution.md` R115). Raised by every meaning that reads a register, by `RDUMP`, and by the ports `get` and
  `dump`. Safe: the model stops where the block goes on. -/
  | readUnwritten
  deriving DecidableEq, Repr

/-- Why the model gives no meaning. -/
inductive Refusal where
  /-- No meaning yet. Raised by a refused arm of `exec` alone; there is none. Safe. -/
  | notModelled (mnemonic : String)
  /-- A float literal that `Truncate` mode gives no meaning (`30_encoding.md` R83, `40_execution.md` R115). Raised
  by reading a line. Safe: the spec itself refuses it. -/
  | floatLiteralOutOfRange
  /-- Bytes on the command port that are no command: not `1 + 9 * nops` bytes long (`30_encoding.md` R92). Raised
  by serving such a request. Safe. -/
  | notACommand
  /-- A configuration outside `70_reset_and_hazards.md` R263. Raised by construction, and by an operation that
  needs a register name the configuration lacks. Safe: no instance exists. -/
  | invalidConfiguration
  deriving DecidableEq, Repr

/-- The status of a step or of a port operation (`60_exceptions.md` R220, R221). -/
inductive Status where
  | ok
  | error (e : ErrorKind)
  deriving DecidableEq, Repr

/-- What a port answers: a status, or the value a successful read returns (`10_state.md` R33, R35,
`20_memory.md` R51). -/
inductive Reply where
  | status (st : Status)
  | word (v : Word)
  | flag (b : Bool)
  | byte (b : Byte)
  deriving DecidableEq, Repr

/-- What the host asks of the block (`92_eei_decisions.md` D3): an instruction as a line (`30_encoding.md` R70) or
as a command (R94), or an operation of the Register File ports (`10_state.md` R33 to R37) or of the Memory Bank
ports (`20_memory.md` R51, R52). A port address is a mathematical integer (`20_memory.md` R50). -/
inductive Request where
  | line (text : Text)
  | command (bytes : List Byte)
  | get (name : Text)
  | set (name : Text) (value : Word)
  | getFlag (name : Text)
  | setFlag (name : Text) (b : Bool)
  | dump
  | read (address : Int)
  | write (address : Int) (b : Byte)
  deriving DecidableEq, Repr

/-- The bytes of memory that differ from what an unlisted address reads as (`10_state.md` R32), addresses
strictly rising. -/
abbrev Memory := List Host.Cell

/-- The names of the flags that are `true` (`10_state.md` R28), strictly rising. -/
abbrev FlagSet := List Text

/-- The state of one block instance. `regs`, `flags`, `mem` and `out` are the record of `10_state.md` R41: a
register is an option there, because with `REG_RESET = Unwritten` a register may hold no value; after
`State.reset` every register holds one. `cfg` is the instance's configuration, which no step changes
(notes/assumptions/1.md); `inputs` are the host's pending requests and `replies` what the ports have answered,
oldest first (notes/assumptions/2.md, 3.md). -/
structure State where
  cfg : Config
  regs : List (Option Word)
  flags : FlagSet
  mem : Memory
  out : List Text
  inputs : List Request
  replies : List Reply
  deriving DecidableEq, Repr

/-- What a register holds after reset (`70_reset_and_hazards.md` R261, R262). -/
def Config.resetValue (cfg : Config) (name : Text) : Option Word :=
  if name = rspName then some (wrap64 cfg.memSize)
  else if name = ssName then some (wrap64 ((cfg.memSize : Int) - cfg.stackSize))
  else match cfg.regReset with
    | .zero => some 0
    | .unwritten => none

/-- The reset state of a configuration (R262). -/
def State.resetWith (cfg : Config) : State where
  cfg := cfg
  regs := cfg.regNames.map (Config.resetValue cfg)
  flags := []
  mem := []
  out := []
  inputs := []
  replies := []

/-- Construction of an instance (R260): the reset state, or a refusal of an invalid configuration (R263). -/
def State.construct (cfg : Config) : Host.Outcome State Fault Refusal :=
  if cfg.Valid then .next (State.resetWith cfg) else .refused .invalidConfiguration

/-- The machine right after reset, with the zero-config configuration (`00_scope.md` R8). -/
def State.reset : State := State.resetWith zeroCfg

end Sys2Proof.Machine
end

