-- ==== Sys2Proof/Machine/Ops.lean ====
section
/-! DEFINITION. The named operations on memory (`00_scope.md` R12, `20_memory.md`), registers (R11) and output
(R14), and how an instruction ends: completing, or raising an error (R13, `60_exceptions.md` R224). The block has
no return from an error (R225): the next request is simply served. -/

namespace Sys2Proof.Machine

/-- The outcome type of every meaning. -/
abbrev Result := Host.Outcome State Fault Refusal

/-- Why an instruction does not complete: an error kind of the block, a model fault or a refusal
(`40_execution.md` R115). -/
inductive Stop where
  | raised (e : ErrorKind)
  | faulted (f : Fault)
  | refused (r : Refusal)
  deriving DecidableEq, Repr

/-! ## Memory -/

/-- What an address that no store has changed reads as (`10_state.md` R32: "zero-initialized"). -/
def Memory.unlisted : Byte := 0#8

/-- `mem[a]` (R12). -/
def Memory.readByte : Memory → Nat → Byte
  | [], _ => Memory.unlisted
  | (a, b) :: rest, x => if x < a then Memory.unlisted else if x = a then b else Memory.readByte rest x

/-- `b` at address `x` in front of cells at higher addresses, listed only when it differs from the unlisted
byte. -/
def Memory.consByte (x : Nat) (b : Byte) (rest : Memory) : Memory :=
  if b = Memory.unlisted then rest else (x, b) :: rest

/-- `mem[a] <- b` (R12), keeping the canonical form. -/
def Memory.writeByte : Memory → Nat → Byte → Memory
  | [], x, v => Memory.consByte x v []
  | (a, b) :: rest, x, v =>
    if x < a then Memory.consByte x v ((a, b) :: rest)
    else if x = a then Memory.consByte x v rest
    else (a, b) :: Memory.writeByte rest x v

/-- The number whose `n` little-endian bytes stand from `a` on (R12, `20_memory.md` R55). -/
def Memory.readLE (m : Memory) (a : Nat) : Nat → Nat
  | 0 => 0
  | n + 1 => (m.readByte a).toNat + 256 * Memory.readLE m (a + 1) n

/-- The low `n` bytes of `v` stored little-endian from `a` on (R12, `20_memory.md` R55). -/
def Memory.writeLE (m : Memory) (a : Nat) : Nat → Nat → Memory
  | 0, _ => m
  | n + 1, v => Memory.writeLE (m.writeByte a (BitVec.ofNat 8 v)) (a + 1) n (v / 256)

/-- `MemRead(addr, 8)` (R12). -/
def Memory.readWord (m : Memory) (a : Nat) : Word := BitVec.ofNat 64 (m.readLE a 8)

/-- `MemWrite(addr, 8, v)` (R12). -/
def Memory.writeWord (m : Memory) (a : Nat) (v : Word) : Memory := m.writeLE a 8 v.toNat

/-- The canonical form: addresses strictly rising, no cell equal to what its address reads as when unlisted. -/
abbrev Memory.wf (m : Memory) : Prop :=
  m.Pairwise (fun c d => c.1 < d.1) ∧ ∀ c ∈ m, c.2 ≠ Memory.unlisted

/-- `address` lies in `[0, MEM_SIZE)` (`20_memory.md` R50). -/
abbrev State.inBounds (s : State) (address : Int) : Prop := 0 ≤ address ∧ address < s.cfg.memSize

/-! ## Registers -/

/-- The value the register at a position holds, if it holds one (R11, `10_state.md` R27). -/
def State.reg? (s : State) (k : Nat) : Option Word := (s.regs[k]?).join

/-- `x[r]` by position (R11). With `REG_RESET = Unwritten` a read of a register that holds no value "is a model fault
`ReadUnwritten`" (`10_state.md` R27, `40_execution.md` R115); with `Zero` every register holds one from reset on. -/
def State.readReg (s : State) (k : Nat) : Except Stop Word :=
  match s.reg? k with
  | some v => .ok v
  | none => .error (.faulted .readUnwritten)

/-- `x[r] <- v` by position (R11, `10_state.md` R21: all 64 bits, no other slot). -/
def State.writeReg (s : State) (k : Nat) (v : Word) : State := { s with regs := s.regs.set k (some v) }

/-- The position of a register the instance must have (`10_state.md` R23 (b)). -/
def State.position (s : State) (name : Text) : Except Stop Nat :=
  match s.cfg.position? name with
  | some k => .ok k
  | none => .error (.refused .invalidConfiguration)

/-- `x[name]` (R11). -/
def State.readNamed (s : State) (name : Text) : Except Stop Word := do
  let k ← s.position name
  s.readReg k

/-- `x[name] <- v` (R11). -/
def State.writeNamed (s : State) (name : Text) (v : Word) : Except Stop State := do
  let k ← s.position name
  pure (s.writeReg k v)

/-- The value the named register holds, if there is such a register and it holds one. -/
def State.named? (s : State) (name : Text) : Option Word := (s.cfg.position? name).bind s.reg?

/-! ## Memory of the state and output -/

/-- `mem` replaced. -/
def State.withMem (s : State) (m : Memory) : State := { s with mem := m }

/-- `emit` of some texts, in order (R14). -/
def State.emit (s : State) (ts : List Text) : State := { s with out := s.out ++ ts }

/-- A port answers (`60_exceptions.md` R221). -/
def State.reply (s : State) (r : Reply) : State := { s with replies := s.replies ++ [r] }

/-- The numeric code of an error kind (`60_exceptions.md` R220). -/
def errorCode : ErrorKind → Nat
  | .malformedInstruction => 1
  | .unknownInstruction => 2
  | .arityMismatch => 3
  | .unknownOperand => 4
  | .unknownRegister => 5
  | .invalidDestination => 6
  | .divisionByZero => 7
  | .stackOverflow => 8
  | .stackUnderflow => 9
  | .outOfBounds => 10

/-- The numeric code of a status (`60_exceptions.md` R220, R221). -/
def Status.code : Status → Nat
  | .ok => 0
  | .error e => errorCode e

/-! ## How an instruction ends -/

/-- TAKING AN ERROR (R13, `60_exceptions.md` R224, `40_execution.md` R112): nothing is written, nothing emitted,
and the status carries the error kind. -/
def State.raise (s : State) (e : ErrorKind) : Result := .next (s.reply (.status (.error e)))

/-- Completing: the status is `OK` (R220, R221). -/
def State.complete (s : State) : Result := .next (s.reply (.status .ok))

/-- Ending without completing, in the state before the instruction. -/
def State.stop (s : State) : Stop → Result
  | .raised e => s.raise e
  | .faulted f => .fault f
  | .refused r => .refused r

/-- The end of an instruction started in `s`: the computed state is committed as a whole, or none of it
(`20_memory.md` R58, `40_execution.md` R111, R112). -/
def State.finish (s : State) (r : Except Stop State) : Result :=
  match r with
  | .ok t => t.complete
  | .error e => s.stop e

/-- A rejection of the decoder as the end of the step (`40_execution.md` R111, R115). -/
def DecodeError.toStop : DecodeError → Stop
  | .raised e => .raised e
  | .floatOutOfRange => .refused .floatLiteralOutOfRange
  | .notACommand => .refused .notACommand

end Sys2Proof.Machine
end

