-- ==== Sys2Proof/Machine/Operands.lean ====
section
/-! DEFINITION. The operand forms: destinations (`30_encoding.md` R86, R94) and sources (R80, R94), each checked
before any register is read (`40_execution.md` R111 stages 4 and 5), and then read (stage 6). -/

namespace Sys2Proof.Machine

/-- The check of a descriptor in a destination position, and the register it names (R94 (3), R86). DESIGN CHOICE
(notes/assumptions/23.md, unsafe): a command's REG descriptor passes whatever the name at its position, one that is
not of class REGNAME included. R94 checks the range alone; R81 and `10_state.md` R23 say that no operand can name
such a register. -/
def State.checkDest (s : State) : Operand → Except Stop Nat
  | .reg k => if k < s.cfg.regNames.length then .ok k else .error (.raised .unknownRegister)
  | .imm _ => .error (.raised .invalidDestination)
  | .bad _ _ => .error (.raised .unknownOperand)

/-- The check of a descriptor in a source position (R94 (3)). As in `State.checkDest`, the name at the position is
not looked at (DESIGN CHOICE, notes/assumptions/23.md). -/
def State.checkSource (s : State) : Operand → Except Stop Unit
  | .reg k => if k < s.cfg.regNames.length then .ok () else .error (.raised .unknownRegister)
  | .imm _ => .ok ()
  | .bad _ _ => .error (.raised .unknownOperand)

/-- The value of a checked source: a literal is its value (R87), a register is read (R80). -/
def State.readSource (s : State) : Operand → Except Stop Word
  | .imm v => .ok v
  | .reg k => s.readReg k
  | .bad _ _ => .error (.raised .unknownOperand)

/-- The register a destination names, if it passes its check. -/
def State.dest? (s : State) : Operand → Option Nat
  | .reg k => if k < s.cfg.regNames.length then some k else none
  | .imm _ => none
  | .bad _ _ => none

/-- The value a source yields, if it passes its check and, being a register, holds one. -/
def State.source? (s : State) : Operand → Option Word
  | .imm v => some v
  | .reg k => if k < s.cfg.regNames.length then s.reg? k else none
  | .bad _ _ => none

end Sys2Proof.Machine
end

