-- ==== Sys2Proof/Machine/Alu.lean ====
section
/-! DEFINITION. The ALU as a pure function of an operation and two words (`40_execution.md` R116), and the three
frames every ALU instruction runs in (R118, R119, R120). -/

namespace Sys2Proof.Machine

/-- The ALU's operations (R116). -/
inductive AluOp where
  | add | sub | and | or | xor | mul | div | neg | not | lsl | lsr
  deriving DecidableEq, Repr

/-- The eleven operations, in the order of R116. -/
def AluOp.all : List AluOp := [.add, .sub, .and, .or, .xor, .mul, .div, .neg, .not, .lsl, .lsr]

/-- The opcode an operation bears the name of (R116). -/
def AluOp.opcode : AluOp → Opcode
  | .add => .add
  | .sub => .sub
  | .and => .and
  | .or => .or
  | .xor => .xor
  | .mul => .mul
  | .div => .div
  | .neg => .neg
  | .not => .not
  | .lsl => .lsl
  | .lsr => .lsr

/-- The value at the ALU's opcode-tag input that selects an operation: the tag of its opcode (`30_encoding.md`
R91). -/
def AluOp.tag (op : AluOp) : BitVec 4 := op.opcode.tag

/-- The operation a value at the opcode-tag input selects; none for the tags of `MOV`, `CMP`, `PUSH`, `POP` and
`RDUMP`, for which R116 has no operation. -/
def AluOp.ofTag? (t : BitVec 4) : Option AluOp := AluOp.all.find? (fun op => op.tag == t)

/-- `sh(b) = u(b) mod 64` (`44_shift.md` R170). -/
def shiftAmount (b : Word) : Nat := b.toNat % 64

/-- `ADD(a, b)` (`42_arith_logic.md` R141). -/
def aluAdd (a b : Word) : Word := wrap64 (a.u + b.u)

/-- `SUB(a, b)` (R142). -/
def aluSub (a b : Word) : Word := wrap64 (a.u - b.u)

/-- `AND(a, b)` (R143). -/
def aluAnd (a b : Word) : Word := a &&& b

/-- `OR(a, b)` (R144). -/
def aluOr (a b : Word) : Word := a ||| b

/-- `XOR(a, b)` (R145). -/
def aluXor (a b : Word) : Word := a ^^^ b

/-- `MUL(a, b)` (R146). -/
def aluMul (a b : Word) : Word := wrap64 (a.u * b.u)

/-- `DIV(a, b)` (R147): none is the indication `DivisionByZero`. -/
def aluDiv (a b : Word) : Option Word := if b.u = 0 then none else some (wrap64 (a.s.tdiv b.s))

/-- `NEG(a)` (`43_unary.md` R160). -/
def aluNeg (a : Word) : Word := wrap64 (0 - a.u)

/-- `NOT(a)` (R161). -/
def aluNot (a : Word) : Word := ~~~a

/-- `LSL(a, b)` (`44_shift.md` R171). -/
def aluLsl (a b : Word) : Word := wrap64 (a.u * 2 ^ shiftAmount b)

/-- `LSR(a, b)` (R172): the readings are non-negative, so the integer quotient is the floor. -/
def aluLsr (a b : Word) : Word := wrap64 (a.u / 2 ^ shiftAmount b)

/-- The function of an operation (R116): none is the indication `DivisionByZero`; `b` is ignored by the unary operations. -/
def alu (op : AluOp) (a b : Word) : Option Word :=
  match op with
  | .add => some (aluAdd a b)
  | .sub => some (aluSub a b)
  | .and => some (aluAnd a b)
  | .or => some (aluOr a b)
  | .xor => some (aluXor a b)
  | .mul => some (aluMul a b)
  | .div => aluDiv a b
  | .neg => some (aluNeg a)
  | .not => some (aluNot a)
  | .lsl => some (aluLsl a b)
  | .lsr => some (aluLsr a b)

/-- The ALU as its interface gives it, `ALU(tag, a, b)` (R116): the answer of the operation the tag selects, where it
selects one. -/
def aluPort (tag : BitVec 4) (a b : Word) : Option (Option Word) := (AluOp.ofTag? tag).map (fun op => alu op a b)

/-- The ALU's result, or `DivisionByZero` raised (R118, R119). -/
def aluResult (op : AluOp) (a b : Word) : Except Stop Word :=
  match alu op a b with
  | some r => .ok r
  | none => .error (.raised .divisionByZero)

/-- The two-operand frame (R118). -/
def aluFrame2 (op : AluOp) (dest src : Operand) (s : State) : Result :=
  s.finish do
    let d ← s.checkDest dest
    s.checkSource src
    let a ← s.readReg d
    let b ← s.readSource src
    let r ← aluResult op a b
    pure (s.writeReg d r)

/-- The three-operand frame (R119): the old value of the destination is not read. -/
def aluFrame3 (op : AluOp) (dest src1 src2 : Operand) (s : State) : Result :=
  s.finish do
    let d ← s.checkDest dest
    s.checkSource src1
    s.checkSource src2
    let a ← s.readSource src1
    let b ← s.readSource src2
    let r ← aluResult op a b
    pure (s.writeReg d r)

/-- The one-operand frame (R120). -/
def aluFrame1 (op : AluOp) (dest : Operand) (s : State) : Result :=
  s.finish do
    let d ← s.checkDest dest
    let a ← s.readReg d
    let r ← aluResult op a 0
    pure (s.writeReg d r)

end Sys2Proof.Machine
end

