-- ==== Sys2Proof/Machine/ArithLogic.lean ====
section
/-! DEFINITION. Binary arithmetic and logic (`42_arith_logic.md` R140 to R147), each in its two-operand form
(frame R118) and its three-operand form (frame R119). -/

namespace Sys2Proof.Machine

/-- `ADD dest, src` (R141). -/
def execAdd2 (dest src : Operand) (s : State) : Result := aluFrame2 .add dest src s

/-- `ADD dest, src1, src2` (R141). -/
def execAdd3 (dest src1 src2 : Operand) (s : State) : Result := aluFrame3 .add dest src1 src2 s

/-- `SUB dest, src` (R142). -/
def execSub2 (dest src : Operand) (s : State) : Result := aluFrame2 .sub dest src s

/-- `SUB dest, src1, src2` (R142). -/
def execSub3 (dest src1 src2 : Operand) (s : State) : Result := aluFrame3 .sub dest src1 src2 s

/-- `AND dest, src` (R143). -/
def execAnd2 (dest src : Operand) (s : State) : Result := aluFrame2 .and dest src s

/-- `AND dest, src1, src2` (R143). -/
def execAnd3 (dest src1 src2 : Operand) (s : State) : Result := aluFrame3 .and dest src1 src2 s

/-- `OR dest, src` (R144). -/
def execOr2 (dest src : Operand) (s : State) : Result := aluFrame2 .or dest src s

/-- `OR dest, src1, src2` (R144). -/
def execOr3 (dest src1 src2 : Operand) (s : State) : Result := aluFrame3 .or dest src1 src2 s

/-- `XOR dest, src` (R145). -/
def execXor2 (dest src : Operand) (s : State) : Result := aluFrame2 .xor dest src s

/-- `XOR dest, src1, src2` (R145). -/
def execXor3 (dest src1 src2 : Operand) (s : State) : Result := aluFrame3 .xor dest src1 src2 s

/-- `MUL dest, src` (R146). -/
def execMul2 (dest src : Operand) (s : State) : Result := aluFrame2 .mul dest src s

/-- `MUL dest, src1, src2` (R146). -/
def execMul3 (dest src1 src2 : Operand) (s : State) : Result := aluFrame3 .mul dest src1 src2 s

/-- `DIV dest, src` (R147). -/
def execDiv2 (dest src : Operand) (s : State) : Result := aluFrame2 .div dest src s

/-- `DIV dest, src1, src2` (R147). -/
def execDiv3 (dest src1 src2 : Operand) (s : State) : Result := aluFrame3 .div dest src1 src2 s

end Sys2Proof.Machine
end

