-- ==== Sys2Proof/Machine/Flags.lean ====
section
/-! DEFINITION. The condition flags (`10_state.md` R28 to R31) and the comparator that computes `Z` and `N`
(`40_execution.md` R117, `45_compare.md` R180). -/

namespace Sys2Proof.Machine

/-- The flag name `Z`, "equal" (R29). -/
def zName : Text := "Z".toList

/-- The flag name `N`, "less-than", signed (R29). -/
def nName : Text := "N".toList

/-- The order of the canonical form: texts by their characters' code points. -/
def textLt : Text → Text → Bool
  | _, [] => false
  | [], _ :: _ => true
  | a :: as, b :: bs => decide (a.toNat < b.toNat) || (decide (a = b) && textLt as bs)

/-- `flag[f]` (R11, R28): `false` for a name never set. -/
def FlagSet.get (fs : FlagSet) (f : Text) : Bool := decide (f ∈ fs)

/-- The name `f` in its place. -/
def FlagSet.insert : FlagSet → Text → FlagSet
  | [], f => [f]
  | g :: rest, f => if textLt f g then f :: g :: rest else if f = g then g :: rest else g :: FlagSet.insert rest f

/-- `flag[f] <- b` (R11), keeping the canonical form: a flag that is `false` is not listed. -/
def FlagSet.set (fs : FlagSet) (f : Text) (b : Bool) : FlagSet :=
  if b then FlagSet.insert fs f else fs.filter (fun g => decide (g ≠ f))

/-- The canonical form: names strictly rising. -/
abbrev FlagSet.wf (fs : FlagSet) : Prop := fs.Pairwise (fun f g => textLt f g = true)

/-- `flag[f]` of the state. -/
def State.flag (s : State) (f : Text) : Bool := FlagSet.get s.flags f

/-- `flag[f] <- b` of the state. -/
def State.setFlag (s : State) (f : Text) (b : Bool) : State := { s with flags := FlagSet.set s.flags f b }

/-- `CMPU(a, b)`: equality of all 64 bits, signed less-than (R117, R180). -/
def cmpu (a b : Word) : Bool × Bool := (decide (a = b), decide (a.s < b.s))

end Sys2Proof.Machine
end

