-- ==== Sys2Proof/Machine/Compare.lean ====
section
/-! DEFINITION. Comparison (`45_compare.md`). -/

namespace Sys2Proof.Machine

/-- The flag writes of a comparison of `a` with `b` (R180). -/
def State.compare (s : State) (a b : Word) : State :=
  (s.setFlag zName (cmpu a b).1).setFlag nName (cmpu a b).2

/-- `CMP src1, src2` (R180). -/
def execCmp (src1 src2 : Operand) (s : State) : Result :=
  s.finish do
    s.checkSource src1
    s.checkSource src2
    let a ← s.readSource src1
    let b ← s.readSource src2
    pure (s.compare a b)

end Sys2Proof.Machine
end

