-- ==== Sys2Proof/Machine/Dump.lean ====
section
/-! DEFINITION. The register dump (`47_dump.md`), which `RDUMP` and the host port `dump()` (`10_state.md` R37)
share. -/

namespace Sys2Proof.Machine

/-- `dump_line(r, v)` (R211). -/
def dumpLine (hexCase : HexCase) (name : Text) (v : Word) : Text :=
  name ++ ": ".toList ++ hexDigits hexCase 16 v.toNat ++ ['\n']

/-- The dump lines of the registers named, in that order (R210). -/
def State.dumpLinesOf (s : State) : List Text → Except Stop (List Text)
  | [] => .ok []
  | r :: rs => do
    let v ← s.readNamed r
    let lines ← s.dumpLinesOf rs
    pure (dumpLine s.cfg.hexCase r v :: lines)

/-- The state after the dump is emitted, in `DUMP_ORDER` (R210). -/
def State.dumped (s : State) : Except Stop State := do
  let lines ← s.dumpLinesOf s.cfg.dumpOrder
  pure (s.emit lines)

/-- `RDUMP` (R210). -/
def execRdump (s : State) : Result := s.finish s.dumped

end Sys2Proof.Machine
end

