-- ==== Sys2Proof/Machine/Move.lean ====
section
/-! DEFINITION. Data movement (`41_move.md`). -/

namespace Sys2Proof.Machine

/-- `MOV dest, src` (R130). -/
def execMov (dest src : Operand) (s : State) : Result :=
  s.finish do
    let d ← s.checkDest dest
    s.checkSource src
    let v ← s.readSource src
    pure (s.writeReg d v)

end Sys2Proof.Machine
end

