-- ==== Sys2Proof/Machine/Shift.lean ====
section
/-! DEFINITION. Shifts (`44_shift.md`), in the frame of `40_execution.md` R118. -/

namespace Sys2Proof.Machine

/-- `LSL dest, amount` (R171). -/
def execLsl (dest amount : Operand) (s : State) : Result := aluFrame2 .lsl dest amount s

/-- `LSR dest, amount` (R172). -/
def execLsr (dest amount : Operand) (s : State) : Result := aluFrame2 .lsr dest amount s

end Sys2Proof.Machine
end

