-- ==== Sys2Proof/Machine/Stack.lean ====
section
/-! DEFINITION. The stack (`46_stack.md`): pointer in `RSP`, base in `SS`, top `MEM_SIZE` (R190), address
arithmetic on unbounded integers (R191). -/

namespace Sys2Proof.Machine

/-- The address a push stores its 8 bytes at, for the stack pointer value `p` (R192). -/
def pushAddress (p : Word) : Nat := (p.u - 8).toNat

/-- `PUSH` of the value `v` (R192): the base check, the range check, then the store and the pointer. -/
def State.push (s : State) (v : Word) : Except Stop State := do
  let p ← s.readNamed rspName
  let base ← s.readNamed ssName
  if p.u - 8 < base.u then .error (.raised .stackOverflow)
  else if p.u > s.cfg.memSize then .error (.raised .outOfBounds)
  else (s.withMem (s.mem.writeWord (pushAddress p) v)).writeNamed rspName (wrap64 (p.u - 8))

/-- `PUSH value` (R192 to R195). -/
def execPush (value : Operand) (s : State) : Result :=
  s.finish do
    s.checkSource value
    let v ← s.readSource value
    s.push v

/-- `POP` into the register at position `d` (R197): the top check, then the pointer, then the destination, so that
`POP RSP` leaves the popped value (R199). -/
def State.pop (s : State) (d : Nat) : Except Stop State := do
  let p ← s.readNamed rspName
  if p.u + 8 > s.cfg.memSize then .error (.raised .stackUnderflow)
  else do
    let t ← s.writeNamed rspName (wrap64 (p.u + 8))
    pure (t.writeReg d (s.mem.readWord p.toNat))

/-- `POP dest` (R197 to R199). -/
def execPop (dest : Operand) (s : State) : Result :=
  s.finish do
    let d ← s.checkDest dest
    s.pop d

end Sys2Proof.Machine
end

