-- ==== Sys2Proof/Machine/Unary.lean ====
section
/-! DEFINITION. Unary operations (`43_unary.md`), in the frame of `40_execution.md` R120. -/

namespace Sys2Proof.Machine

/-- `NEG dest` (R160). -/
def execNeg (dest : Operand) (s : State) : Result := aluFrame1 .neg dest s

/-- `NOT dest` (R161). -/
def execNot (dest : Operand) (s : State) : Result := aluFrame1 .not dest s

end Sys2Proof.Machine
end

