-- ==== Sys2Proof/Machine/Dispatch.lean ====
section
/-! DEFINITION. `exec`: the meaning of every form (`30_encoding.md` R85, R93, R94), one arm a constructor. -/

namespace Sys2Proof.Machine

def exec (i : Instr) (s : State) : Host.Outcome State Fault Refusal :=
  match i with
  | .mov d a => Sys2Proof.Machine.execMov d a s
  | .add2 d a => Sys2Proof.Machine.execAdd2 d a s
  | .add3 d a b => Sys2Proof.Machine.execAdd3 d a b s
  | .sub2 d a => Sys2Proof.Machine.execSub2 d a s
  | .sub3 d a b => Sys2Proof.Machine.execSub3 d a b s
  | .and2 d a => Sys2Proof.Machine.execAnd2 d a s
  | .and3 d a b => Sys2Proof.Machine.execAnd3 d a b s
  | .or2 d a => Sys2Proof.Machine.execOr2 d a s
  | .or3 d a b => Sys2Proof.Machine.execOr3 d a b s
  | .xor2 d a => Sys2Proof.Machine.execXor2 d a s
  | .xor3 d a b => Sys2Proof.Machine.execXor3 d a b s
  | .mul2 d a => Sys2Proof.Machine.execMul2 d a s
  | .mul3 d a b => Sys2Proof.Machine.execMul3 d a b s
  | .div2 d a => Sys2Proof.Machine.execDiv2 d a s
  | .div3 d a b => Sys2Proof.Machine.execDiv3 d a b s
  | .neg d => Sys2Proof.Machine.execNeg d s
  | .bitNot d => Sys2Proof.Machine.execNot d s
  | .lsl d a => Sys2Proof.Machine.execLsl d a s
  | .lsr d a => Sys2Proof.Machine.execLsr d a s
  | .cmp a b => Sys2Proof.Machine.execCmp a b s
  | .push a => Sys2Proof.Machine.execPush a s
  | .pop d => Sys2Proof.Machine.execPop d s
  | .rdump => Sys2Proof.Machine.execRdump s

end Sys2Proof.Machine
end

