-- ==== Sys2Proof/Machine/Ports.lean ====
section
/-! DEFINITION. The host ports: the Register File's (`10_state.md` R33 to R37) and the Memory Bank's
(`20_memory.md` R51, R52). A port that raises changes no state (`60_exceptions.md` R226). -/

namespace Sys2Proof.Machine

/-- `get(name)` (R33). -/
def portGet (name : Text) (s : State) : Result :=
  match s.cfg.position? name with
  | none => s.raise .unknownRegister
  | some k =>
    match s.readReg k with
    | .ok v => .next (s.reply (.word v))
    | .error e => s.stop e

/-- `set(name, value)` (R34). -/
def portSet (name : Text) (value : Word) (s : State) : Result :=
  match s.cfg.position? name with
  | none => s.raise .unknownRegister
  | some k => (s.writeReg k value).complete

/-- `getFlag(name)` (R35). -/
def portGetFlag (name : Text) (s : State) : Result := .next (s.reply (.flag (s.flag name)))

/-- `setFlag(name, b)` (R36). -/
def portSetFlag (name : Text) (b : Bool) (s : State) : Result := (s.setFlag name b).complete

/-- `dump()` (R37). -/
def portDump (s : State) : Result := s.finish s.dumped

/-- `read(address)` (R51). -/
def portRead (address : Int) (s : State) : Result :=
  if s.inBounds address then .next (s.reply (.byte (s.mem.readByte address.toNat))) else s.raise .outOfBounds

/-- `write(address, b)` (R52). -/
def portWrite (address : Int) (b : Byte) (s : State) : Result :=
  if s.inBounds address then (s.withMem (s.mem.writeByte address.toNat b)).complete else s.raise .outOfBounds

end Sys2Proof.Machine
end

