-- ==== Sys2Proof/Machine/Serve.lean ====
section
/-! DEFINITION. Serving one request of the host: an instruction through its decoder and `exec`
(`30_encoding.md` R93, R94), or a port operation; and what the feeder does after an instruction
(`70_reset_and_hazards.md` R276). -/

namespace Sys2Proof.Machine

/-- A decoder's answer executed (R93): the instruction, or the end its rejection names. -/
def runDecoded (d : Except DecodeError Instr) (s : State) : Result :=
  match d with
  | .ok i => exec i s
  | .error e => s.stop (DecodeError.toStop e)

/-- The block's step of one line (`40_execution.md` R110, R111, in the form of `30_encoding.md` R93). -/
def stepLine (line : Text) (s : State) : Result := runDecoded (decodeLine s.cfg line) s

/-- The block's step of one command (`30_encoding.md` R94). -/
def stepCommand (bytes : List Byte) (s : State) : Result := runDecoded (decodeCommand bytes) s

/-- A request that asks for an instruction to be stepped. -/
def Request.isInstruction : Request → Bool
  | .line _ => true
  | .command _ => true
  | .get _ => false
  | .set _ _ => false
  | .getFlag _ => false
  | .setFlag _ _ => false
  | .dump => false
  | .read _ => false
  | .write _ _ => false

/-- The last thing a port answered was the status `OK`. -/
def State.lastOk (s : State) : Bool := decide (s.replies.getLast? = some (.status .ok))

/-- The feeder after an instruction (R276): with `FEEDER_POLICY = Abort`, a status other than `OK` ends the run,
and no pending instruction is supplied any more (notes/assumptions/5.md). -/
def State.feed (s : State) : State :=
  if s.cfg.feederPolicy = .abortRun ∧ s.lastOk = false then
    { s with inputs := s.inputs.filter (fun r => !r.isInstruction) }
  else s

/-- An instruction's outcome handed to the feeder. -/
def feedAfter (o : Result) : Result :=
  match o with
  | .next s => .next s.feed
  | .fault f => .fault f
  | .refused r => .refused r

/-- One request served (`92_eei_decisions.md` D3). -/
def serve (r : Request) (s : State) : Result :=
  match r with
  | .line text => feedAfter (stepLine text s)
  | .command bytes => feedAfter (stepCommand bytes s)
  | .get name => portGet name s
  | .set name value => portSet name value s
  | .getFlag name => portGetFlag name s
  | .setFlag name b => portSetFlag name b s
  | .dump => portDump s
  | .read address => portRead address s
  | .write address b => portWrite address b s

/-- The first pending request taken. -/
def State.taken (s : State) : State := { s with inputs := s.inputs.drop 1 }

/-- A request put in front of the pending ones. -/
def State.ask (s : State) (r : Request) : State := { s with inputs := r :: s.inputs }

end Sys2Proof.Machine
end

