-- ==== Sys2Proof/Machine/Step.lean ====
section
/-! DEFINITION. The step: the first pending request is served; with none pending the block is idle
(`60_exceptions.md` R245). The block fetches nothing from memory (`20_memory.md` R65): the host hands it each
instruction (notes/assumptions/2.md). -/

namespace Sys2Proof.Machine

/-- One step of the block. -/
def step (s : State) : Host.Outcome State Fault Refusal :=
  match s.inputs with
  | [] => .next s
  | r :: _ => serve r s.taken

/-- The host asks for the command whose bits are `w` to be executed next: it is the first pending request. -/
def State.withFetchWord (s : State) (nbits w : Nat) : State := s.ask (.command (tableWordBytes nbits w))

end Sys2Proof.Machine
end

