-- ==== Sys2Proof/Machine/Run.lean ====
section
/-! DEFINITION. A program run (`70_reset_and_hazards.md` R276), from a list of lines and a feeder policy. -/

namespace Sys2Proof.Machine

/-- The result of a run (R276): the final state, the statuses of the steps taken, the emitted texts in order. -/
structure RunResult where
  final : State
  statuses : List Status
  emitted : List Text
  deriving DecidableEq, Repr

/-- The status the last step returned (R221). -/
def State.lastStatus (s : State) : Status :=
  match s.replies.getLast? with
  | some (.status st) => st
  | some (.word _) => .ok
  | some (.flag _) => .ok
  | some (.byte _) => .ok
  | none => .ok

/-- A run's result with a step before it, from `s` to `t`. -/
def RunResult.after (s t : State) (r : RunResult) : RunResult where
  final := r.final
  statuses := t.lastStatus :: r.statuses
  emitted := t.out.drop s.out.length ++ r.emitted

/-- The run of a program from a state (R276). A run that meets a fault or a refusal has no result. -/
def runProgram (policy : FeederPolicy) : List Text → State → Host.Outcome RunResult Fault Refusal
  | [], s => .next ⟨s, [], []⟩
  | line :: rest, s =>
    match stepLine line s with
    | .next t =>
      if policy = .abortRun ∧ t.lastStatus ≠ .ok then .next (RunResult.after s t ⟨t, [], []⟩)
      else
        match runProgram policy rest t with
        | .next r => .next (RunResult.after s t r)
        | .fault f => .fault f
        | .refused r => .refused r
    | .fault f => .fault f
    | .refused r => .refused r

/-- A program handed to the block: its lines are the pending requests (R275). -/
def State.load (s : State) (program : List Text) : State := { s with inputs := program.map Request.line }

end Sys2Proof.Machine
end

