-- ==== Sys2Proof/Machine/TextStep.lean ====
section
/-! DEFINITION. The step of a line as `40_execution.md` R111 writes it, on tokens and register names, with `resolve`
of `30_encoding.md` R80 and no command in between. `30_encoding.md` R93 says that it agrees with decoding the line
and executing the command; the machine runs the latter, and a statement says that the two agree. -/

namespace Sys2Proof.Machine

/-- `float_literal` in the step: an out-of-range literal is the model's refusal (R83, R111 stage 5). -/
def floatSource (cfg : Config) (t : Text) : Except Stop Word :=
  match Binary64.literal cfg.floatMode (fltValue t) with
  | .ok v => .ok v
  | .error _ => .error (.refused .floatLiteralOutOfRange)

/-- `check_source(t)` (R111 stage 5): class, literal value, register-name membership. -/
def State.checkSourceToken (s : State) (t : Text) : Except Stop Unit :=
  match tokenClass t with
  | .hex => if digitsValue 16 (t.drop 2) ≥ 2 ^ 64 then .error (.raised .unknownOperand) else .ok ()
  | .dec => if digitsValue 10 t > s.cfg.decMax.value then .error (.raised .unknownOperand) else .ok ()
  | .flt => (floatSource s.cfg t).map (fun _ => ())
  | .regName => if t ∈ s.cfg.regNames then .ok () else .error (.raised .unknownRegister)
  | .other => .error (.raised .unknownOperand)

/-- `resolve(t)` (R80). -/
def State.resolve (s : State) (t : Text) : Except Stop Word :=
  match tokenClass t with
  | .hex =>
    let v := digitsValue 16 (t.drop 2)
    if v ≥ 2 ^ 64 then .error (.raised .unknownOperand) else .ok (wrap64 v)
  | .dec =>
    let v := digitsValue 10 t
    if v > s.cfg.decMax.value then .error (.raised .unknownOperand) else .ok (wrap64 v)
  | .flt => floatSource s.cfg t
  | .regName => if t ∈ s.cfg.regNames then s.readNamed t else .error (.raised .unknownRegister)
  | .other => .error (.raised .unknownOperand)

/-- `classify_dest(t)` (R86): the register the token names. -/
def State.classifyDest (s : State) (t : Text) : Except Stop Text :=
  match tokenClass t with
  | .regName => if t ∈ s.cfg.regNames then .ok t else .error (.raised .unknownRegister)
  | .hex => .error (.raised .invalidDestination)
  | .dec => .error (.raised .invalidDestination)
  | .flt => .error (.raised .invalidDestination)
  | .other => .error (.raised .invalidDestination)

/-- Stage 5 of R111: the sources, left to right. -/
def State.checkSourceTokens (s : State) : List Text → Except Stop Unit
  | [] => .ok ()
  | t :: ts => do
    s.checkSourceToken t
    s.checkSourceTokens ts

/-- Stages 4 and 5 of R111. -/
def State.checkTokens (s : State) (o : Opcode) (ops : List Text) : Except Stop Unit :=
  if o.hasDest then
    match ops with
    | [] => .ok ()
    | t :: ts => do
      let _ ← s.classifyDest t
      s.checkSourceTokens ts
  else s.checkSourceTokens ops

/-- The two-operand ALU frame on tokens (R118). -/
def State.textAlu2 (s : State) (op : AluOp) (d b : Text) : Except Stop State := do
  let x ← s.readNamed d
  let y ← s.resolve b
  let r ← aluResult op x y
  s.writeNamed d r

/-- The three-operand ALU frame on tokens (R119). -/
def State.textAlu3 (s : State) (op : AluOp) (d a b : Text) : Except Stop State := do
  let x ← s.resolve a
  let y ← s.resolve b
  let r ← aluResult op x y
  s.writeNamed d r

/-- The one-operand ALU frame on tokens (R120). -/
def State.textAlu1 (s : State) (op : AluOp) (d : Text) : Except Stop State := do
  let x ← s.readNamed d
  let r ← aluResult op x 0
  s.writeNamed d r

/-- `MOV` on tokens (R130). -/
def State.textMov (s : State) (d b : Text) : Except Stop State := do
  let v ← s.resolve b
  s.writeNamed d v

/-- `CMP` on tokens (R180). -/
def State.textCmp (s : State) (a b : Text) : Except Stop State := do
  let x ← s.resolve a
  let y ← s.resolve b
  pure (s.compare x y)

/-- `PUSH` on tokens (R192). -/
def State.textPush (s : State) (a : Text) : Except Stop State := do
  let v ← s.resolve a
  s.push v

/-- `POP` on tokens (R197). -/
def State.textPop (s : State) (d : Text) : Except Stop State := do
  let k ← s.position d
  s.pop k

/-- Stage 6 of R111: the instruction's own rule on its operand tokens. -/
def State.operate (s : State) : Opcode → List Text → Except Stop State
  | .mov, [d, b] => s.textMov d b
  | .add, [d, b] => s.textAlu2 .add d b
  | .add, [d, a, b] => s.textAlu3 .add d a b
  | .sub, [d, b] => s.textAlu2 .sub d b
  | .sub, [d, a, b] => s.textAlu3 .sub d a b
  | .and, [d, b] => s.textAlu2 .and d b
  | .and, [d, a, b] => s.textAlu3 .and d a b
  | .or, [d, b] => s.textAlu2 .or d b
  | .or, [d, a, b] => s.textAlu3 .or d a b
  | .xor, [d, b] => s.textAlu2 .xor d b
  | .xor, [d, a, b] => s.textAlu3 .xor d a b
  | .mul, [d, b] => s.textAlu2 .mul d b
  | .mul, [d, a, b] => s.textAlu3 .mul d a b
  | .div, [d, b] => s.textAlu2 .div d b
  | .div, [d, a, b] => s.textAlu3 .div d a b
  | .neg, [d] => s.textAlu1 .neg d
  | .not, [d] => s.textAlu1 .not d
  | .lsl, [d, b] => s.textAlu2 .lsl d b
  | .lsr, [d, b] => s.textAlu2 .lsr d b
  | .cmp, [a, b] => s.textCmp a b
  | .push, [a] => s.textPush a
  | .pop, [d] => s.textPop d
  | .rdump, [] => s.dumped
  | _, _ => .error (.raised .arityMismatch)

/-- Stages 2 to 6 of R111 for an opcode token and its operand tokens. -/
def State.runTokens (s : State) (op : Text) (ops : List Text) : Except Stop State :=
  match Opcode.ofMnemonic? (upper op) with
  | none => .error (.raised .unknownInstruction)
  | some o =>
    if ops.length ∈ o.arities then do
      s.checkTokens o ops
      s.operate o ops
    else .error (.raised .arityMismatch)

/-- `step(line)` of R111. -/
def textStep (line : Text) (s : State) : Result :=
  match tokens line with
  | [] => s.raise .malformedInstruction
  | op :: ops => s.finish (s.runTokens op ops)

end Sys2Proof.Machine
end

