-- ==== Sys2Proof/Safety.lean ====
section
/-! DEFINITION. The terms claims use: the invariant of the block, stack discipline (`46_stack.md` R190), and what
it is for a step to have changed only what an instruction's rule writes (`40_execution.md` R113). -/

namespace Sys2Proof.Machine

/-- The invariant of one block instance: its configuration is valid (R263), there is one register for each name
(`10_state.md` R20), memory and flags are in their canonical forms, every listed byte lies in the Memory Bank
(`20_memory.md` R50), every register holds a value when `REG_RESET = Zero` (R27), and `RSP` and `SS` always hold
one (R261). -/
abbrev State.Inv (s : State) : Prop :=
  s.cfg.Valid ∧ s.regs.length = s.cfg.regNames.length ∧ s.mem.wf ∧ (∀ c ∈ s.mem, c.1 < s.cfg.memSize) ∧
  FlagSet.wf s.flags ∧ (s.cfg.regReset = .zero → none ∉ s.regs) ∧
  (s.named? rspName).isSome = true ∧ (s.named? ssName).isSome = true

/-- Every register holds a value: always so with `REG_RESET = Zero` (R27). -/
abbrev State.AllWritten (s : State) : Prop := none ∉ s.regs

/-- `base <= p <= top` (R190, conflict C3): the stack pointer lies between the base and the top of memory. -/
def State.StackDiscipline (s : State) : Prop :=
  ∃ p base, s.named? rspName = some p ∧ s.named? ssName = some base ∧ base.u ≤ p.u ∧ p.u ≤ s.cfg.memSize

/-- Every register but those at the listed positions is as it was. -/
def State.RegsKept (s t : State) (except : List Nat) : Prop := ∀ k, k ∉ except → t.reg? k = s.reg? k

/-- Every flag is as it was. -/
def State.FlagsKept (s t : State) : Prop := ∀ f, t.flag f = s.flag f

/-- Every byte of memory is as it was. -/
def State.MemKept (s t : State) : Prop := ∀ a, t.mem.readByte a = s.mem.readByte a

/-- The configuration, the pending requests and the dump output are as they were. -/
def State.OthersKept (s t : State) : Prop := t.cfg = s.cfg ∧ t.inputs = s.inputs ∧ t.out = s.out

/-- The step answered the status `OK` and nothing else (R221). -/
def State.RepliedOk (s t : State) : Prop := t.replies = s.replies ++ [.status .ok]

/-- From `s` to `t` the register at position `d` took the value `v`, nothing else changed, and the status is `OK`
(R113). -/
def State.WroteRegister (s t : State) (d : Nat) (v : Word) : Prop :=
  t.reg? d = some v ∧ s.RegsKept t [d] ∧ s.FlagsKept t ∧ s.MemKept t ∧ s.OthersKept t ∧ s.RepliedOk t

/-- The outcome is a next state in which the register at position `d` took a value with property `P`, nothing else
changed, and the status is `OK`. -/
def State.Writes (s : State) (o : Result) (d : Nat) (P : Word → Prop) : Prop :=
  ∃ t v, o = .next t ∧ s.WroteRegister t d v ∧ P v

/-- Host writes of consecutive bytes from an address on, one `write` each (`20_memory.md` R52, R56). -/
def hostWrites (address : Int) : List Byte → State → Result
  | [], s => .next s
  | b :: bs, s =>
    match portWrite address b s with
    | .next t => hostWrites (address + 1) bs t
    | .fault f => .fault f
    | .refused r => .refused r

/-- The error of a descriptor in a destination position (`30_encoding.md` R94 (3)), if it has one. -/
def destError (cfg : Config) : Operand → Option ErrorKind
  | .reg k => if k < cfg.regNames.length then none else some .unknownRegister
  | .imm _ => some .invalidDestination
  | .bad _ _ => some .unknownOperand

/-- The error of a descriptor in a source position (`30_encoding.md` R94 (3)), if it has one. -/
def sourceError (cfg : Config) : Operand → Option ErrorKind
  | .reg k => if k < cfg.regNames.length then none else some .unknownRegister
  | .imm _ => none
  | .bad _ _ => some .unknownOperand

/-- The first error of an instruction's descriptors in their order (`30_encoding.md` R94 (3), `60_exceptions.md`
R223), if there is one. -/
def firstError (cfg : Config) (i : Instr) : Option ErrorKind :=
  ((i.dest?.bind (destError cfg)).toList ++ i.sources.filterMap (sourceError cfg)).head?

/-- The destination operands an instruction reads: those of the two-operand ALU forms, the shifts and the unary
forms (`30_encoding.md` R85, "read and written"). -/
def readDests : Instr → List Operand
  | .mov _ _ => []
  | .add2 d _ => [d]
  | .add3 _ _ _ => []
  | .sub2 d _ => [d]
  | .sub3 _ _ _ => []
  | .and2 d _ => [d]
  | .and3 _ _ _ => []
  | .or2 d _ => [d]
  | .or3 _ _ _ => []
  | .xor2 d _ => [d]
  | .xor3 _ _ _ => []
  | .mul2 d _ => [d]
  | .mul3 _ _ _ => []
  | .div2 d _ => [d]
  | .div3 _ _ _ => []
  | .neg d => [d]
  | .bitNot d => [d]
  | .lsl d _ => [d]
  | .lsr d _ => [d]
  | .cmp _ _ => []
  | .push _ => []
  | .pop _ => []
  | .rdump => []

end Sys2Proof.Machine
end

