-- ==== Sys2Proof/Certificates/Slice0/Obligations.lean ====
section
/-! DEFINITION. The statements for the provers. Each docstring names the rules of `spec/` it rests on; hypotheses
are on states and operands alone. -/

open Sys2Proof Sys2Proof.Machine

/-- Construction from a valid configuration gives the reset state of R262 (R261, R262, R31). -/
def Obligations.ConstructionGivesTheResetState : Prop :=
  ∀ cfg : Config, cfg.Valid → ∃ s : State, State.construct cfg = .next s ∧ s.cfg = cfg ∧
    (∀ n ∈ cfg.regNames, n ≠ rspName → n ≠ ssName →
      s.named? n = match cfg.regReset with | .zero => some 0 | .unwritten => none) ∧
    s.named? rspName = some (wrap64 cfg.memSize) ∧
    s.named? ssName = some (wrap64 ((cfg.memSize : Int) - cfg.stackSize)) ∧
    (∀ f, s.flag f = false) ∧ (∀ a, s.mem.readByte a = 0) ∧ s.out = []

/-- No instance exists for an invalid configuration (70_reset_and_hazards.md R263, 00_scope.md R7). The clause on
DUMP_ORDER is the model's reading of R7, log entry 8 (DEDUCED): R263 does not repeat it. -/
def Obligations.InvalidConfigurationIsRefused : Prop :=
  ∀ cfg : Config,
    ((¬ cfg.regNames.Nodup ∨ rspName ∉ cfg.regNames ∨ ssName ∉ cfg.regNames ∨ [] ∈ cfg.regNames ∨
        cfg.memSize < 1 ∨ 2 ^ 63 - 1 < cfg.memSize ∨ cfg.memSize < cfg.stackSize ∨ ¬ cfg.dumpOrder.Perm cfg.regNames) →
      State.construct cfg = .refused .invalidConfiguration) ∧
    (cfg.regNames.Nodup ∧ rspName ∈ cfg.regNames ∧ ssName ∈ cfg.regNames ∧ [] ∉ cfg.regNames ∧
        1 ≤ cfg.memSize ∧ cfg.memSize ≤ 2 ^ 63 - 1 ∧ cfg.stackSize ≤ cfg.memSize ∧ cfg.dumpOrder.Perm cfg.regNames →
      ∃ s, State.construct cfg = .next s)

/-- The reset states of ZERO_CFG and TEST_CFG (70_reset_and_hazards.md section 1, 00_scope.md R8, 10_state.md R22).
That nothing is pending at reset is the model's own queue, log entry 2, and that State.reset stands for ZERO_CFG,
with the policy Continue, is log entry 13 (both DESIGN CHOICE). -/
def Obligations.ResetStatesOfTheNamedConfigurations : Prop :=
  State.reset.regs.length = 78 ∧ State.reset.named? rspName = some 0x0FFFFF ∧ State.reset.named? ssName = some 0 ∧
    State.reset.named? "RAX".toList = some 0 ∧ State.reset.named? "XMM15".toList = some 0 ∧ State.reset.inputs = [] ∧
    (State.resetWith testCfg).named? rspName = some 0x100 ∧ (State.resetWith testCfg).named? ssName = some 0xE0

/-- The reset state of every valid configuration meets the invariant (70_reset_and_hazards.md section 1, 10_state.md
section 1). -/
def Obligations.ResetMeetsTheInvariant : Prop :=
  (∀ cfg : Config, cfg.Valid → (State.resetWith cfg).Inv) ∧ State.reset.Inv

/-- Every step keeps the invariant of the block (10_state.md R20, 10_state.md R27, 20_memory.md R50, 40_execution.md
R113). -/
def Obligations.StepKeepsTheInvariant : Prop :=
  ∀ s t : State, s.Inv → step s = .next t → t.Inv

/-- No step changes the configuration (00_scope.md R7, 10_state.md R40). -/
def Obligations.ConfigurationNeverChanges : Prop :=
  ∀ s t : State, step s = .next t → t.cfg = s.cfg

/-- A step runs the instruction its request decodes to (30_encoding.md R93, 30_encoding.md R94,
70_reset_and_hazards.md R275). Serving the first entry of State.inputs, and withFetchWord, are the model's choice,
log entry 2; so is the feeder after a command as after a line, log entry 5 (R276 speaks of lines). -/
def Obligations.StepRunsTheDecodedInstruction : Prop :=
  (∀ (s : State) (bytes : List Byte) (rest : List Request) (i : Instr),
      s.inputs = .command bytes :: rest → decodeCommand bytes = .ok i →
      step s = feedAfter (exec i { s with inputs := rest })) ∧
    (∀ (s : State) (line : Text) (rest : List Request) (i : Instr),
      s.inputs = .line line :: rest → decodeLine s.cfg line = .ok i →
      step s = feedAfter (exec i { s with inputs := rest })) ∧
    (∀ (s : State) (r : Request) (rest : List Request), s.inputs = r :: rest →
      (∀ line, r = .line line → step s = feedAfter (stepLine line { s with inputs := rest })) ∧
      (∀ bytes, r = .command bytes → step s = feedAfter (stepCommand bytes { s with inputs := rest })) ∧
      (∀ n, r = .get n → step s = portGet n { s with inputs := rest }) ∧
      (∀ n v, r = .set n v → step s = portSet n v { s with inputs := rest }) ∧
      (∀ f, r = .getFlag f → step s = portGetFlag f { s with inputs := rest }) ∧
      (∀ f b, r = .setFlag f b → step s = portSetFlag f b { s with inputs := rest }) ∧
      (r = .dump → step s = portDump { s with inputs := rest }) ∧
      (∀ a, r = .read a → step s = portRead a { s with inputs := rest }) ∧
      (∀ a b, r = .write a b → step s = portWrite a b { s with inputs := rest })) ∧
    (∀ (s : State) (i : Instr), s.cfg.feederPolicy = .continueRun → feedAfter (exec i s) = exec i s) ∧
    (∀ (s : State) (nbits w : Nat) (i : Instr), decodeTableWord nbits w = some i →
      step (s.withFetchWord nbits w) = feedAfter (exec i s))

/-- With nothing asked the block keeps its state (60_exceptions.md R245). That an empty queue is what being idle
means is the model's choice, log entry 2. -/
def Obligations.IdleBlockKeepsItsState : Prop :=
  ∀ s : State, s.inputs = [] → step s = .next s

/-- The step of a line as R111 writes it is decoding the line and executing the command (30_encoding.md R93,
40_execution.md R111). -/
def Obligations.LineStepIsDecodeThenExec : Prop :=
  ∀ (line : Text) (s : State), textStep line s = stepLine line s

/-- Where every register holds a value, every instruction answers a next state (60_exceptions.md R222,
40_execution.md R110, 70_reset_and_hazards.md R272). -/
def Obligations.EveryInstructionAnswers : Prop :=
  ∀ (s : State) (i : Instr), s.Inv → s.AllWritten →
    ∃ (t : State) (st : Status), exec i s = .next t ∧ t.replies = s.replies ++ [.status st]

/-- An instruction stops only where some register holds no value (40_execution.md R115, 10_state.md R27). -/
def Obligations.InstructionsStopOnlyOnUnwrittenReads : Prop :=
  ∀ (s : State) (i : Instr), s.Inv →
    (∀ r, exec i s ≠ .refused r) ∧
    (∀ f, exec i s = .fault f → f = .readUnwritten ∧ s.cfg.regReset = .unwritten ∧ none ∈ s.regs)

/-- Reading a register that holds no value is the model fault ReadUnwritten (10_state.md R27, 40_execution.md R115,
10_state.md R33). -/
def Obligations.ReadingARegisterWithNoValueFaults : Prop :=
  ∀ s : State, s.Inv →
    (∀ i, firstError s.cfg i = none → (∃ o ∈ readDests i ++ i.sources, s.source? o = none) →
      exec i s = .fault .readUnwritten) ∧
    (∀ n ∈ s.cfg.regNames, s.named? n = none → portGet n s = .fault .readUnwritten)

/-- A step that raises changes nothing (R112, R224). -/
def Obligations.ErrorsLeaveNoTrace : Prop :=
  ∀ (s t : State) (o : Result) (e : ErrorKind),
    ((∃ i, o = exec i s) ∨ (∃ line, o = stepLine line s) ∨ (∃ bytes, o = stepCommand bytes s)) →
    o = .next t → t.replies.getLast? = some (.status (.error e)) →
    t = { s with replies := s.replies ++ [.status (.error e)] }

/-- An instruction writes no register but its destination and, for PUSH and POP, RSP (40_execution.md R113,
10_state.md R21, 20_memory.md R54). -/
def Obligations.InstructionsWriteOnlyTheirOwnState : Prop :=
  ∀ (i : Instr) (s t : State), exec i s = .next t →
    (∀ k, (∀ d, i.dest? = some d → s.dest? d ≠ some k) →
      (((∃ a, i = .push a) ∨ (∃ d, i = .pop d)) → s.cfg.position? rspName ≠ some k) → t.reg? k = s.reg? k) ∧
    t.cfg = s.cfg ∧ t.inputs = s.inputs ∧ (i ≠ .rdump → t.out = s.out)

/-- Of all instructions only CMP writes flags, and exactly Z and N (R29). -/
def Obligations.OnlyCmpWritesFlags : Prop :=
  (∀ (i : Instr) (s t : State), exec i s = .next t →
      ((∀ a b, i ≠ .cmp a b) → s.FlagsKept t) ∧ (∀ f, f ≠ zName → f ≠ nName → t.flag f = s.flag f) ∧
      (∀ a b, i = .cmp a b → s.RepliedOk t → ∃ x y, s.source? a = some x ∧ s.source? b = some y ∧
        t.flag zName = decide (x = y) ∧ t.flag nName = decide (x.toInt < y.toInt))) ∧
    (∀ (r : Request) (u v : State), serve r u = .next v → (∀ f b, r ≠ .setFlag f b) →
      ∀ f, f ≠ zName → f ≠ nName → v.flag f = u.flag f)

/-- No instruction but PUSH changes a byte of memory (20_memory.md R54, 46_stack.md R197). -/
def Obligations.OnlyPushStores : Prop :=
  ∀ (i : Instr) (s t : State), exec i s = .next t → (∀ a, i ≠ .push a) → s.MemKept t

/-- No instruction reads a flag, the output channel, the replies or the pending requests (10_state.md R30,
10_state.md R41, 40_execution.md R110). -/
def Obligations.FlagsAndOutputAreReadByNoInstruction : Prop :=
  ∀ (i : Instr) (s s' t : State), s'.cfg = s.cfg → s'.regs = s.regs → s'.mem = s.mem → exec i s = .next t →
    ∃ t', exec i s' = .next t' ∧ t'.regs = t.regs ∧ t'.mem = t.mem ∧
      (∃ text, t.out = s.out ++ text ∧ t'.out = s'.out ++ text) ∧
      (∃ st : Status, t.replies = s.replies ++ [.status st] ∧ t'.replies = s'.replies ++ [.status st])

/-- No instruction but POP depends on the contents of memory (20_memory.md R54, 46_stack.md R192). -/
def Obligations.OnlyPopReadsMemory : Prop :=
  ∀ (i : Instr) (s t : State) (m : Memory), (∀ d, i ≠ .pop d) → exec i s = .next t →
    ∃ t', exec i (s.withMem m) = .next t' ∧ t'.regs = t.regs ∧ t'.flags = t.flags ∧ t'.out = t.out ∧ t'.replies = t.replies

/-- A command is checked in the order of R94 (R94). -/
def Obligations.CommandChecksInOrder : Prop :=
  (∀ (h : Byte) (rest : List Byte) (s : State), rest.length = 9 * (h.toNat / 16 % 4) → h.toNat / 64 ≠ 0 →
      stepCommand (h :: rest) s = s.raise .unknownInstruction) ∧
    (∀ (h : Byte) (rest : List Byte) (s : State) (o : Opcode), rest.length = 9 * (h.toNat / 16 % 4) →
      h.toNat / 64 = 0 → o.tag.toNat = h.toNat % 16 → h.toNat / 16 % 4 ∉ o.arities →
      stepCommand (h :: rest) s = s.raise .arityMismatch) ∧
    (∀ (i : Instr) (s : State) (e : ErrorKind), firstError s.cfg i = some e → exec i s = s.raise e) ∧
    (∀ (bytes : List Byte) (s : State) (i : Instr), decodeCommand bytes = .ok i → stepCommand bytes s = exec i s) ∧
    (∀ (i : Instr) (s : State) (e : ErrorKind), firstError s.cfg i = none → exec i s = s.raise e →
      e ∈ [ErrorKind.divisionByZero, .stackOverflow, .stackUnderflow, .outOfBounds])

/-- A line's errors are reported in the order of the stages (40_execution.md R111, 60_exceptions.md R223,
30_encoding.md R73, 30_encoding.md R85, 30_encoding.md R86, 30_encoding.md R80). -/
def Obligations.LineErrorsInStageOrder : Prop :=
  ∀ (line : Text) (s : State),
    (tokens line = [] → stepLine line s = s.raise .malformedInstruction) ∧
    ∀ (op : Text) (ops : List Text), tokens line = op :: ops →
      ((∀ o : Opcode, o.mnemonic ≠ upper op) → stepLine line s = s.raise .unknownInstruction) ∧
      ∀ o : Opcode, o.mnemonic = upper op →
        (ops.length ∉ o.arities → stepLine line s = s.raise .arityMismatch) ∧
        (ops.length ∈ o.arities →
          (∀ d rest, ops = d :: rest → o.hasDest = true →
            (tokenClass d = .regName → d ∉ s.cfg.regNames → stepLine line s = s.raise .unknownRegister) ∧
            (tokenClass d ≠ .regName → stepLine line s = s.raise .invalidDestination)) ∧
          (∀ pre b post,
            (o.hasDest = false ∧ ops = pre ++ b :: post ∨
              o.hasDest = true ∧ ∃ d, tokenClass d = .regName ∧ d ∈ s.cfg.regNames ∧ ops = d :: (pre ++ b :: post)) →
            (∀ p ∈ pre, ∃ a, decodeSource s.cfg p = .ok a) →
            (tokenClass b = .other → stepLine line s = s.raise .unknownOperand) ∧
            (tokenClass b = .regName → b ∉ s.cfg.regNames → stepLine line s = s.raise .unknownRegister) ∧
            (tokenClass b = .hex → 2 ^ 64 ≤ digitsValue 16 (b.drop 2) → stepLine line s = s.raise .unknownOperand) ∧
            (tokenClass b = .dec → s.cfg.decMax.value < digitsValue 10 b → stepLine line s = s.raise .unknownOperand)))

/-- Commas are deleted and tokens are the maximal runs of non-whitespace (R71, R72). -/
def Obligations.TokenRules : Prop :=
  (∀ line : Text, tokens (line.filter (fun c => c != ',')) = tokens line) ∧ tokens [] = [] ∧
    (∀ (c : Char) (line : Text), c ∈ [' ', '\t', '\n', Char.ofNat 0x0B, Char.ofNat 0x0C, '\r'] →
      tokens (c :: line) = tokens line) ∧
    (∀ run : Text, run ≠ [] → (∀ c ∈ run, c ∉ [' ', '\t', '\n', Char.ofNat 0x0B, Char.ofNat 0x0C, '\r', ',']) →
      tokens run = [run] ∧
      ∀ (c : Char) (line : Text), c ∈ [' ', '\t', '\n', Char.ofNat 0x0B, Char.ofNat 0x0C, '\r'] →
        tokens (run ++ c :: line) = run :: tokens line)

/-- The opcode token may be written in either case (30_encoding.md R74, 30_encoding.md R75). -/
def Obligations.OpcodeTokenIsCaseInsensitive : Prop :=
  ∀ (cfg : Config) (op line : Text), (∀ c ∈ op, isWhitespace c = false) →
    decodeLine cfg (upper op ++ ' ' :: line) = decodeLine cfg (op ++ ' ' :: line)

/-- The class of a token is the pattern it matches, and no token matches two (R78). -/
def Obligations.TokenClassesAreThePatterns : Prop :=
  ∀ t : Text,
    (tokenClass t = .hex ↔ ∃ ds, ds ≠ [] ∧ (∀ c ∈ ds, c ∈ "0123456789ABCDEFabcdef".toList) ∧ t = '0' :: 'x' :: ds) ∧
    (tokenClass t = .dec ↔ t ≠ [] ∧ ∀ c ∈ t, c ∈ "0123456789".toList) ∧
    (tokenClass t = .flt ↔ ∃ a b, a ≠ [] ∧ b ≠ [] ∧ (∀ c ∈ a ++ b, c ∈ "0123456789".toList) ∧ t = a ++ '.' :: b) ∧
    (tokenClass t = .regName ↔ ∃ a b, a ≠ [] ∧ (∀ c ∈ a, c ∈ "ABCDEFGHIJKLMNOPQRSTUVWXYZ".toList) ∧
      (∀ c ∈ b, c ∈ "0123456789".toList) ∧ t = a ++ b) ∧
    (tokenClass t = .other ↔ tokenClass t ≠ .hex ∧ tokenClass t ≠ .dec ∧ tokenClass t ≠ .flt ∧ tokenClass t ≠ .regName)

/-- A hex or decimal literal denotes the number its digits write, refused when out of range (R79, R82). -/
def Obligations.HexAndDecimalLiterals : Prop :=
  (∀ (cfg : Config) (ds : Text), ds ≠ [] → (∀ c ∈ ds, c ∈ "0123456789ABCDEFabcdef".toList) →
      decodeSource cfg ('0' :: 'x' :: ds) =
        if Nat.ofDigits 16 (ds.reverse.map digitValue) < 2 ^ 64 then
          .ok (.imm (BitVec.ofNat 64 (Nat.ofDigits 16 (ds.reverse.map digitValue))))
        else .error (.raised .unknownOperand)) ∧
    (∀ (cfg : Config) (ds : Text), ds ≠ [] → (∀ c ∈ ds, c ∈ "0123456789".toList) →
      decodeSource cfg ds =
        if Nat.ofDigits 10 (ds.reverse.map digitValue) ≤ cfg.decMax.value then
          .ok (.imm (BitVec.ofNat 64 (Nat.ofDigits 10 (ds.reverse.map digitValue))))
        else .error (.raised .unknownOperand)) ∧
    (∀ t : Text, tokenClass ('-' :: t) = .other) ∧
    "0123456789ABCDEF".toList.map digitValue = List.range 16 ∧ "0123456789abcdef".toList.map digitValue = List.range 16

/-- A float literal's number is rounded to the nearest binary64 value, ties to even (30_encoding.md R83,
93_implementation_defined.md G3). The rounding and the format are the standard's, log entry 10 (PRESUMED, as G3 is). -/
def Obligations.FloatRoundingIsNearestEven : Prop :=
  ∀ num den : Nat, 0 < den →
    (roundBinary64 num den = .inf ↔ (2 ^ 54 - 1) * 2 ^ 970 * den ≤ num) ∧
    ∀ m e, roundBinary64 num den = .finite m e →
      m < 2 ^ 53 ∧ e ≤ 2045 ∧ (e ≠ 0 → 2 ^ 52 ≤ m) ∧
      ∀ m' e' : Nat, m' < 2 ^ 53 → e' ≤ 2045 →
        |((m * 2 ^ e * den : Nat) : Int) - (num * 2 ^ 1074 : Nat)| ≤
          |((m' * 2 ^ e' * den : Nat) : Int) - (num * 2 ^ 1074 : Nat)| ∧
        (|((m * 2 ^ e * den : Nat) : Int) - (num * 2 ^ 1074 : Nat)| =
          |((m' * 2 ^ e' * den : Nat) : Int) - (num * 2 ^ 1074 : Nat)| → m * 2 ^ e ≠ m' * 2 ^ e' → m % 2 = 0)

/-- A float literal becomes the bits or the integer part of its rounded value (30_encoding.md R83, 40_execution.md
R115, 93_implementation_defined.md I12). The bit patterns are the standard's, log entry 10 (PRESUMED, as G3 is). -/
def Obligations.FloatLiteralsInBothModes : Prop :=
  ∀ (cfg : Config) (a b : Text), a ≠ [] → b ≠ [] → (∀ c ∈ a ++ b, c ∈ "0123456789".toList) →
    let d := roundBinary64 (Nat.ofDigits 10 ((a ++ b).reverse.map digitValue)) (10 ^ b.length)
    (cfg.floatMode = .rawBits → ∃ w : Word, decodeSource cfg (a ++ '.' :: b) = .ok (.imm w) ∧
      (d = .inf → w = 0x7FF0000000000000) ∧
      (∀ m e, d = .finite m e → m < 2 ^ 52 → w.toNat = m) ∧
      (∀ m e, d = .finite m e → 2 ^ 52 ≤ m →
        w.toNat < 2 ^ 63 ∧ w.toNat / 2 ^ 52 = e + 1 ∧ w.toNat % 2 ^ 52 = m - 2 ^ 52)) ∧
    (cfg.floatMode = .truncate →
      (d = .inf → decodeSource cfg (a ++ '.' :: b) = .error .floatOutOfRange) ∧
      (∀ m e, d = .finite m e → 2 ^ 63 ≤ m * 2 ^ e / 2 ^ 1074 → decodeSource cfg (a ++ '.' :: b) = .error .floatOutOfRange) ∧
      (∀ m e, d = .finite m e → m * 2 ^ e / 2 ^ 1074 < 2 ^ 63 →
        decodeSource cfg (a ++ '.' :: b) = .ok (.imm (BitVec.ofNat 64 (m * 2 ^ e / 2 ^ 1074)))))

/-- A line decodes only to a well-formed instruction (30_encoding.md R93, 30_encoding.md R86, 30_encoding.md R81). -/
def Obligations.DecodedLinesAreWellFormed : Prop :=
  ∀ (cfg : Config) (line : Text) (i : Instr), decodeLine cfg line = .ok i → WellFormed cfg i = true

/-- Decoding the assembler line of a well-formed instruction gives it back (30_encoding.md R88, 30_encoding.md R93,
10_state.md R23). -/
def Obligations.RenderedLinesDecodeBack : Prop :=
  ∀ (cfg : Config) (i : Instr), cfg.regNames.Nodup → WellFormed cfg i = true →
    (∀ k, .reg k ∈ i.operands → tokenClass (cfg.regNames.getD k []) = .regName) →
    decodeLine cfg (renderLine cfg i) = .ok i

/-- Decoding an encoded instruction gives it back (R92). -/
def Obligations.CommandsDecodeBack : Prop :=
  (∀ i : Instr, i.fits = true →
    decodeCommand (encode i) = .ok i ∧ (encode i).length = 1 + 9 * i.operands.length ∧
    ∃ h, encode i = h :: i.operands.flatMap encodeOperand ∧ h.toNat = i.operands.length * 16 + i.opcode.tag.toNat) ∧
    (∀ v : Word, encodeOperand (.imm v) = 0x00 :: (List.range 8).map (fun j => v.extractLsb' (8 * j) 8)) ∧
    (∀ k : Nat, encodeOperand (.reg k) = 0x01 :: (List.range 8).map (fun j => BitVec.ofNat 8 (k / 256 ^ j)))

/-- The bytes that decode to an instruction are its encoding (30_encoding.md R90, 30_encoding.md R92). -/
def Obligations.CommandBytesHaveOneMeaning : Prop :=
  ∀ (bytes : List Byte) (i : Instr), decodeCommand bytes = .ok i → encode i = bytes ∧ i.fits = true

/-- The valid headers are exactly the 23 of the opcode table (30_encoding.md R90, 30_encoding.md R91,
opcode_table.json). -/
def Obligations.ValidHeadersAreTheTables : Prop :=
  (∀ d a b : Operand,
      [Instr.mov d a, .add2 d a, .add3 d a b, .sub2 d a, .sub3 d a b, .and2 d a, .and3 d a b, .or2 d a, .or3 d a b,
        .xor2 d a, .xor3 d a b, .mul2 d a, .mul3 d a b, .div2 d a, .div3 d a b, .neg d, .bitNot d, .lsl d a, .lsr d a,
        .cmp a b, .push a, .pop d, .rdump].map (fun i => (encode i).headD 0) =
      [0x20, 0x21, 0x31, 0x22, 0x32, 0x23, 0x33, 0x24, 0x34, 0x25, 0x35, 0x26, 0x36, 0x27, 0x37, 0x18, 0x19, 0x2A, 0x2B,
        0x2C, 0x1D, 0x1E, 0x0F]) ∧
    (∀ (h : Byte) (rest : List Byte) (i : Instr), decodeCommand (h :: rest) = .ok i →
      h ∈ [(0x20 : Byte), 0x21, 0x31, 0x22, 0x32, 0x23, 0x33, 0x24, 0x34, 0x25, 0x35, 0x26, 0x36, 0x27, 0x37, 0x18, 0x19,
        0x2A, 0x2B, 0x2C, 0x1D, 0x1E, 0x0F])

/-- Command bytes of the spec's programs decode to their instructions (95_test_vectors.md section 4, 30_encoding.md
R92). -/
def Obligations.SampleCommandsDecode : Prop :=
  decodeCommand [0x20, 1, 1, 0, 0, 0, 0, 0, 0, 0, 0, 0x0A, 0, 0, 0, 0, 0, 0, 0] = .ok (.mov (.reg 1) (.imm 10)) ∧
    decodeCommand [0x31, 1, 0x18, 0, 0, 0, 0, 0, 0, 0, 1, 0x10, 0, 0, 0, 0, 0, 0, 0, 1, 0x28, 0, 0, 0, 0, 0, 0, 0] =
      .ok (.add3 (.reg 24) (.reg 16) (.reg 40)) ∧
    decodeCommand [0x18, 1, 4, 0, 0, 0, 0, 0, 0, 0] = .ok (.neg (.reg 4)) ∧
    decodeCommand [0x2A, 1, 1, 0, 0, 0, 0, 0, 0, 0, 0, 0x41, 0, 0, 0, 0, 0, 0, 0] = .ok (.lsl (.reg 1) (.imm 65)) ∧
    decodeCommand [0x2C, 1, 4, 0, 0, 0, 0, 0, 0, 0, 1, 2, 0, 0, 0, 0, 0, 0, 0] = .ok (.cmp (.reg 4) (.reg 2)) ∧
    decodeCommand [0x1D, 0, 0x88, 0x77, 0x66, 0x55, 0x44, 0x33, 0x22, 0x11] = .ok (.push (.imm 0x1122334455667788)) ∧
    decodeCommand [0x1E, 1, 0x35, 0, 0, 0, 0, 0, 0, 0] = .ok (.pop (.reg 53)) ∧ decodeCommand [0x0F] = .ok .rdump

/-- MOV copies its source into its destination (R130). -/
def Obligations.MovCopiesItsSource : Prop :=
  ∀ (s : State) (dest src : Operand) (d : Nat) (y : Word), s.Inv → s.dest? dest = some d → s.source? src = some y →
    s.Writes (exec (.mov dest src) s) d (fun v => v = y)

/-- ADD writes the sum modulo 2^64 (R141). -/
def Obligations.AddWrapsTheSum : Prop :=
  ∀ (s : State) (dest a b : Operand) (d : Nat) (x y : Word), s.Inv → s.dest? dest = some d →
    (s.reg? d = some x → s.source? b = some y →
      s.Writes (exec (.add2 dest b) s) d (fun v => v.toNat = (x.toNat + y.toNat) % 2 ^ 64)) ∧
    (s.source? a = some x → s.source? b = some y →
      s.Writes (exec (.add3 dest a b) s) d (fun v => v.toNat = (x.toNat + y.toNat) % 2 ^ 64))

/-- SUB writes the difference modulo 2^64, the second operand from the first (R142). -/
def Obligations.SubWrapsTheDifference : Prop :=
  ∀ (s : State) (dest a b : Operand) (d : Nat) (x y : Word), s.Inv → s.dest? dest = some d →
    (s.reg? d = some x → s.source? b = some y →
      s.Writes (exec (.sub2 dest b) s) d (fun v => (v.toNat : Int) = ((x.toNat : Int) - y.toNat) % 2 ^ 64)) ∧
    (s.source? a = some x → s.source? b = some y →
      s.Writes (exec (.sub3 dest a b) s) d (fun v => (v.toNat : Int) = ((x.toNat : Int) - y.toNat) % 2 ^ 64))

/-- AND is bitwise conjunction (R143). -/
def Obligations.AndIsBitwise : Prop :=
  ∀ (s : State) (dest a b : Operand) (d : Nat) (x y : Word), s.Inv → s.dest? dest = some d →
    (s.reg? d = some x → s.source? b = some y →
      s.Writes (exec (.and2 dest b) s) d (fun v => ∀ j < 64, v.getLsbD j = (x.getLsbD j && y.getLsbD j))) ∧
    (s.source? a = some x → s.source? b = some y →
      s.Writes (exec (.and3 dest a b) s) d (fun v => ∀ j < 64, v.getLsbD j = (x.getLsbD j && y.getLsbD j)))

/-- OR is bitwise disjunction (R144). -/
def Obligations.OrIsBitwise : Prop :=
  ∀ (s : State) (dest a b : Operand) (d : Nat) (x y : Word), s.Inv → s.dest? dest = some d →
    (s.reg? d = some x → s.source? b = some y →
      s.Writes (exec (.or2 dest b) s) d (fun v => ∀ j < 64, v.getLsbD j = (x.getLsbD j || y.getLsbD j))) ∧
    (s.source? a = some x → s.source? b = some y →
      s.Writes (exec (.or3 dest a b) s) d (fun v => ∀ j < 64, v.getLsbD j = (x.getLsbD j || y.getLsbD j)))

/-- XOR is bitwise exclusive or (R145). -/
def Obligations.XorIsBitwise : Prop :=
  ∀ (s : State) (dest a b : Operand) (d : Nat) (x y : Word), s.Inv → s.dest? dest = some d →
    (s.reg? d = some x → s.source? b = some y →
      s.Writes (exec (.xor2 dest b) s) d (fun v => ∀ j < 64, v.getLsbD j = (x.getLsbD j != y.getLsbD j))) ∧
    (s.source? a = some x → s.source? b = some y →
      s.Writes (exec (.xor3 dest a b) s) d (fun v => ∀ j < 64, v.getLsbD j = (x.getLsbD j != y.getLsbD j)))

/-- MUL keeps the low 64 bits of the product, signed or unsigned (42_arith_logic.md R146). -/
def Obligations.MulKeepsTheLowHalf : Prop :=
  ∀ (s : State) (dest a b : Operand) (d : Nat) (x y : Word), s.Inv → s.dest? dest = some d →
    (s.reg? d = some x → s.source? b = some y →
      s.Writes (exec (.mul2 dest b) s) d (fun v => v.toNat = (x.toNat * y.toNat) % 2 ^ 64 ∧ (v.toNat : Int) = (x.toInt * y.toInt) % 2 ^ 64)) ∧
    (s.source? a = some x → s.source? b = some y →
      s.Writes (exec (.mul3 dest a b) s) d (fun v => v.toNat = (x.toNat * y.toNat) % 2 ^ 64 ∧ (v.toNat : Int) = (x.toInt * y.toInt) % 2 ^ 64))

/-- DIV divides signed, rounding toward zero, and raises DivisionByZero for a zero divisor (R147). -/
def Obligations.DivRoundsTowardZero : Prop :=
  ∀ (s : State) (dest a b : Operand) (d : Nat) (x y : Word), s.Inv → s.dest? dest = some d →
    (s.reg? d = some x → s.source? b = some y →
      (y ≠ 0 → s.Writes (exec (.div2 dest b) s) d (fun v => (x.toInt = -(2 ^ 63) ∧ y.toInt = -1 → v = x) ∧
        (¬ (x.toInt = -(2 ^ 63) ∧ y.toInt = -1) → v.toInt = x.toInt.tdiv y.toInt))) ∧
      (y = 0 → exec (.div2 dest b) s = s.raise .divisionByZero)) ∧
    (s.source? a = some x → s.source? b = some y →
      (y ≠ 0 → s.Writes (exec (.div3 dest a b) s) d (fun v => (x.toInt = -(2 ^ 63) ∧ y.toInt = -1 → v = x) ∧
        (¬ (x.toInt = -(2 ^ 63) ∧ y.toInt = -1) → v.toInt = x.toInt.tdiv y.toInt))) ∧
      (y = 0 → exec (.div3 dest a b) s = s.raise .divisionByZero))

/-- NEG negates in two's complement and NOT complements every bit, in place (R160, R161). -/
def Obligations.NegAndNotInPlace : Prop :=
  ∀ (s : State) (dest : Operand) (d : Nat) (x : Word), s.Inv → s.dest? dest = some d → s.reg? d = some x →
    s.Writes (exec (.neg dest) s) d (fun v => (x.toNat + v.toNat) % 2 ^ 64 = 0) ∧
    s.Writes (exec (.bitNot dest) s) d (fun v => ∀ j < 64, v.getLsbD j = !x.getLsbD j)

/-- LSL and LSR shift by the low six bits of the amount, filling with zeros (R170, R171, R172). -/
def Obligations.ShiftsTakeTheAmountModulo64 : Prop :=
  ∀ (s : State) (dest amount : Operand) (d : Nat) (x y : Word), s.Inv → s.dest? dest = some d → s.reg? d = some x →
    s.source? amount = some y →
    s.Writes (exec (.lsl dest amount) s) d
      (fun v => ∀ j < 64, v.getLsbD j = (decide (y.toNat % 64 ≤ j) && x.getLsbD (j - y.toNat % 64))) ∧
    s.Writes (exec (.lsr dest amount) s) d (fun v => ∀ j < 64, v.getLsbD j = x.getLsbD (j + y.toNat % 64))

/-- CMP sets Z to equality and N to signed less-than, and changes nothing else (R180). -/
def Obligations.CmpSetsZAndN : Prop :=
  ∀ (s : State) (a b : Operand) (x y : Word), s.source? a = some x → s.source? b = some y →
    ∃ t, exec (.cmp a b) s = .next t ∧ t.flag zName = decide (x = y) ∧ t.flag nName = decide (x.toInt < y.toInt) ∧
      (∀ f, f ≠ zName → f ≠ nName → t.flag f = s.flag f) ∧
      s.RegsKept t [] ∧ s.MemKept t ∧ s.OthersKept t ∧ s.RepliedOk t

/-- PUSH stores its value in the 8 bytes below RSP and lowers RSP by 8, after the base check and the range check
(R192, R193). -/
def Obligations.PushStoresBelowThePointer : Prop :=
  ∀ (s : State) (a : Operand), s.Inv → (∀ e, sourceError s.cfg a = some e → exec (.push a) s = s.raise e) ∧
    ∀ v p base : Word, s.source? a = some v → s.named? rspName = some p → s.named? ssName = some base →
    ((p.toNat : Int) - 8 < base.toNat → exec (.push a) s = s.raise .stackOverflow) ∧
    ((base.toNat : Int) ≤ (p.toNat : Int) - 8 → s.cfg.memSize < p.toNat → exec (.push a) s = s.raise .outOfBounds) ∧
    ((base.toNat : Int) ≤ (p.toNat : Int) - 8 → p.toNat ≤ s.cfg.memSize →
      ∃ t, exec (.push a) s = .next t ∧ (pushAddress p : Int) = (p.toNat : Int) - 8 ∧
        (∀ i < 8, t.mem.readByte (pushAddress p + i) = v.extractLsb' (8 * i) 8) ∧
        (∀ x, x < pushAddress p ∨ pushAddress p + 8 ≤ x → t.mem.readByte x = s.mem.readByte x) ∧
        (∃ q : Word, t.named? rspName = some q ∧ (q.toNat : Int) = (p.toNat : Int) - 8) ∧
        (∀ k, s.cfg.position? rspName ≠ some k → t.reg? k = s.reg? k) ∧
        s.FlagsKept t ∧ s.OthersKept t ∧ s.RepliedOk t)

/-- POP loads the 8 bytes at RSP into its destination and raises RSP by 8 (R197). -/
def Obligations.PopLoadsAtThePointer : Prop :=
  ∀ (s : State) (dest : Operand), s.Inv → (∀ e, destError s.cfg dest = some e → exec (.pop dest) s = s.raise e) ∧
    ∀ (d : Nat) (p : Word), s.dest? dest = some d → s.named? rspName = some p →
    (p.toNat + 8 ≤ s.cfg.memSize →
      ∃ t v, exec (.pop dest) s = .next t ∧ t.reg? d = some v ∧
        (∀ i < 8, v.extractLsb' (8 * i) 8 = s.mem.readByte (p.toNat + i)) ∧
        (s.cfg.position? rspName ≠ some d → ∃ q : Word, t.named? rspName = some q ∧ q.toNat = p.toNat + 8) ∧
        (∀ k, k ≠ d → s.cfg.position? rspName ≠ some k → t.reg? k = s.reg? k) ∧
        s.FlagsKept t ∧ s.MemKept t ∧ s.OthersKept t ∧ s.RepliedOk t) ∧
    (s.cfg.memSize < p.toNat + 8 → exec (.pop dest) s = s.raise .stackUnderflow)

/-- A PUSH followed by a POP into another register reproduces the value and restores RSP (46_stack.md R196). -/
def Obligations.PushThenPopRestores : Prop :=
  ∀ (s t : State) (a dest : Operand) (x : Word) (d : Nat), s.Inv → s.source? a = some x →
    exec (.push a) s = .next t → s.RepliedOk t → s.dest? dest = some d → s.cfg.position? rspName ≠ some d →
    ∃ u, exec (.pop dest) t = .next u ∧ t.RepliedOk u ∧ u.reg? d = some x ∧ u.named? rspName = s.named? rspName ∧ t.MemKept u

/-- PUSH RSP pushes the old pointer, PUSH SS the base; POP RSP and POP SS leave the popped value (R194, R199). -/
def Obligations.StackRegistersAsOperands : Prop :=
  ∀ (s t : State) (kp ks : Nat) (p base : Word), s.Inv → s.cfg.position? rspName = some kp →
    s.cfg.position? ssName = some ks → s.named? rspName = some p → s.named? ssName = some base → s.RepliedOk t →
    (exec (.push (.reg kp)) s = .next t → t.mem.readWord (pushAddress p) = p) ∧
    (exec (.push (.reg ks)) s = .next t → t.mem.readWord (pushAddress p) = base) ∧
    (∀ a, exec (.push a) s = .next t → t.named? ssName = some base) ∧
    (exec (.pop (.reg kp)) s = .next t → t.named? rspName = some (s.mem.readWord p.toNat)) ∧
    (exec (.pop (.reg ks)) s = .next t →
      t.named? ssName = some (s.mem.readWord p.toNat) ∧ t.named? rspName = some (p + 8))

/-- Software that moves RSP and SS by PUSH and POP alone keeps SS <= RSP <= MEM_SIZE (46_stack.md R190,
90_conflicts.md C3, 70_reset_and_hazards.md R264). -/
def Obligations.StackDisciplineIsKept : Prop :=
  (∀ cfg : Config, cfg.Valid → (State.resetWith cfg).StackDiscipline) ∧
    ∀ (i : Instr) (s t : State), s.Inv → s.StackDiscipline → exec i s = .next t →
      (∀ d k, i.dest? = some d → s.dest? d = some k →
        s.cfg.position? rspName ≠ some k ∧ s.cfg.position? ssName ≠ some k) →
      t.StackDiscipline

/-- RDUMP emits one line a register in the dump order and changes nothing else (R210, R37). -/
def Obligations.RdumpEmitsEveryRegister : Prop :=
  ∀ s : State, s.Inv →
    (s.AllWritten → ∃ (t u : State) (lines : List Text), exec .rdump s = .next t ∧ portDump s = .next u ∧
      t.out = s.out ++ lines ∧ u.out = s.out ++ lines ∧ lines.length = s.cfg.regNames.length ∧ s.cfg.dumpOrder.Nodup ∧
      (∀ n, n ∈ s.cfg.dumpOrder ↔ n ∈ s.cfg.regNames) ∧
      (∀ (j : Nat) (n : Text), s.cfg.dumpOrder[j]? = some n →
        ∃ v, s.named? n = some v ∧ lines[j]? = some (dumpLine s.cfg.hexCase n v)) ∧
      s.RegsKept t [] ∧ s.FlagsKept t ∧ s.MemKept t ∧ t.cfg = s.cfg ∧ t.inputs = s.inputs ∧ s.RepliedOk t ∧
      s.RegsKept u [] ∧ s.FlagsKept u ∧ s.MemKept u ∧ u.cfg = s.cfg ∧ u.inputs = s.inputs) ∧
    (none ∈ s.regs → exec .rdump s = .fault .readUnwritten ∧ portDump s = .fault .readUnwritten)

/-- A dump line is the name, a colon, a space, sixteen hex digits and a line feed (R211). -/
def Obligations.DumpLineFormat : Prop :=
  ∀ (hexCase : HexCase) (name : Text) (v : Word), ∃ ds : Text,
    dumpLine hexCase name v = name ++ [':', ' '] ++ ds ++ [Char.ofNat 0x0A] ∧ ds.length = 16 ∧
    Nat.ofDigits 16 (ds.reverse.map digitValue) = v.toNat ∧
    (hexCase = .upper → ∀ c ∈ ds, c ∈ "0123456789ABCDEF".toList) ∧
    (hexCase = .lower → ∀ c ∈ ds, c ∈ "0123456789abcdef".toList)

/-- The register ports read and overwrite one register, and raise UnknownRegister for a name outside the set (R33,
R34). -/
def Obligations.RegisterPorts : Prop :=
  ∀ (s : State) (n : Text) (v : Word), s.Inv →
    (s.named? n = some v → portGet n s = .next (s.reply (.word v))) ∧
    (∀ k, s.cfg.position? n = some k → ∃ t, portSet n v s = .next t ∧ t.reg? k = some v ∧ s.RegsKept t [k] ∧
      s.FlagsKept t ∧ s.MemKept t ∧ s.OthersKept t) ∧
    (n ∈ s.cfg.regNames ↔ ∃ k, s.cfg.position? n = some k) ∧
    (n ∉ s.cfg.regNames → portGet n s = s.raise .unknownRegister ∧ portSet n v s = s.raise .unknownRegister)

/-- The flag ports read and write any flag name and never raise (R35, R36). -/
def Obligations.FlagPorts : Prop :=
  ∀ (s : State) (f : Text) (b : Bool),
    portGetFlag f s = .next (s.reply (.flag (s.flag f))) ∧
    ∃ t, portSetFlag f b s = .next t ∧ t.flag f = b ∧ (∀ g, g ≠ f → t.flag g = s.flag g) ∧
      s.RegsKept t [] ∧ s.MemKept t ∧ s.OthersKept t

/-- The memory ports read and write one byte inside the bounds and raise OutOfBounds outside (R51, R52). -/
def Obligations.MemoryPorts : Prop :=
  ∀ (s : State) (a : Int) (b : Byte), s.Inv →
    (0 ≤ a → a < s.cfg.memSize →
      portRead a s = .next (s.reply (.byte (s.mem.readByte a.toNat))) ∧
      ∃ t, portWrite a b s = .next t ∧ t.mem.readByte a.toNat = b ∧
        (∀ x, x ≠ a.toNat → t.mem.readByte x = s.mem.readByte x) ∧
        s.RegsKept t [] ∧ s.FlagsKept t ∧ s.OthersKept t) ∧
    (a < 0 ∨ s.cfg.memSize ≤ a → portRead a s = s.raise .outOfBounds ∧ portWrite a b s = s.raise .outOfBounds)

/-- A port operation that returns no value replies the status OK (the model's choice, notes/assumptions/3.md)
(10_state.md section 4, 20_memory.md section 1). -/
def Obligations.PortWritesReplyOk : Prop :=
  ∀ (s t : State), s.Inv →
    (∀ n v, n ∈ s.cfg.regNames → portSet n v s = .next t → s.RepliedOk t) ∧
    (∀ f b, portSetFlag f b s = .next t → s.RepliedOk t) ∧
    (∀ a b, s.inBounds a → portWrite a b s = .next t → s.RepliedOk t) ∧
    (portDump s = .next t → s.RepliedOk t)

/-- The host's byte reads see a pushed value, and POP sees the host's byte writes (20_memory.md R56, 20_memory.md
R55). -/
def Obligations.HostSeesAPushAndPopSeesTheHost : Prop :=
  (∀ (s t : State) (a : Operand) (v p : Word), s.Inv → s.source? a = some v → exec (.push a) s = .next t → s.RepliedOk t →
      t.named? rspName = some p → ∀ i : Nat, i < 8 → portRead ((p.toNat : Int) + i) t =
        .next (t.reply (.byte (v.extractLsb' (8 * i) 8)))) ∧
    (∀ (s t : State) (bytes : List Byte) (dest : Operand) (d : Nat) (p : Word), s.Inv → s.dest? dest = some d →
      s.named? rspName = some p → bytes.length = 8 → p.toNat + 8 ≤ s.cfg.memSize → hostWrites p.toNat bytes s = .next t →
      ∃ (u : State) (w : Word), exec (.pop dest) t = .next u ∧ t.RepliedOk u ∧ u.reg? d = some w ∧
        ∀ i : Nat, i < 8 → bytes[i]? = some (w.extractLsb' (8 * i) 8))

/-- Stepping a loaded program gives the run R276 defines, under either feeder policy (70_reset_and_hazards.md R276,
70_reset_and_hazards.md R275). That the lines of a program are the pending requests, and what an abort drops of
them, is the model's choice, log entries 2 and 5. -/
def Obligations.LoadedProgramRunsAsDefined : Prop :=
  ∀ (program : List Text) (s : State),
    (∀ r, runProgram s.cfg.feederPolicy program (s.load []) = .next r →
      Sys2Proof.core.run program.length (s.load program) = .next r.final ∧
      r.final.replies = s.replies ++ r.statuses.map Reply.status ∧ r.final.out = s.out ++ r.emitted) ∧
    (∀ f, runProgram s.cfg.feederPolicy program (s.load []) = .fault f →
      Sys2Proof.core.run program.length (s.load program) = .fault f) ∧
    (∀ x, runProgram s.cfg.feederPolicy program (s.load []) = .refused x →
      Sys2Proof.core.run program.length (s.load program) = .refused x)

/-- The opcode tags are R91's, and the same values select the ALU's operations (R91). -/
def Obligations.TagsNumberOpcodesAndTheAlu : Prop :=
  [Opcode.mov, .add, .sub, .and, .or, .xor, .mul, .div, .neg, .not, .lsl, .lsr, .cmp, .push, .pop, .rdump].map Opcode.tag =
      [0x0, 0x1, 0x2, 0x3, 0x4, 0x5, 0x6, 0x7, 0x8, 0x9, 0xA, 0xB, 0xC, 0xD, 0xE, 0xF] ∧
    (∀ t : BitVec 4, ∃ o : Opcode, Opcode.ofTag? t = some o ∧ o.tag = t) ∧
    [Opcode.add, .sub, .and, .or, .xor, .mul, .div, .neg, .not, .lsl, .lsr].map (fun o => AluOp.ofTag? o.tag) =
      [some .add, some .sub, some .and, some .or, some .xor, some .mul, some .div, some .neg, some .not, some .lsl,
        some .lsr] ∧
    ∀ o ∈ [Opcode.mov, .cmp, .push, .pop, .rdump], AluOp.ofTag? o.tag = none

/-- Every ALU instruction writes what the ALU answers to its opcode's tag, in the frame of its form (R118, R119,
R120). -/
def Obligations.AluFramesAnswerByTag : Prop :=
  ∀ (s : State) (dest a b : Operand) (d : Nat), s.Inv → s.dest? dest = some d →
    (∀ i ∈ [Instr.add2 dest b, .sub2 dest b, .and2 dest b, .or2 dest b, .xor2 dest b, .mul2 dest b, .div2 dest b,
        .lsl dest b, .lsr dest b], ∀ x y : Word, s.reg? d = some x → s.source? b = some y →
      ∃ answer, aluPort i.opcode.tag x y = some answer ∧
        (∀ r, answer = some r → s.Writes (exec i s) d (fun v => v = r)) ∧
        (answer = none → exec i s = s.raise .divisionByZero)) ∧
    (∀ i ∈ [Instr.add3 dest a b, .sub3 dest a b, .and3 dest a b, .or3 dest a b, .xor3 dest a b, .mul3 dest a b,
        .div3 dest a b], ∀ x y : Word, s.source? a = some x → s.source? b = some y →
      ∃ answer, aluPort i.opcode.tag x y = some answer ∧
        (∀ r, answer = some r → s.Writes (exec i s) d (fun v => v = r)) ∧
        (answer = none → exec i s = s.raise .divisionByZero)) ∧
    (∀ i ∈ [Instr.neg dest, .bitNot dest], ∀ x : Word, s.reg? d = some x →
      ∃ r, aluPort i.opcode.tag x 0 = some (some r) ∧ s.Writes (exec i s) d (fun v => v = r))

/-- Bytes of another length than a command's: the header checks come first, then they are refused (30_encoding.md
R92, 30_encoding.md R94). The spec gives such bytes no behaviour: the refusal, and that the header checks come
before it, is the model's choice, log entry 4 (DESIGN CHOICE). -/
def Obligations.BytesThatAreNoCommand : Prop :=
  (∀ s : State, stepCommand [] s = .refused .notACommand) ∧
    ∀ (h : Byte) (rest : List Byte) (s : State),
      (h.toNat / 64 ≠ 0 → stepCommand (h :: rest) s = s.raise .unknownInstruction) ∧
      ∀ o : Opcode, h.toNat / 64 = 0 → o.tag.toNat = h.toNat % 16 →
        (h.toNat / 16 % 4 ∉ o.arities → stepCommand (h :: rest) s = s.raise .arityMismatch) ∧
        (h.toNat / 16 % 4 ∈ o.arities → rest.length ≠ 9 * (h.toNat / 16 % 4) →
          stepCommand (h :: rest) s = .refused .notACommand)
end

