-- ==== Sys2Proof/Laws/Words.lean ====
section
/-! SUPPORT. The integer readings of words and bytes (`00_scope.md` R9, R10). -/

namespace Sys2Proof

/-- `wrap64` gives the non-negative remainder modulo 2^64 (R10). -/
theorem wrap64_toNat (i : Int) : ((wrap64 i).toNat : Int) = i % 2 ^ 64 := by
  simp [wrap64, BitVec.toNat_ofInt]
  omega

/-- `wrap64` of a natural number. -/
theorem wrap64_natCast (v : Nat) : wrap64 (v : Int) = BitVec.ofNat 64 v := by
  simp [wrap64]

/-- An unsigned reading is not negative. -/
theorem Word.u_nonneg (w : Word) : 0 ≤ w.u := by simp [Word.u]

/-- Byte `i` of a word, as a quotient and as the slice `8i+7 : 8i` (`20_memory.md` R55). -/
theorem byte_eq_slice (v : Word) (i : Nat) : BitVec.ofNat 8 (v.toNat / 256 ^ i) = v.extractLsb' (8 * i) 8 := by
  apply BitVec.eq_of_toNat_eq
  rw [BitVec.extractLsb'_toNat, Nat.shiftRight_eq_div_pow, BitVec.toNat_ofNat, show (256 : Nat) = 2 ^ 8 by rfl,
    ← Nat.pow_mul]

end Sys2Proof
end

