-- ==== Sys2Proof/Laws/Decode.lean ====
section
/-! SUPPORT. The pieces of the two decoders: characters, tokens, literals, descriptors and register positions. -/

namespace Sys2Proof

/-! ## Tokens -/

/-- A run of characters that are not whitespace is read whole. -/
theorem runsFrom_run (acc run rest : Text) (h : ∀ c ∈ run, isWhitespace c = false) :
    runsFrom acc (run ++ rest) = runsFrom (run.reverse ++ acc) rest := by
  induction run generalizing acc with
  | nil => rfl
  | cons c run ih =>
    have hc := h c (by simp)
    simp only [List.cons_append, runsFrom, hc]
    rw [if_neg (by simp), ih _ (fun d hd => h d (by simp [hd]))]
    simp

/-- The six whitespace characters (`30_encoding.md` R72). -/
theorem isWhitespace_iff (c : Char) : isWhitespace c = true ↔ c ∈ [' ', '\t', '\n', Char.ofNat 0x0B, Char.ofNat 0x0C, '\r'] := by
  constructor
  · intro h
    simp only [isWhitespace, Bool.or_eq_true, beq_iff_eq] at h
    rcases h with ((((h|h)|h)|h)|h)|h <;> (rw [← Char.ofNat_toNat c, h]; simp)
  · intro h
    simp only [List.mem_cons, List.not_mem_nil, or_false] at h
    rcases h with h|h|h|h|h|h <;> subst h <;> rfl

/-- Leading whitespace makes no token. -/
theorem tokens_whitespace {c : Char} (line : Text) (h : isWhitespace c = true) : tokens (c :: line) = tokens line := by
  have hc : c ≠ ',' := by rintro rfl; revert h; decide
  simp [tokens, hc, runsFrom, h]

/-- A run followed by whitespace is the first token. -/
theorem tokens_run {c : Char} (run line : Text) (h : ∀ d ∈ run, isWhitespace d = false) (h' : ∀ d ∈ run, d ≠ ',') (h0 : run ≠ []) (hc : isWhitespace c = true) : tokens (run ++ c :: line) = run :: tokens line := by
  have hcc : c ≠ ',' := by rintro rfl; revert hc; decide
  have : (run ++ c :: line).filter (fun c => c != ',') = run ++ c :: line.filter (fun c => c != ',') := by
    rw [List.filter_append, List.filter_eq_self.2 (by simpa using h')]; simp [hcc]
  simp [tokens, this, runsFrom_run _ _ _ h, runsFrom, hc, h0]

/-- A run alone is the one token. -/
theorem tokens_lastRun (run : Text) (h : ∀ d ∈ run, isWhitespace d = false) (h' : ∀ d ∈ run, d ≠ ',') (h0 : run ≠ []) : tokens run = [run] := by
  have : run.filter (fun c => c != ',') = run ++ [] := by
    rw [List.filter_eq_self.2 (by simpa using h')]; simp
  rw [tokens, this, runsFrom_run _ run [] h]; simp [runsFrom, h0]

/-! ## Letter case -/

theorem upperChar_lower (n : Nat) (h : 0x61 ≤ n) (h2 : n ≤ 0x7A) : (upperChar (Char.ofNat n)).toNat = n - 0x20 := by
  interval_cases n <;> rfl

theorem upperChar_cases (c : Char) : upperChar c = c ∨ (0x61 ≤ c.toNat ∧ c.toNat ≤ 0x7A ∧ (upperChar c).toNat = c.toNat - 0x20) := by
  by_cases h : isLowerLetter c = true
  · simp only [isLowerLetter, Bool.and_eq_true, decide_eq_true_eq] at h
    have : c = Char.ofNat c.toNat := (Char.ofNat_toNat c).symm
    right; refine ⟨h.1, h.2, ?_⟩; rw [this]; simpa using upperChar_lower c.toNat h.1 h.2
  · left; simp [upperChar, h]

theorem upperChar_upperChar (c : Char) : upperChar (upperChar c) = upperChar c := by
  rcases upperChar_cases c with h | ⟨h1, h2, h3⟩
  · rw [h, h]
  · have : isLowerLetter (upperChar c) = false := by simp [isLowerLetter, h3]; omega
    rw [upperChar, this]; rfl

theorem upperChar_comma (c : Char) : upperChar c = ',' ↔ c = ',' := by
  rcases upperChar_cases c with h | ⟨h1, h2, h3⟩
  · rw [h]
  · constructor
    · intro h; rw [h] at h3; simp at h3; omega
    · rintro rfl; simp at h1

theorem isWhitespace_upperChar (c : Char) : isWhitespace (upperChar c) = isWhitespace c := by
  rcases upperChar_cases c with h | ⟨h1, h2, h3⟩
  · rw [h]
  · simp only [isWhitespace, h3]
    apply Bool.eq_iff_iff.2
    simp only [Bool.or_eq_true, beq_iff_eq]; omega

/-! ## Characters and token classes -/

/-- The ten digits. -/
theorem isDigit_iff (c : Char) : isDigit c = true ↔ c ∈ "0123456789".toList := by
  constructor
  · intro h
    simp only [isDigit, Bool.and_eq_true, decide_eq_true_eq] at h
    obtain ⟨h1, h2⟩ := h
    rw [← Char.ofNat_toNat c]; generalize c.toNat = n at h1 h2 ⊢; interval_cases n <;> simp
  · intro h
    simp at h
    rcases h with rfl|rfl|rfl|rfl|rfl|rfl|rfl|rfl|rfl|rfl <;> rfl

/-- The twenty-six capital letters. -/
theorem isUpperLetter_iff (c : Char) : isUpperLetter c = true ↔ c ∈ "ABCDEFGHIJKLMNOPQRSTUVWXYZ".toList := by
  constructor
  · intro h
    simp only [isUpperLetter, Bool.and_eq_true, decide_eq_true_eq] at h
    obtain ⟨h1, h2⟩ := h
    rw [← Char.ofNat_toNat c]; generalize c.toNat = n at h1 h2 ⊢; interval_cases n <;> simp
  · intro h
    simp at h
    rcases h with rfl|rfl|rfl|rfl|rfl|rfl|rfl|rfl|rfl|rfl|rfl|rfl|rfl|rfl|rfl|rfl|rfl|rfl|rfl|rfl|rfl|rfl|rfl|rfl|rfl|rfl <;> rfl

/-- The twenty-two hexadecimal digits. -/
theorem isHexDigit_iff (c : Char) : isHexDigit c = true ↔ c ∈ "0123456789ABCDEFabcdef".toList := by
  constructor
  · intro h
    simp only [isHexDigit, isDigit, Bool.and_eq_true, Bool.or_eq_true, decide_eq_true_eq] at h
    rw [← Char.ofNat_toNat c]
    generalize c.toNat = n at h ⊢
    rcases h with (⟨h1, h2⟩ | ⟨h1, h2⟩) | ⟨h1, h2⟩ <;> interval_cases n <;> simp
  · intro h
    simp at h
    rcases h with rfl|rfl|rfl|rfl|rfl|rfl|rfl|rfl|rfl|rfl|rfl|rfl|rfl|rfl|rfl|rfl|rfl|rfl|rfl|rfl|rfl|rfl <;> rfl

/-- The pattern of HEX. -/
theorem isHexToken_iff (t : Text) : isHexToken t = true ↔ ∃ ds, ds ≠ [] ∧ (∀ c ∈ ds, isHexDigit c = true) ∧ t = '0' :: 'x' :: ds := by
  unfold isHexToken; split
  · rename_i ds; simp
  · rename_i h; simp; intro ds _ _ ht; exact h ds ht

/-- The pattern of DEC. -/
theorem isDecToken_iff (t : Text) : isDecToken t = true ↔ t ≠ [] ∧ ∀ c ∈ t, isDigit c = true := by
  simp [isDecToken]

theorem takeWhile_run {p : Char → Bool} (a b : Text) (c : Char) (h : ∀ d ∈ a, p d = true) (hc : p c = false) :
    (a ++ c :: b).takeWhile p = a ∧ (a ++ c :: b).dropWhile p = c :: b := by
  induction a with
  | nil => simp [hc]
  | cons d a ih => have := ih (fun x hx => h x (by simp [hx])); simp [h d (by simp), this]

/-- The pattern of FLT. -/
theorem isFltToken_iff (t : Text) : isFltToken t = true ↔ ∃ a b, isDecToken a = true ∧ isDecToken b = true ∧ t = a ++ '.' :: b := by
  constructor
  · intro h
    simp only [isFltToken, Bool.and_eq_true, beq_iff_eq] at h
    obtain ⟨⟨h1, h2⟩, h3⟩ := h
    refine ⟨_, _, h1, h3, ?_⟩
    simp only [fltParts]
    cases hd : t.dropWhile isDigit with
    | nil => simp [hd] at h2
    | cons c r =>
      simp [hd] at h2; subst h2
      have := List.takeWhile_append_dropWhile (p := isDigit) (l := t)
      rw [hd] at this; exact this.symm
  · rintro ⟨a, b, ha, hb, rfl⟩
    obtain ⟨h1, h2⟩ := takeWhile_run a b '.' ((isDecToken_iff a).1 ha).2 (by rfl)
    simp [isFltToken, fltParts, h1, h2, ha, hb]

/-- The pattern of REGNAME. -/
theorem isRegNameToken_iff (t : Text) : isRegNameToken t = true ↔ ∃ a b, a ≠ [] ∧ (∀ c ∈ a, isUpperLetter c = true) ∧ (∀ c ∈ b, isDigit c = true) ∧ t = a ++ b := by
  constructor
  · intro h
    simp only [isRegNameToken, Bool.and_eq_true, Bool.not_eq_true', List.isEmpty_eq_false_iff, List.all_eq_true] at h
    exact ⟨_, _, h.1, fun c hc => List.mem_takeWhile_imp hc, h.2, (List.takeWhile_append_dropWhile).symm⟩
  · rintro ⟨a, b, h1, h2, h3, rfl⟩
    have hdu : ∀ c, isDigit c = true → isUpperLetter c = false := by
      intro c hc; simp only [isDigit, isUpperLetter, Bool.and_eq_true, Bool.and_eq_false_iff, decide_eq_true_eq, decide_eq_false_iff_not] at hc ⊢; omega
    have : (a ++ b).takeWhile isUpperLetter = a ∧ (a ++ b).dropWhile isUpperLetter = b := by
      cases b with
      | nil => simp; exact h2
      | cons c b => exact takeWhile_run a b c h2 (hdu c (h3 c (by simp)))
    simp only [isRegNameToken, this.1, this.2]
    simp [h1]; exact h3

/-- No token is both HEX and DEC. -/
theorem isDecToken_of_hex {t : Text} (h : isHexToken t = true) : isDecToken t = false := by
  obtain ⟨ds, -, -, rfl⟩ := (isHexToken_iff t).1 h
  rw [← Bool.not_eq_true, isDecToken_iff]; rintro ⟨-, h⟩; have := h 'x' (by simp); revert this; decide

/-- An FLT token is neither HEX nor DEC. -/
theorem not_hex_dec_of_flt {t : Text} (h : isFltToken t = true) : isHexToken t = false ∧ isDecToken t = false := by
  obtain ⟨a, b, ha, hb, rfl⟩ := (isFltToken_iff t).1 h
  constructor
  · rw [← Bool.not_eq_true, isHexToken_iff]; rintro ⟨ds, -, h1, h2⟩
    have : '.' ∈ '0' :: 'x' :: ds := by rw [← h2]; simp
    simp at this; have := h1 _ this; revert this; decide
  · rw [← Bool.not_eq_true, isDecToken_iff]; rintro ⟨-, h1⟩; have := h1 '.' (by simp); revert this; decide

/-- A REGNAME token is none of HEX, DEC and FLT. -/
theorem not_hex_dec_flt_of_regName {t : Text} (h : isRegNameToken t = true) : isHexToken t = false ∧ isDecToken t = false ∧ isFltToken t = false := by
  obtain ⟨a, b, h1, h2, h3, rfl⟩ := (isRegNameToken_iff t).1 h
  obtain ⟨c, a, rfl⟩ := List.exists_cons_of_ne_nil h1
  have hc := h2 c (by simp)
  have hnd : isDigit c = false := by
    simp only [isDigit, isUpperLetter, Bool.and_eq_true, Bool.and_eq_false_iff, decide_eq_true_eq, decide_eq_false_iff_not] at hc ⊢; omega
  refine ⟨?_, ?_, ?_⟩
  · rw [← Bool.not_eq_true, isHexToken_iff]; rintro ⟨ds, -, -, h5⟩; simp at h5; rw [h5.1] at hc; revert hc; decide
  · rw [← Bool.not_eq_true, isDecToken_iff]; rintro ⟨-, h5⟩; have := h5 c (by simp); simp [hnd] at this
  · rw [← Bool.not_eq_true, isFltToken_iff]; rintro ⟨x, y, hx, -, h5⟩
    obtain ⟨hx1, hx2⟩ := (isDecToken_iff x).1 hx
    obtain ⟨d, x, rfl⟩ := List.exists_cons_of_ne_nil hx1
    simp at h5; have := hx2 d (by simp); rw [← h5.1, hnd] at this; simp at this

/-! ## Numbers -/

/-- The value of a digit string as Mathlib writes it. -/
theorem digitsValue_eq (base : Nat) (t : Text) : digitsValue base t = Nat.ofDigits base (t.reverse.map digitValue) := by
  have key : ∀ (t : Text) (acc : Nat), t.foldl (fun acc c => acc * base + digitValue c) acc = acc * base ^ t.length + Nat.ofDigits base (t.reverse.map digitValue) := by
    intro t
    induction t with
    | nil => simp
    | cons c t ih => intro acc; simp only [List.foldl_cons, ih, List.reverse_cons, List.map_append, Nat.ofDigits_append]; simp; ring
  rw [digitsValue, key]; simp

/-- A printed digit reads as its value, and is part of a token. -/
theorem hexDigit_spec (hc : HexCase) (d : Nat) (h : d < 16) : digitValue (hexDigit hc d) = d ∧ isHexDigit (hexDigit hc d) = true ∧ isWhitespace (hexDigit hc d) = false ∧ hexDigit hc d ≠ ',' := by
  cases hc <;> interval_cases d <;> decide

theorem hexDigits_length (hc : HexCase) (n v : Nat) : (hexDigits hc n v).length = n := by
  induction n generalizing v <;> simp [hexDigits, *]

theorem mem_hexDigits (hc : HexCase) (n v : Nat) (c : Char) (h : c ∈ hexDigits hc n v) : ∃ d < 16, c = hexDigit hc d := by
  induction n generalizing v with
  | zero => simp [hexDigits] at h
  | succ n ih =>
    simp only [hexDigits, List.mem_append, List.mem_singleton] at h
    rcases h with h | h
    · exact ih _ h
    · exact ⟨v % 16, Nat.mod_lt _ (by norm_num), h⟩

/-- The digits printed write the number. -/
theorem ofDigits_hexDigits (hc : HexCase) (n v : Nat) : Nat.ofDigits 16 ((hexDigits hc n v).reverse.map digitValue) = v % 16 ^ n := by
  induction n generalizing v with
  | zero => simp [hexDigits, Nat.mod_one]
  | succ n ih =>
    simp only [hexDigits, List.reverse_append, List.reverse_singleton, List.singleton_append, List.map_cons, Nat.ofDigits_cons, ih,
      (hexDigit_spec hc (v % 16) (Nat.mod_lt _ (by norm_num))).1]
    rw [show 16 ^ (n + 1) = 16 * 16 ^ n by ring, Nat.mod_mul]

/-- The one way a float literal has no value (R83). -/
theorem literal_eq_error {mode d e} (h : Binary64.literal mode d = .error e) : e = .floatOutOfRange := by
  cases mode with
  | rawBits => simp [Binary64.literal] at h
  | truncate =>
    cases d with
    | inf => simpa [Binary64.literal] using h.symm
    | finite m x => 
      simp only [Binary64.literal] at h
      generalize Binary64.truncated m x = q at h
      by_cases hq : q ≥ 2 ^ 63
      · rw [if_pos hq] at h; simpa using h.symm
      · rw [if_neg hq] at h; simp at h

/-! ## Bytes of a command -/

theorem leValue_leBytes (n v : Nat) : leValue (leBytes n v) = v % 256 ^ n := by
  induction n generalizing v with
  | zero => simp [leBytes, leValue, Nat.mod_one]
  | succ n ih =>
    simp only [leBytes, leValue, ih, BitVec.toNat_ofNat]
    rw [show 256 ^ (n + 1) = 256 * 256 ^ n by ring, Nat.mod_mul]

theorem leBytes_length (n v : Nat) : (leBytes n v).length = n := by
  induction n generalizing v <;> simp [leBytes, *]

theorem leBytes_leValue (bs : List Byte) : leBytes bs.length (leValue bs) = bs := by
  induction bs with
  | nil => rfl
  | cons b bs ih =>
    have := b.isLt
    simp only [List.length_cons, leBytes, leValue]
    have h1 : BitVec.ofNat 8 (b.toNat + 256 * leValue bs) = b := by
      apply BitVec.eq_of_toNat_eq; simp; omega
    rw [h1, show (b.toNat + 256 * leValue bs) / 256 = leValue bs by omega, ih]

theorem leValue_lt (bs : List Byte) : leValue bs < 256 ^ bs.length := by
  induction bs with
  | nil => simp [leValue]
  | cons b bs ih => have := b.isLt; simp only [leValue, List.length_cons, pow_succ]; omega

/-- Descriptors are read from nine bytes each and from no other length (R92). -/
theorem decodeDescriptors_length : ∀ {n : Nat} {bs : List Byte} {as : List Operand},
    decodeDescriptors n bs = some as → bs.length = 9 * n
  | 0, [], _, _ => rfl
  | 0, _ :: _, _, h => by simp [decodeDescriptors] at h
  | n + 1, k :: b0 :: b1 :: b2 :: b3 :: b4 :: b5 :: b6 :: b7 :: rest, as, h => by
    simp only [decodeDescriptors, Option.map_eq_some_iff] at h
    obtain ⟨as', h, -⟩ := h
    have := decodeDescriptors_length h
    simp only [List.length_cons]
    omega
  | _ + 1, [], _, h => by simp [decodeDescriptors] at h
  | _ + 1, [_], _, h => by simp [decodeDescriptors] at h
  | _ + 1, [_, _], _, h => by simp [decodeDescriptors] at h
  | _ + 1, [_, _, _], _, h => by simp [decodeDescriptors] at h
  | _ + 1, [_, _, _, _], _, h => by simp [decodeDescriptors] at h
  | _ + 1, [_, _, _, _, _], _, h => by simp [decodeDescriptors] at h
  | _ + 1, [_, _, _, _, _, _], _, h => by simp [decodeDescriptors] at h
  | _ + 1, [_, _, _, _, _, _, _], _, h => by simp [decodeDescriptors] at h
  | _ + 1, [_, _, _, _, _, _, _, _], _, h => by simp [decodeDescriptors] at h

/-- One descriptor read (`30_encoding.md` R92). -/
theorem decodeDescriptors_cons (n : Nat) (k : Byte) (v : Nat) (rest : List Byte) :
    decodeDescriptors (n + 1) (k :: leBytes 8 v ++ rest) = (decodeDescriptors n rest).map (decodeDescriptor k (v % 256 ^ 8) :: ·) := by
  have : leValue (leBytes 8 v) = v % 256 ^ 8 := leValue_leBytes 8 v
  rw [← this]; rfl

theorem encodeOperand_length (o : Operand) : (encodeOperand o).length = 9 := by cases o <;> simp [encodeOperand, leBytes_length]

theorem ofTag?_tag (o : Opcode) : Opcode.ofTag? o.tag = some o := by cases o <;> rfl

theorem tag_of_ofTag? {t o} (h : Opcode.ofTag? t = some o) : o.tag = t := by
  have := List.find?_some h; simpa using this

theorem ofMnemonic?_mnemonic {o : Opcode} {t : Text} (h : o.mnemonic = t) : Opcode.ofMnemonic? t = some o := by
  subst h; cases o <;> decide

theorem ofMnemonic?_eq_none {t : Text} (h : ∀ o : Opcode, o.mnemonic ≠ t) : Opcode.ofMnemonic? t = none := by
  simp [Opcode.ofMnemonic?, List.find?_eq_none, h]

/-! ## Positions in REG_NAMES -/

theorem idxOf?_getElem {l : List Text} (h : l.Nodup) {k : Nat} (hk : k < l.length) : l.idxOf? l[k] = some k := by
  rw [List.idxOf?, List.findIdx?_eq_some_iff_getElem]
  refine ⟨hk, by simp, fun j hj => ?_⟩
  simp only [beq_iff_eq]; intro he
  have := (List.Nodup.getElem_inj_iff h).1 he; omega

end Sys2Proof
end

