-- ==== Sys2Proof/Laws/State.lean ====
section
/-! SUPPORT. One lemma a field of State for each update, and what a register read gives after a register write. -/

namespace Sys2Proof.Machine

variable (s : State)

@[simp] theorem State.writeReg_cfg (k : Nat) (v : Word) : (s.writeReg k v).cfg = s.cfg := rfl
@[simp] theorem State.writeReg_regs (k : Nat) (v : Word) : (s.writeReg k v).regs = s.regs.set k (some v) := rfl
@[simp] theorem State.writeReg_flags (k : Nat) (v : Word) : (s.writeReg k v).flags = s.flags := rfl
@[simp] theorem State.writeReg_mem (k : Nat) (v : Word) : (s.writeReg k v).mem = s.mem := rfl
@[simp] theorem State.writeReg_out (k : Nat) (v : Word) : (s.writeReg k v).out = s.out := rfl
@[simp] theorem State.writeReg_inputs (k : Nat) (v : Word) : (s.writeReg k v).inputs = s.inputs := rfl
@[simp] theorem State.writeReg_replies (k : Nat) (v : Word) : (s.writeReg k v).replies = s.replies := rfl

@[simp] theorem State.withMem_cfg (m : Memory) : (s.withMem m).cfg = s.cfg := rfl
@[simp] theorem State.withMem_regs (m : Memory) : (s.withMem m).regs = s.regs := rfl
@[simp] theorem State.withMem_flags (m : Memory) : (s.withMem m).flags = s.flags := rfl
@[simp] theorem State.withMem_mem (m : Memory) : (s.withMem m).mem = m := rfl
@[simp] theorem State.withMem_out (m : Memory) : (s.withMem m).out = s.out := rfl
@[simp] theorem State.withMem_inputs (m : Memory) : (s.withMem m).inputs = s.inputs := rfl
@[simp] theorem State.withMem_replies (m : Memory) : (s.withMem m).replies = s.replies := rfl

@[simp] theorem State.emit_cfg (ts : List Text) : (s.emit ts).cfg = s.cfg := rfl
@[simp] theorem State.emit_regs (ts : List Text) : (s.emit ts).regs = s.regs := rfl
@[simp] theorem State.emit_flags (ts : List Text) : (s.emit ts).flags = s.flags := rfl
@[simp] theorem State.emit_mem (ts : List Text) : (s.emit ts).mem = s.mem := rfl
@[simp] theorem State.emit_out (ts : List Text) : (s.emit ts).out = s.out ++ ts := rfl
@[simp] theorem State.emit_inputs (ts : List Text) : (s.emit ts).inputs = s.inputs := rfl
@[simp] theorem State.emit_replies (ts : List Text) : (s.emit ts).replies = s.replies := rfl

@[simp] theorem State.reply_cfg (r : Reply) : (s.reply r).cfg = s.cfg := rfl
@[simp] theorem State.reply_regs (r : Reply) : (s.reply r).regs = s.regs := rfl
@[simp] theorem State.reply_flags (r : Reply) : (s.reply r).flags = s.flags := rfl
@[simp] theorem State.reply_mem (r : Reply) : (s.reply r).mem = s.mem := rfl
@[simp] theorem State.reply_out (r : Reply) : (s.reply r).out = s.out := rfl
@[simp] theorem State.reply_inputs (r : Reply) : (s.reply r).inputs = s.inputs := rfl
@[simp] theorem State.reply_replies (r : Reply) : (s.reply r).replies = s.replies ++ [r] := rfl

@[simp] theorem State.setFlag_cfg (f : Text) (b : Bool) : (s.setFlag f b).cfg = s.cfg := rfl
@[simp] theorem State.setFlag_regs (f : Text) (b : Bool) : (s.setFlag f b).regs = s.regs := rfl
@[simp] theorem State.setFlag_flags (f : Text) (b : Bool) : (s.setFlag f b).flags = FlagSet.set s.flags f b := rfl
@[simp] theorem State.setFlag_mem (f : Text) (b : Bool) : (s.setFlag f b).mem = s.mem := rfl
@[simp] theorem State.setFlag_out (f : Text) (b : Bool) : (s.setFlag f b).out = s.out := rfl
@[simp] theorem State.setFlag_inputs (f : Text) (b : Bool) : (s.setFlag f b).inputs = s.inputs := rfl
@[simp] theorem State.setFlag_replies (f : Text) (b : Bool) : (s.setFlag f b).replies = s.replies := rfl

@[simp] theorem State.compare_cfg (a b : Word) : (s.compare a b).cfg = s.cfg := rfl
@[simp] theorem State.compare_regs (a b : Word) : (s.compare a b).regs = s.regs := rfl
@[simp] theorem State.compare_flags (a b : Word) : (s.compare a b).flags = FlagSet.set (FlagSet.set s.flags zName (cmpu a b).1) nName (cmpu a b).2 := rfl
@[simp] theorem State.compare_mem (a b : Word) : (s.compare a b).mem = s.mem := rfl
@[simp] theorem State.compare_out (a b : Word) : (s.compare a b).out = s.out := rfl
@[simp] theorem State.compare_inputs (a b : Word) : (s.compare a b).inputs = s.inputs := rfl
@[simp] theorem State.compare_replies (a b : Word) : (s.compare a b).replies = s.replies := rfl

@[simp] theorem State.taken_cfg : (s.taken).cfg = s.cfg := rfl
@[simp] theorem State.taken_regs : (s.taken).regs = s.regs := rfl
@[simp] theorem State.taken_flags : (s.taken).flags = s.flags := rfl
@[simp] theorem State.taken_mem : (s.taken).mem = s.mem := rfl
@[simp] theorem State.taken_out : (s.taken).out = s.out := rfl
@[simp] theorem State.taken_inputs : (s.taken).inputs = s.inputs.drop 1 := rfl
@[simp] theorem State.taken_replies : (s.taken).replies = s.replies := rfl

@[simp] theorem State.ask_cfg (r : Request) : (s.ask r).cfg = s.cfg := rfl
@[simp] theorem State.ask_regs (r : Request) : (s.ask r).regs = s.regs := rfl
@[simp] theorem State.ask_flags (r : Request) : (s.ask r).flags = s.flags := rfl
@[simp] theorem State.ask_mem (r : Request) : (s.ask r).mem = s.mem := rfl
@[simp] theorem State.ask_out (r : Request) : (s.ask r).out = s.out := rfl
@[simp] theorem State.ask_inputs (r : Request) : (s.ask r).inputs = r :: s.inputs := rfl
@[simp] theorem State.ask_replies (r : Request) : (s.ask r).replies = s.replies := rfl

@[simp] theorem State.load_cfg (program : List Text) : (s.load program).cfg = s.cfg := rfl
@[simp] theorem State.load_regs (program : List Text) : (s.load program).regs = s.regs := rfl
@[simp] theorem State.load_flags (program : List Text) : (s.load program).flags = s.flags := rfl
@[simp] theorem State.load_mem (program : List Text) : (s.load program).mem = s.mem := rfl
@[simp] theorem State.load_out (program : List Text) : (s.load program).out = s.out := rfl
@[simp] theorem State.load_inputs (program : List Text) : (s.load program).inputs = program.map Request.line := rfl
@[simp] theorem State.load_replies (program : List Text) : (s.load program).replies = s.replies := rfl

/-! ## Registers by position -/

/-- The position written reads the value written, where there is such a register. -/
theorem State.reg?_writeReg_self {s : State} {k : Nat} (v : Word) (h : k < s.regs.length) :
    (s.writeReg k v).reg? k = some v := by
  simp [State.reg?, h]

/-- Every other position reads as before (`10_state.md` R21: independent slots). -/
theorem State.reg?_writeReg_other (s : State) {j k : Nat} (v : Word) (h : j ≠ k) :
    (s.writeReg k v).reg? j = s.reg? j := by
  simp [State.reg?, List.getElem?_set_ne (Ne.symm h)]

@[simp] theorem State.withMem_reg? (m : Memory) (k : Nat) : (s.withMem m).reg? k = s.reg? k := rfl
@[simp] theorem State.withMem_named? (m : Memory) (n : Text) : (s.withMem m).named? n = s.named? n := rfl
@[simp] theorem State.withMem_flag (m : Memory) (n : Text) : (s.withMem m).flag n = s.flag n := rfl
@[simp] theorem State.emit_reg? (ts : List Text) (k : Nat) : (s.emit ts).reg? k = s.reg? k := rfl
@[simp] theorem State.emit_named? (ts : List Text) (n : Text) : (s.emit ts).named? n = s.named? n := rfl
@[simp] theorem State.emit_flag (ts : List Text) (n : Text) : (s.emit ts).flag n = s.flag n := rfl
@[simp] theorem State.reply_reg? (r : Reply) (k : Nat) : (s.reply r).reg? k = s.reg? k := rfl
@[simp] theorem State.reply_named? (r : Reply) (n : Text) : (s.reply r).named? n = s.named? n := rfl
@[simp] theorem State.reply_flag (r : Reply) (n : Text) : (s.reply r).flag n = s.flag n := rfl
@[simp] theorem State.setFlag_reg? (f : Text) (b : Bool) (k : Nat) : (s.setFlag f b).reg? k = s.reg? k := rfl
@[simp] theorem State.setFlag_named? (f : Text) (b : Bool) (n : Text) : (s.setFlag f b).named? n = s.named? n := rfl
@[simp] theorem State.compare_reg? (a b : Word) (k : Nat) : (s.compare a b).reg? k = s.reg? k := rfl
@[simp] theorem State.compare_named? (a b : Word) (n : Text) : (s.compare a b).named? n = s.named? n := rfl
@[simp] theorem State.taken_reg? (k : Nat) : (s.taken).reg? k = s.reg? k := rfl
@[simp] theorem State.taken_named? (n : Text) : (s.taken).named? n = s.named? n := rfl
@[simp] theorem State.taken_flag (n : Text) : (s.taken).flag n = s.flag n := rfl
@[simp] theorem State.ask_reg? (r : Request) (k : Nat) : (s.ask r).reg? k = s.reg? k := rfl
@[simp] theorem State.ask_named? (r : Request) (n : Text) : (s.ask r).named? n = s.named? n := rfl
@[simp] theorem State.ask_flag (r : Request) (n : Text) : (s.ask r).flag n = s.flag n := rfl
@[simp] theorem State.load_reg? (program : List Text) (k : Nat) : (s.load program).reg? k = s.reg? k := rfl
@[simp] theorem State.load_named? (program : List Text) (n : Text) : (s.load program).named? n = s.named? n := rfl
@[simp] theorem State.load_flag (program : List Text) (n : Text) : (s.load program).flag n = s.flag n := rfl
@[simp] theorem State.writeReg_flag (k : Nat) (v : Word) (n : Text) : (s.writeReg k v).flag n = s.flag n := rfl

/-- A named register reads as the register at its position. -/
theorem State.named?_eq {s : State} {n : Text} {k : Nat} (h : s.cfg.position? n = some k) :
    s.named? n = s.reg? k := by
  simp [State.named?, h]

/-- Taking the request that was put in front gives the state back. -/
@[simp] theorem State.ask_taken (r : Request) : (s.ask r).taken = s := rfl

end Sys2Proof.Machine
end

