-- ==== Sys2Proof/Laws/Flags.lean ====
section
/-! SUPPORT. The laws of the flags: reading after writing, and that a write keeps the canonical form. -/

namespace Sys2Proof.Machine

theorem textLt_irrefl (a : Text) : textLt a a = false := by
  induction a with
  | nil => rfl
  | cons c a ih => simp [textLt, ih]

theorem char_eq_of_toNat {c d : Char} (h : c.toNat = d.toNat) : c = d :=
  Char.ext (UInt32.toNat_inj.1 h)

theorem textLt_trans {a b c : Text} (h1 : textLt a b = true) (h2 : textLt b c = true) : textLt a c = true := by
  induction a generalizing b c with
  | nil =>
    cases b with
    | nil => simp [textLt] at h1
    | cons x b => cases c with
      | nil => simp [textLt] at h2
      | cons y c => rfl
  | cons x a ih =>
    cases b with
    | nil => simp [textLt] at h1
    | cons y b => cases c with
      | nil => simp [textLt] at h2
      | cons z c =>
        simp only [textLt, Bool.or_eq_true, Bool.and_eq_true, decide_eq_true_eq] at h1 h2 ⊢
        rcases h1 with h1 | ⟨rfl, h1⟩
        · rcases h2 with h2 | ⟨rfl, -⟩
          · exact .inl (Nat.lt_trans h1 h2)
          · exact .inl h1
        · rcases h2 with h2 | ⟨rfl, h2⟩
          · exact .inl h2
          · exact .inr ⟨rfl, ih h1 h2⟩

theorem textLt_total {a b : Text} (h : textLt a b = false) (hne : a ≠ b) : textLt b a = true := by
  induction a generalizing b with
  | nil => cases b with
    | nil => exact absurd rfl hne
    | cons y b => simp [textLt] at h
  | cons x a ih =>
    cases b with
    | nil => rfl
    | cons y b =>
      simp only [textLt, Bool.or_eq_false_iff, Bool.and_eq_false_iff, decide_eq_false_iff_not] at h
      simp only [textLt, Bool.or_eq_true, Bool.and_eq_true, decide_eq_true_eq]
      by_cases hxy : x = y
      · subst hxy
        refine .inr ⟨rfl, ih ?_ (fun h' => hne (by rw [h']))⟩
        rcases h.2 with h' | h'
        · exact absurd rfl h'
        · exact h'
      · refine .inl (Nat.lt_of_le_of_ne (Nat.le_of_not_lt h.1) ?_)
        exact fun h' => hxy (char_eq_of_toNat h'.symm)

namespace FlagSet

theorem mem_insert {fs : FlagSet} {f g : Text} : g ∈ FlagSet.insert fs f ↔ g = f ∨ g ∈ fs := by
  induction fs with
  | nil => simp [FlagSet.insert]
  | cons h fs ih =>
    simp only [FlagSet.insert]
    split
    · simp
    · split
      · rename_i hfh
        subst hfh
        simp
      · simp only [List.mem_cons, ih]
        tauto

/-- The flag written reads the value written (`10_state.md` R36). -/
theorem get_set_self (fs : FlagSet) (f : Text) (b : Bool) : FlagSet.get (FlagSet.set fs f b) f = b := by
  cases b <;> simp [FlagSet.get, FlagSet.set, mem_insert]

/-- Every other flag reads as before. -/
theorem get_set_other {fs : FlagSet} {f g : Text} (b : Bool) (h : g ≠ f) :
    FlagSet.get (FlagSet.set fs f b) g = FlagSet.get fs g := by
  cases b <;> simp [FlagSet.get, FlagSet.set, mem_insert, h]

theorem wf_insert {fs : FlagSet} (f : Text) (h : FlagSet.wf fs) : FlagSet.wf (FlagSet.insert fs f) := by
  induction fs with
  | nil => simp [FlagSet.wf, FlagSet.insert]
  | cons g fs ih =>
    have hg := List.pairwise_cons.1 h
    simp only [FlagSet.insert]
    split
    · rename_i hfg
      refine List.pairwise_cons.2 ⟨?_, h⟩
      intro x hx
      rcases List.mem_cons.1 hx with rfl | hx
      · exact hfg
      · exact textLt_trans hfg (hg.1 x hx)
    · split
      · exact h
      · rename_i h1 h2
        refine List.pairwise_cons.2 ⟨?_, ih hg.2⟩
        intro x hx
        rcases mem_insert.1 hx with rfl | hx
        · exact textLt_total (by simpa using h1) h2
        · exact hg.1 x hx

/-- Writing a flag keeps the canonical form. -/
theorem wf_set {fs : FlagSet} (f : Text) (b : Bool) (h : FlagSet.wf fs) : FlagSet.wf (FlagSet.set fs f b) := by
  cases b
  · exact List.Pairwise.filter _ h
  · exact wf_insert f h

end FlagSet

/-- The flag written reads the value written. -/
@[simp] theorem State.flag_setFlag_self (s : State) (f : Text) (b : Bool) : (s.setFlag f b).flag f = b :=
  FlagSet.get_set_self s.flags f b

/-- Every other flag reads as before. -/
theorem State.flag_setFlag_other (s : State) {f g : Text} (b : Bool) (h : g ≠ f) :
    (s.setFlag f b).flag g = s.flag g := FlagSet.get_set_other b h

/-- What the flags read after a comparison (`45_compare.md` R180). -/
theorem State.flag_compare (s : State) (a b : Word) :
    (s.compare a b).flag zName = decide (a = b) ∧ (s.compare a b).flag nName = decide (a.s < b.s) ∧
      ∀ f, f ≠ zName → f ≠ nName → (s.compare a b).flag f = s.flag f := by
  refine ⟨?_, ?_, ?_⟩
  · rw [State.compare, State.flag_setFlag_other _ _ (by decide), State.flag_setFlag_self]
    rfl
  · rw [State.compare, State.flag_setFlag_self]
    rfl
  · intro f hz hn
    rw [State.compare, State.flag_setFlag_other _ _ hn, State.flag_setFlag_other _ _ hz]

end Sys2Proof.Machine
end

