-- ==== Sys2Proof/Laws/Memory.lean ====
section
/-! SUPPORT. The laws of memory: reading after writing, and that every memory operation keeps the canonical form
and the bound. -/

namespace Sys2Proof.Machine

namespace Memory

theorem wf_nil : Memory.wf [] := by simp [Memory.wf]

theorem wf_tail {c : Host.Cell} {m : Memory} (h : Memory.wf (c :: m)) : Memory.wf m :=
  ⟨(List.pairwise_cons.1 h.1).2, fun d hd => h.2 d (List.mem_cons_of_mem _ hd)⟩

/-- Below the first listed address every byte is unlisted. -/
theorem readByte_of_lt {m : Memory} {x : Nat} (h : ∀ c ∈ m, x < c.1) : m.readByte x = Memory.unlisted := by
  cases m with
  | nil => rfl
  | cons c rest => simp [Memory.readByte, h c (List.mem_cons_self ..)]

theorem readByte_consByte_self {m : Memory} {x : Nat} {v : Byte} (h : ∀ c ∈ m, x < c.1) :
    Memory.readByte (Memory.consByte x v m) x = v := by
  by_cases hv : v = Memory.unlisted
  · simp [Memory.consByte, hv, readByte_of_lt h]
  · simp [Memory.consByte, hv, Memory.readByte]

theorem readByte_consByte_other {m : Memory} {x y : Nat} {v : Byte} (h : ∀ c ∈ m, x < c.1) (hy : y ≠ x) :
    Memory.readByte (Memory.consByte x v m) y = Memory.readByte m y := by
  by_cases hv : v = Memory.unlisted
  · simp [Memory.consByte, hv]
  · rcases Nat.lt_or_gt_of_ne hy with h' | h'
    · have hm : ∀ c ∈ m, y < c.1 := fun c hc => Nat.lt_trans h' (h c hc)
      simp [Memory.consByte, hv, Memory.readByte, h', readByte_of_lt hm]
    · simp [Memory.consByte, hv, Memory.readByte, Nat.not_lt_of_gt h', hy]

/-- The addresses a write lists are the old ones and the written one. -/
theorem mem_writeByte {m : Memory} {x : Nat} {v : Byte} {c : Host.Cell} (h : c ∈ m.writeByte x v) :
    c ∈ m ∨ c = (x, v) := by
  induction m with
  | nil =>
    simp only [Memory.writeByte, Memory.consByte] at h
    split at h <;> simp_all
  | cons d rest ih =>
    obtain ⟨a, b⟩ := d
    simp only [Memory.writeByte, Memory.consByte] at h
    split at h
    · split at h <;> simp_all
      tauto
    · split at h
      · split at h <;> simp_all
        tauto
      · rcases List.mem_cons.1 h with rfl | h
        · simp
        · rcases ih h with h | h <;> simp [h]

theorem wf_consByte {m : Memory} {x : Nat} {v : Byte} (hm : Memory.wf m) (h : ∀ c ∈ m, x < c.1) :
    Memory.wf (Memory.consByte x v m) := by
  by_cases hv : v = Memory.unlisted
  · simpa [Memory.consByte, hv] using hm
  · simp only [Memory.consByte, hv, if_false]
    refine ⟨List.pairwise_cons.2 ⟨fun c hc => h c hc, hm.1⟩, ?_⟩
    intro c hc
    rcases List.mem_cons.1 hc with rfl | hc
    · exact hv
    · exact hm.2 c hc

/-- Writing a byte keeps the canonical form. -/
theorem wf_writeByte {m : Memory} (x : Nat) (v : Byte) (hm : Memory.wf m) : Memory.wf (m.writeByte x v) := by
  induction m with
  | nil => exact wf_consByte hm (by simp)
  | cons d rest ih =>
    obtain ⟨a, b⟩ := d
    have hlt : ∀ c ∈ rest, a < c.1 := (List.pairwise_cons.1 hm.1).1
    simp only [Memory.writeByte]
    split
    · rename_i hxa
      refine wf_consByte hm ?_
      intro c hc
      rcases List.mem_cons.1 hc with rfl | hc
      · exact hxa
      · exact Nat.lt_trans hxa (hlt c hc)
    · split
      · rename_i hxa
        subst hxa
        exact wf_consByte (wf_tail hm) hlt
      · rename_i h1 h2
        refine ⟨List.pairwise_cons.2 ⟨?_, (ih (wf_tail hm)).1⟩, ?_⟩
        · intro c hc
          rcases mem_writeByte hc with hc | rfl
          · exact hlt c hc
          · exact Nat.lt_of_le_of_ne (Nat.le_of_not_lt h1) (Ne.symm h2)
        · intro c hc
          rcases List.mem_cons.1 hc with rfl | hc
          · exact hm.2 _ (List.mem_cons_self ..)
          · exact (ih (wf_tail hm)).2 c hc

/-- The byte written is the byte read (`20_memory.md` R62). -/
theorem readByte_writeByte_self {m : Memory} (x : Nat) (v : Byte) (hm : Memory.wf m) :
    (m.writeByte x v).readByte x = v := by
  induction m with
  | nil => exact readByte_consByte_self (by simp)
  | cons d rest ih =>
    obtain ⟨a, b⟩ := d
    have hlt : ∀ c ∈ rest, a < c.1 := (List.pairwise_cons.1 hm.1).1
    simp only [Memory.writeByte]
    split
    · rename_i hxa
      refine readByte_consByte_self ?_
      intro c hc
      rcases List.mem_cons.1 hc with rfl | hc
      · exact hxa
      · exact Nat.lt_trans hxa (hlt c hc)
    · split
      · rename_i hxa
        subst hxa
        exact readByte_consByte_self hlt
      · rename_i h1 h2
        simp [Memory.readByte, h1, h2, ih (wf_tail hm)]

/-- Every other byte reads as before (`20_memory.md` R62). -/
theorem readByte_writeByte_other {m : Memory} {x y : Nat} (v : Byte) (hm : Memory.wf m) (hy : y ≠ x) :
    (m.writeByte x v).readByte y = m.readByte y := by
  induction m with
  | nil => exact readByte_consByte_other (by simp) hy
  | cons d rest ih =>
    obtain ⟨a, b⟩ := d
    have hlt : ∀ c ∈ rest, a < c.1 := (List.pairwise_cons.1 hm.1).1
    simp only [Memory.writeByte]
    split
    · rename_i hxa
      refine readByte_consByte_other ?_ hy
      intro c hc
      rcases List.mem_cons.1 hc with rfl | hc
      · exact hxa
      · exact Nat.lt_trans hxa (hlt c hc)
    · split
      · rename_i hxa
        subst hxa
        rw [readByte_consByte_other hlt hy]
        rcases Nat.lt_or_gt_of_ne hy with h | h
        · rw [readByte_of_lt (fun c hc => Nat.lt_trans h (hlt c hc))]
          simp [Memory.readByte, h]
        · simp [Memory.readByte, Nat.not_lt_of_gt h, hy]
      · simp only [Memory.readByte]
        rw [ih (wf_tail hm)]

/-- A byte written inside a bound keeps every listed address inside it. -/
theorem bound_writeByte {m : Memory} {x n : Nat} {v : Byte} (hm : ∀ c ∈ m, c.1 < n) (hx : x < n) :
    ∀ c ∈ m.writeByte x v, c.1 < n := by
  intro c hc
  rcases mem_writeByte hc with hc | rfl
  · exact hm c hc
  · exact hx

/-! ## Several bytes -/

/-- Storing several bytes keeps the canonical form. -/
theorem wf_writeLE {m : Memory} (a n v : Nat) (hm : Memory.wf m) : Memory.wf (m.writeLE a n v) := by
  induction n generalizing m a v with
  | zero => exact hm
  | succ n ih => exact ih _ _ (wf_writeByte a _ hm)

/-- Storing a word keeps the canonical form. -/
theorem wf_writeWord {m : Memory} (a : Nat) (v : Word) (hm : Memory.wf m) : Memory.wf (m.writeWord a v) :=
  wf_writeLE a 8 v.toNat hm

theorem bound_writeLE {m : Memory} {a n v k : Nat} (hm : ∀ c ∈ m, c.1 < k) (h : a + n ≤ k) :
    ∀ c ∈ m.writeLE a n v, c.1 < k := by
  induction n generalizing m a v with
  | zero => exact hm
  | succ n ih => exact ih (bound_writeByte hm (by omega)) (by omega)

/-- Storing a word below a bound keeps every listed address below it. -/
theorem bound_writeWord {m : Memory} {a k : Nat} (v : Word) (hm : ∀ c ∈ m, c.1 < k) (h : a + 8 ≤ k) :
    ∀ c ∈ m.writeWord a v, c.1 < k := bound_writeLE hm h

/-- A byte outside the stored bytes reads as before. -/
theorem readByte_writeLE_other {m : Memory} {a n v y : Nat} (hm : Memory.wf m) (hy : y < a ∨ a + n ≤ y) :
    (m.writeLE a n v).readByte y = m.readByte y := by
  induction n generalizing m a v with
  | zero => rfl
  | succ n ih =>
    simp only [Memory.writeLE]
    rw [ih (wf_writeByte _ _ hm) (by omega), readByte_writeByte_other _ hm (by omega)]

/-- Byte `i` of the stored number stands at `a + i` (`20_memory.md` R55). -/
theorem readByte_writeLE {m : Memory} {a n v i : Nat} (hm : Memory.wf m) (hi : i < n) :
    (m.writeLE a n v).readByte (a + i) = BitVec.ofNat 8 (v / 256 ^ i) := by
  induction n generalizing m a v i with
  | zero => omega
  | succ n ih =>
    simp only [Memory.writeLE]
    cases i with
    | zero =>
      rw [readByte_writeLE_other (wf_writeByte _ _ hm) (by omega), Nat.add_zero, readByte_writeByte_self _ _ hm]
      simp
    | succ i =>
      have h := ih (m := m.writeByte a (BitVec.ofNat 8 v)) (a := a + 1) (v := v / 256) (i := i)
        (wf_writeByte _ _ hm) (by omega)
      rw [show a + (i + 1) = a + 1 + i by omega, h, Nat.div_div_eq_div_mul, Nat.pow_succ, Nat.mul_comm 256]

/-- Reading the bytes just stored gives the number back, modulo their width. -/
theorem readLE_writeLE {m : Memory} {a n v : Nat} (hm : Memory.wf m) :
    (m.writeLE a n v).readLE a n = v % 256 ^ n := by
  induction n generalizing m a v with
  | zero => simp [Memory.readLE, Nat.mod_one]
  | succ n ih =>
    simp only [Memory.writeLE, Memory.readLE]
    rw [readByte_writeLE_other (wf_writeByte _ _ hm) (by omega), readByte_writeByte_self _ _ hm,
      ih (wf_writeByte _ _ hm), BitVec.toNat_ofNat, show 256 ^ (n + 1) = 256 * 256 ^ n by ring, Nat.mod_mul]

/-- A word stored is the word loaded. -/
theorem readWord_writeWord {m : Memory} {a : Nat} (v : Word) (hm : Memory.wf m) :
    (m.writeWord a v).readWord a = v := by
  simp only [Memory.readWord, Memory.writeWord]
  rw [readLE_writeLE hm, Nat.mod_eq_of_lt (by have := v.isLt; omega)]
  simp

/-- Byte `i` of a stored word stands at `a + i` (`20_memory.md` R55). -/
theorem readByte_writeWord {m : Memory} {a i : Nat} (v : Word) (hm : Memory.wf m) (hi : i < 8) :
    (m.writeWord a v).readByte (a + i) = v.extractLsb' (8 * i) 8 := by
  rw [Memory.writeWord, readByte_writeLE hm hi, byte_eq_slice]

/-- A byte outside a stored word reads as before. -/
theorem readByte_writeWord_other {m : Memory} {a y : Nat} (v : Word) (hm : Memory.wf m) (hy : y < a ∨ a + 8 ≤ y) :
    (m.writeWord a v).readByte y = m.readByte y := readByte_writeLE_other hm hy

theorem readLE_lt (m : Memory) (a n : Nat) : m.readLE a n < 256 ^ n := by
  induction n generalizing a with
  | zero => simp [Memory.readLE]
  | succ n ih =>
    have h1 := ih (a + 1)
    have h2 := (m.readByte a).isLt
    simp only [Memory.readLE, pow_succ]
    omega

/-- Digit `i` in base 256 of a number read is the byte at `a + i`. -/
theorem readLE_digit (m : Memory) (a n i : Nat) (hi : i < n) :
    m.readLE a n / 256 ^ i % 256 = (m.readByte (a + i)).toNat := by
  induction n generalizing a i with
  | zero => omega
  | succ n ih =>
    have h2 := (m.readByte a).isLt
    simp only [Memory.readLE]
    cases i with
    | zero => simp; omega
    | succ i =>
      rw [Nat.pow_succ, Nat.mul_comm (256 ^ i), ← Nat.div_div_eq_div_mul,
        show ((m.readByte a).toNat + 256 * m.readLE (a + 1) n) / 256 = m.readLE (a + 1) n by omega,
        ih (a + 1) i (by omega), show a + (i + 1) = a + 1 + i by omega]

/-- Byte `i` of a word read is the byte at `a + i`. -/
theorem readWord_slice (m : Memory) (a i : Nat) (hi : i < 8) :
    (m.readWord a).extractLsb' (8 * i) 8 = m.readByte (a + i) := by
  rw [← byte_eq_slice]
  apply BitVec.eq_of_toNat_eq
  have h := readLE_lt m a 8
  rw [BitVec.toNat_ofNat, Memory.readWord, BitVec.toNat_ofNat, Nat.mod_eq_of_lt (b := 2 ^ 64) (by simpa using h)]
  exact readLE_digit m a 8 i hi

end Memory

end Sys2Proof.Machine
end

