-- ==== Sys2Proof/Laws/Operands.lean ====
section
/-! SUPPORT. What the shared operations can do, said once: sequencing, ending an instruction, checking and reading
operands. -/

namespace Sys2Proof.Machine

/-! ## Sequencing -/

theorem bind_eq_ok {ε α β : Type} {x : Except ε α} {f : α → Except ε β} {b : β} :
    (x >>= f) = .ok b ↔ ∃ a, x = .ok a ∧ f a = .ok b := by
  cases x <;> simp [bind, Except.bind]

@[simp] theorem ok_bind {ε α β : Type} (a : α) (f : α → Except ε β) : ((.ok a : Except ε α) >>= f) = f a := rfl

@[simp] theorem error_bind {ε α β : Type} (e : ε) (f : α → Except ε β) :
    ((.error e : Except ε α) >>= f) = .error e := rfl

theorem bind_eq_error {ε α β : Type} {x : Except ε α} {f : α → Except ε β} {e : ε} :
    (x >>= f) = .error e ↔ x = .error e ∨ ∃ a, x = .ok a ∧ f a = .error e := by
  cases x <;> simp [bind, Except.bind]

/-! ## The end of an instruction -/

@[simp] theorem State.finish_ok (s t : State) : s.finish (.ok t) = .next (t.reply (.status .ok)) := rfl

@[simp] theorem State.finish_raised (s : State) (e : ErrorKind) : s.finish (.error (.raised e)) = s.raise e := rfl

@[simp] theorem State.finish_faulted (s : State) (f : Fault) : s.finish (.error (.faulted f)) = .fault f := rfl

@[simp] theorem State.finish_refused (s : State) (r : Refusal) : s.finish (.error (.refused r)) = .refused r := rfl

/-- An instruction that answers a next state completed, or raised an error in the state it started in. -/
theorem State.finish_eq_next {s t : State} {r : Except Stop State} (h : s.finish r = .next t) :
    (∃ u, r = .ok u ∧ t = u.reply (.status .ok)) ∨
    (∃ e, r = .error (.raised e) ∧ t = s.reply (.status (.error e))) := by
  rcases r with e | u
  · cases e with
    | raised e => exact .inr ⟨e, rfl, by simpa [State.raise] using h.symm⟩
    | faulted f => simp at h
    | refused r => simp at h
  · exact .inl ⟨u, rfl, by simpa using h.symm⟩

/-! ## Registers by name -/

/-- A name's position lies in `REG_NAMES` and is the name's. -/
theorem position?_eq_some {cfg : Config} {n : Text} {k : Nat} (h : cfg.position? n = some k) :
    ∃ hk : k < cfg.regNames.length, cfg.regNames[k] = n := by
  rw [Config.position?, List.idxOf?, List.findIdx?_eq_some_iff_getElem] at h
  obtain ⟨hk, he, -⟩ := h
  exact ⟨hk, by simpa using he⟩

/-- A name of `REG_NAMES` has a position. -/
theorem position?_isSome {cfg : Config} {n : Text} : (cfg.position? n).isSome = true ↔ n ∈ cfg.regNames := by
  simp [Config.position?, List.idxOf?]

theorem State.readReg_eq_ok {s : State} {k : Nat} {v : Word} : s.readReg k = .ok v ↔ s.reg? k = some v := by
  unfold State.readReg
  cases s.reg? k <;> simp

theorem State.readReg_none {s : State} {k : Nat} (h : s.reg? k = none) :
    s.readReg k = .error (.faulted .readUnwritten) := by
  simp [State.readReg, h]

theorem State.readNamed_eq_ok {s : State} {n : Text} {v : Word} : s.readNamed n = .ok v ↔ s.named? n = some v := by
  unfold State.readNamed State.position State.named?
  cases s.cfg.position? n <;> simp [State.readReg_eq_ok]

/-- A register that holds a value has a place in the register file. -/
theorem State.lt_of_reg? {s : State} {k : Nat} {v : Word} (h : s.reg? k = some v) : k < s.regs.length := by
  by_contra hk
  simp [State.reg?, List.getElem?_eq_none (Nat.le_of_not_lt hk)] at h

/-- The named register has a position, at which it reads. -/
theorem State.named?_eq_some {s : State} {n : Text} {v : Word} (h : s.named? n = some v) :
    ∃ k, s.cfg.position? n = some k ∧ s.reg? k = some v := by
  simpa [State.named?, Option.bind_eq_some_iff] using h

theorem State.writeNamed_eq_ok {s t : State} {n : Text} {v : Word} :
    s.writeNamed n v = .ok t ↔ ∃ k, s.cfg.position? n = some k ∧ t = s.writeReg k v := by
  unfold State.writeNamed State.position
  cases s.cfg.position? n <;> simp [pure, Except.pure, eq_comm]

/-! ## Operands -/

theorem State.checkDest_eq_ok {s : State} {o : Operand} {k : Nat} : s.checkDest o = .ok k ↔ s.dest? o = some k := by
  cases o with
  | reg j => simp only [State.checkDest, State.dest?]; split <;> simp
  | imm v => simp [State.checkDest, State.dest?]
  | bad a b => simp [State.checkDest, State.dest?]

/-- A destination names a register of `REG_NAMES`. -/
theorem State.dest?_eq_some {s : State} {o : Operand} {k : Nat} (h : s.dest? o = some k) :
    o = .reg k ∧ k < s.cfg.regNames.length := by
  cases o with
  | reg j =>
    simp only [State.dest?] at h
    split at h
    · simp_all
    · simp at h
  | imm v => simp [State.dest?] at h
  | bad a b => simp [State.dest?] at h

/-- A source that yields a value passes its check and reads that value. -/
theorem State.source?_eq_some {s : State} {o : Operand} {v : Word} :
    s.source? o = some v ↔ s.checkSource o = .ok () ∧ s.readSource o = .ok v := by
  cases o with
  | reg j =>
    simp only [State.source?, State.checkSource, State.readSource]
    split <;> simp [State.readReg_eq_ok]
  | imm w => simp [State.source?, State.checkSource, State.readSource]
  | bad a b => simp [State.source?, State.checkSource]

end Sys2Proof.Machine
end

