-- ==== Sys2Proof/Laws/Exec.lean ====
section
/-! SUPPORT. What the instructions can do, said once: one lemma a shared frame, and from these what `exec` can
do. -/

namespace Sys2Proof.Machine

/-! ## The ALU frames -/

/-- An operation's tag selects it (`30_encoding.md` R91, `40_execution.md` R116). -/
@[simp] theorem AluOp.ofTag?_tag (op : AluOp) : AluOp.ofTag? op.tag = some op := by cases op <;> rfl

/-- The ALU's interface under an operation's tag is the operation. -/
@[simp] theorem aluPort_tag (op : AluOp) (a b : Word) : aluPort op.tag a b = some (alu op a b) := by
  simp [aluPort]

theorem aluResult_ok {op : AluOp} {a b r : Word} (h : alu op a b = some r) : aluResult op a b = .ok r := by
  simp [aluResult, h]

/-- The two-operand frame completes on a readable destination and source. -/
theorem aluFrame2_ok {s : State} {op : AluOp} {dest src : Operand} {d : Nat} {a b r : Word}
    (hd : s.dest? dest = some d) (ha : s.reg? d = some a) (hb : s.source? src = some b) (hr : alu op a b = some r) :
    aluFrame2 op dest src s = .next ((s.writeReg d r).reply (.status .ok)) := by
  obtain ⟨h1, h2⟩ := State.source?_eq_some.1 hb
  simp [aluFrame2, State.checkDest_eq_ok.2 hd, h1, h2, State.readReg_eq_ok.2 ha, aluResult, hr, pure, Except.pure]

/-- The three-operand frame completes on a destination and readable sources. -/
theorem aluFrame3_ok {s : State} {op : AluOp} {dest src1 src2 : Operand} {d : Nat} {a b r : Word}
    (hd : s.dest? dest = some d) (ha : s.source? src1 = some a) (hb : s.source? src2 = some b)
    (hr : alu op a b = some r) :
    aluFrame3 op dest src1 src2 s = .next ((s.writeReg d r).reply (.status .ok)) := by
  obtain ⟨h1, h2⟩ := State.source?_eq_some.1 ha
  obtain ⟨h3, h4⟩ := State.source?_eq_some.1 hb
  simp [aluFrame3, State.checkDest_eq_ok.2 hd, h1, h2, h3, h4, aluResult, hr, pure, Except.pure]

theorem aluResult_divisionByZero {op : AluOp} {a b : Word} (h : alu op a b = none) :
    aluResult op a b = .error (.raised .divisionByZero) := by
  simp [aluResult, h]

/-- The two-operand frame raises what the ALU indicates. -/
theorem aluFrame2_divisionByZero {s : State} {op : AluOp} {dest src : Operand} {d : Nat} {a b : Word}
    (hd : s.dest? dest = some d) (ha : s.reg? d = some a) (hb : s.source? src = some b) (hr : alu op a b = none) :
    aluFrame2 op dest src s = s.raise .divisionByZero := by
  obtain ⟨h1, h2⟩ := State.source?_eq_some.1 hb
  simp only [aluFrame2, State.checkDest_eq_ok.2 hd, h1, h2, State.readReg_eq_ok.2 ha, ok_bind,
    aluResult_divisionByZero hr]
  rfl

/-- The three-operand frame raises what the ALU indicates. -/
theorem aluFrame3_divisionByZero {s : State} {op : AluOp} {dest src1 src2 : Operand} {d : Nat} {a b : Word}
    (hd : s.dest? dest = some d) (ha : s.source? src1 = some a) (hb : s.source? src2 = some b)
    (hr : alu op a b = none) : aluFrame3 op dest src1 src2 s = s.raise .divisionByZero := by
  obtain ⟨h1, h2⟩ := State.source?_eq_some.1 ha
  obtain ⟨h3, h4⟩ := State.source?_eq_some.1 hb
  simp only [aluFrame3, State.checkDest_eq_ok.2 hd, h1, h2, h3, h4, ok_bind, aluResult_divisionByZero hr]
  rfl

/-- The one-operand frame completes on a readable destination. -/
theorem aluFrame1_ok {s : State} {op : AluOp} {dest : Operand} {d : Nat} {a r : Word}
    (hd : s.dest? dest = some d) (ha : s.reg? d = some a) (hr : alu op a 0 = some r) :
    aluFrame1 op dest s = .next ((s.writeReg d r).reply (.status .ok)) := by
  simp only [aluFrame1, State.checkDest_eq_ok.2 hd, State.readReg_eq_ok.2 ha, ok_bind, aluResult_ok hr]
  rfl

/-! ## What an instruction's effect can be -/

/-- The destination position of an instruction in a state, where it has one. -/
def Instr.destIn (i : Instr) (s : State) : Option Nat := i.dest?.bind s.dest?

/-- The effects an instruction can have: a register written, the flags of a comparison, a push, a pop, a dump. -/
inductive Effect (i : Instr) (s : State) : State → Prop where
  | wrote (d : Nat) (v : Word) (h : Instr.destIn i s = some d) : Effect i s (s.writeReg d v)
  | compared (o1 o2 : Operand) (a b : Word) (h : i = .cmp o1 o2) : Effect i s (s.compare a b)
  | pushed (o : Operand) (v p base : Word) (k : Nat) (h : i = .push o) (hp : s.named? rspName = some p)
      (hb : s.named? ssName = some base) (hk : s.cfg.position? rspName = some k) (h1 : base.u ≤ p.u - 8)
      (h2 : p.u ≤ s.cfg.memSize) :
      Effect i s ((s.withMem (s.mem.writeWord (pushAddress p) v)).writeReg k (wrap64 (p.u - 8)))
  | popped (o : Operand) (p : Word) (k d : Nat) (h : i = .pop o) (hd : s.dest? o = some d)
      (hp : s.named? rspName = some p) (hk : s.cfg.position? rspName = some k) (h1 : p.u + 8 ≤ s.cfg.memSize) :
      Effect i s ((s.writeReg k (wrap64 (p.u + 8))).writeReg d (s.mem.readWord p.toNat))
  | dumped (lines : List Text) (h : i = .rdump) (hl : s.dumpLinesOf s.cfg.dumpOrder = .ok lines) :
      Effect i s (s.emit lines)

/-- An outcome that is a completed effect, an error that left no trace, or no next state. -/
def Completes (i : Instr) (s : State) (o : Result) : Prop :=
  ∀ t, o = .next t →
    (∃ u, Effect i s u ∧ t = u.reply (.status .ok)) ∨ (∃ e, t = s.reply (.status (.error e)))

theorem completes_finish {i : Instr} {s : State} {r : Except Stop State} (h : ∀ u, r = .ok u → Effect i s u) :
    Completes i s (s.finish r) := by
  intro t ht
  rcases State.finish_eq_next ht with ⟨u, hu, rfl⟩ | ⟨e, -, rfl⟩
  · exact .inl ⟨u, h u hu, rfl⟩
  · exact .inr ⟨e, rfl⟩

theorem completes_aluFrame2 {i : Instr} {s : State} {op : AluOp} {dest src : Operand} (h : i.dest? = some dest) :
    Completes i s (aluFrame2 op dest src s) := by
  refine completes_finish fun u hu => ?_
  simp only [bind_eq_ok, pure, Except.pure, Except.ok.injEq] at hu
  obtain ⟨d, hd, -, -, a, -, b, -, r, -, rfl⟩ := hu
  exact .wrote d r (by simpa [Instr.destIn, h] using State.checkDest_eq_ok.1 hd)

theorem completes_aluFrame3 {i : Instr} {s : State} {op : AluOp} {dest src1 src2 : Operand}
    (h : i.dest? = some dest) : Completes i s (aluFrame3 op dest src1 src2 s) := by
  refine completes_finish fun u hu => ?_
  simp only [bind_eq_ok, pure, Except.pure, Except.ok.injEq] at hu
  obtain ⟨d, hd, -, -, -, -, a, -, b, -, r, -, rfl⟩ := hu
  exact .wrote d r (by simpa [Instr.destIn, h] using State.checkDest_eq_ok.1 hd)

theorem completes_aluFrame1 {i : Instr} {s : State} {op : AluOp} {dest : Operand} (h : i.dest? = some dest) :
    Completes i s (aluFrame1 op dest s) := by
  refine completes_finish fun u hu => ?_
  simp only [bind_eq_ok, pure, Except.pure, Except.ok.injEq] at hu
  obtain ⟨d, hd, a, -, r, -, rfl⟩ := hu
  exact .wrote d r (by simpa [Instr.destIn, h] using State.checkDest_eq_ok.1 hd)

theorem completes_execMov {dest src : Operand} {s : State} : Completes (.mov dest src) s (execMov dest src s) := by
  refine completes_finish fun u hu => ?_
  simp only [bind_eq_ok, pure, Except.pure, Except.ok.injEq] at hu
  obtain ⟨d, hd, -, -, v, -, rfl⟩ := hu
  exact .wrote d v (by simpa [Instr.destIn, Instr.dest?] using State.checkDest_eq_ok.1 hd)

theorem completes_execCmp {src1 src2 : Operand} {s : State} :
    Completes (.cmp src1 src2) s (execCmp src1 src2 s) := by
  refine completes_finish fun u hu => ?_
  simp only [bind_eq_ok, pure, Except.pure, Except.ok.injEq] at hu
  obtain ⟨-, -, -, -, a, -, b, -, rfl⟩ := hu
  exact .compared _ _ a b rfl

/-- A push that succeeds passed both checks, stored the value and moved the pointer (`46_stack.md` R192). -/
theorem State.push_eq_ok {s t : State} {v : Word} : s.push v = .ok t ↔
    ∃ p base k, s.named? rspName = some p ∧ s.named? ssName = some base ∧ s.cfg.position? rspName = some k ∧
      base.u ≤ p.u - 8 ∧ p.u ≤ s.cfg.memSize ∧
      t = (s.withMem (s.mem.writeWord (pushAddress p) v)).writeReg k (wrap64 (p.u - 8)) := by
  unfold State.push
  constructor
  · intro h
    simp only [bind_eq_ok, State.readNamed_eq_ok] at h
    obtain ⟨p, hp, base, hb, h⟩ := h
    split at h
    · simp at h
    · split at h
      · simp at h
      · rename_i h1 h2
        obtain ⟨k, hk, rfl⟩ := State.writeNamed_eq_ok.1 h
        exact ⟨p, base, k, hp, hb, hk, by omega, by omega, rfl⟩
  · rintro ⟨p, base, k, hp, hb, hk, h1, h2, rfl⟩
    simp only [State.readNamed_eq_ok.2 hp, State.readNamed_eq_ok.2 hb, ok_bind]
    rw [if_neg (by omega), if_neg (by omega)]
    exact State.writeNamed_eq_ok.2 ⟨k, hk, rfl⟩

/-- A pop that succeeds passed its check, moved the pointer and then wrote the destination (R197). -/
theorem State.pop_eq_ok {s t : State} {d : Nat} : s.pop d = .ok t ↔
    ∃ p k, s.named? rspName = some p ∧ s.cfg.position? rspName = some k ∧ p.u + 8 ≤ s.cfg.memSize ∧
      t = (s.writeReg k (wrap64 (p.u + 8))).writeReg d (s.mem.readWord p.toNat) := by
  unfold State.pop
  constructor
  · intro h
    simp only [bind_eq_ok, State.readNamed_eq_ok] at h
    obtain ⟨p, hp, h⟩ := h
    split at h
    · simp at h
    · rename_i h1
      simp only [pure, Except.pure, bind_eq_ok, State.writeNamed_eq_ok, Except.ok.injEq] at h
      obtain ⟨u, ⟨k, hk, rfl⟩, rfl⟩ := h
      exact ⟨p, k, hp, hk, by omega, rfl⟩
  · rintro ⟨p, k, hp, hk, h1, rfl⟩
    simp only [State.readNamed_eq_ok.2 hp, ok_bind]
    rw [if_neg (by omega)]
    simp [pure, Except.pure, State.writeNamed_eq_ok.2 ⟨k, hk, rfl⟩]

theorem completes_execPush {value : Operand} {s : State} : Completes (.push value) s (execPush value s) := by
  refine completes_finish fun u hu => ?_
  simp only [bind_eq_ok] at hu
  obtain ⟨-, -, v, -, hu⟩ := hu
  obtain ⟨p, base, k, hp, hb, hk, h1, h2, rfl⟩ := State.push_eq_ok.1 hu
  exact .pushed _ v p base k rfl hp hb hk h1 h2

theorem completes_execPop {dest : Operand} {s : State} : Completes (.pop dest) s (execPop dest s) := by
  refine completes_finish fun u hu => ?_
  simp only [bind_eq_ok] at hu
  obtain ⟨d, hd, hu⟩ := hu
  obtain ⟨p, k, hp, hk, h1, rfl⟩ := State.pop_eq_ok.1 hu
  exact .popped _ p k d rfl (State.checkDest_eq_ok.1 hd) hp hk h1

theorem completes_execRdump {s : State} : Completes .rdump s (execRdump s) := by
  refine completes_finish fun u hu => ?_
  simp only [State.dumped, bind_eq_ok, pure, Except.pure, Except.ok.injEq] at hu
  obtain ⟨lines, hl, rfl⟩ := hu
  exact .dumped lines rfl hl

/-- What `exec` can do: complete with one effect of the instruction, or raise an error that leaves no trace. -/
theorem exec_completes (i : Instr) (s : State) : Completes i s (exec i s) := by
  cases i with
  | mov d a => exact completes_execMov
  | add2 d a => exact completes_aluFrame2 rfl
  | add3 d a b => exact completes_aluFrame3 rfl
  | sub2 d a => exact completes_aluFrame2 rfl
  | sub3 d a b => exact completes_aluFrame3 rfl
  | and2 d a => exact completes_aluFrame2 rfl
  | and3 d a b => exact completes_aluFrame3 rfl
  | or2 d a => exact completes_aluFrame2 rfl
  | or3 d a b => exact completes_aluFrame3 rfl
  | xor2 d a => exact completes_aluFrame2 rfl
  | xor3 d a b => exact completes_aluFrame3 rfl
  | mul2 d a => exact completes_aluFrame2 rfl
  | mul3 d a b => exact completes_aluFrame3 rfl
  | div2 d a => exact completes_aluFrame2 rfl
  | div3 d a b => exact completes_aluFrame3 rfl
  | neg d => exact completes_aluFrame1 rfl
  | bitNot d => exact completes_aluFrame1 rfl
  | lsl d a => exact completes_aluFrame2 rfl
  | lsr d a => exact completes_aluFrame2 rfl
  | cmp a b => exact completes_execCmp
  | push a => exact completes_execPush
  | pop d => exact completes_execPop
  | rdump => exact completes_execRdump

end Sys2Proof.Machine
end

