-- ==== Sys2Proof/Laws/PerInstr.lean ====
section
/-! SUPPORT. Facts about every form as syntax, one lemma a constructor. -/

/-- The form's operand count is one its opcode accepts, its first operand is a destination exactly when its opcode's
forms have one (`30_encoding.md` R85), and the opcode and the operands make the form again. -/
def Sys2Proof.Laws.FormShape.Statement (i : Sys2Proof.Instr) : Prop :=
  i.operands.length ∈ i.opcode.arities ∧ i.opcode.hasDest = i.dest?.isSome ∧
    Sys2Proof.Instr.build? i.opcode i.operands = some i

namespace Sys2Proof.Laws.FormShape

theorem mov (d a : Operand) : Statement (.mov d a) := ⟨by simp [Instr.operands, Instr.dest?, Instr.sources, Instr.opcode, Opcode.arities], rfl, rfl⟩

theorem add2 (d a : Operand) : Statement (.add2 d a) := ⟨by simp [Instr.operands, Instr.dest?, Instr.sources, Instr.opcode, Opcode.arities], rfl, rfl⟩

theorem add3 (d a b : Operand) : Statement (.add3 d a b) := ⟨by simp [Instr.operands, Instr.dest?, Instr.sources, Instr.opcode, Opcode.arities], rfl, rfl⟩

theorem sub2 (d a : Operand) : Statement (.sub2 d a) := ⟨by simp [Instr.operands, Instr.dest?, Instr.sources, Instr.opcode, Opcode.arities], rfl, rfl⟩

theorem sub3 (d a b : Operand) : Statement (.sub3 d a b) := ⟨by simp [Instr.operands, Instr.dest?, Instr.sources, Instr.opcode, Opcode.arities], rfl, rfl⟩

theorem and2 (d a : Operand) : Statement (.and2 d a) := ⟨by simp [Instr.operands, Instr.dest?, Instr.sources, Instr.opcode, Opcode.arities], rfl, rfl⟩

theorem and3 (d a b : Operand) : Statement (.and3 d a b) := ⟨by simp [Instr.operands, Instr.dest?, Instr.sources, Instr.opcode, Opcode.arities], rfl, rfl⟩

theorem or2 (d a : Operand) : Statement (.or2 d a) := ⟨by simp [Instr.operands, Instr.dest?, Instr.sources, Instr.opcode, Opcode.arities], rfl, rfl⟩

theorem or3 (d a b : Operand) : Statement (.or3 d a b) := ⟨by simp [Instr.operands, Instr.dest?, Instr.sources, Instr.opcode, Opcode.arities], rfl, rfl⟩

theorem xor2 (d a : Operand) : Statement (.xor2 d a) := ⟨by simp [Instr.operands, Instr.dest?, Instr.sources, Instr.opcode, Opcode.arities], rfl, rfl⟩

theorem xor3 (d a b : Operand) : Statement (.xor3 d a b) := ⟨by simp [Instr.operands, Instr.dest?, Instr.sources, Instr.opcode, Opcode.arities], rfl, rfl⟩

theorem mul2 (d a : Operand) : Statement (.mul2 d a) := ⟨by simp [Instr.operands, Instr.dest?, Instr.sources, Instr.opcode, Opcode.arities], rfl, rfl⟩

theorem mul3 (d a b : Operand) : Statement (.mul3 d a b) := ⟨by simp [Instr.operands, Instr.dest?, Instr.sources, Instr.opcode, Opcode.arities], rfl, rfl⟩

theorem div2 (d a : Operand) : Statement (.div2 d a) := ⟨by simp [Instr.operands, Instr.dest?, Instr.sources, Instr.opcode, Opcode.arities], rfl, rfl⟩

theorem div3 (d a b : Operand) : Statement (.div3 d a b) := ⟨by simp [Instr.operands, Instr.dest?, Instr.sources, Instr.opcode, Opcode.arities], rfl, rfl⟩

theorem neg (d : Operand) : Statement (.neg d) := ⟨by simp [Instr.operands, Instr.dest?, Instr.sources, Instr.opcode, Opcode.arities], rfl, rfl⟩

theorem bitNot (d : Operand) : Statement (.bitNot d) := ⟨by simp [Instr.operands, Instr.dest?, Instr.sources, Instr.opcode, Opcode.arities], rfl, rfl⟩

theorem lsl (d a : Operand) : Statement (.lsl d a) := ⟨by simp [Instr.operands, Instr.dest?, Instr.sources, Instr.opcode, Opcode.arities], rfl, rfl⟩

theorem lsr (d a : Operand) : Statement (.lsr d a) := ⟨by simp [Instr.operands, Instr.dest?, Instr.sources, Instr.opcode, Opcode.arities], rfl, rfl⟩

theorem cmp (a b : Operand) : Statement (.cmp a b) := ⟨by simp [Instr.operands, Instr.dest?, Instr.sources, Instr.opcode, Opcode.arities], rfl, rfl⟩

theorem push (a : Operand) : Statement (.push a) := ⟨by simp [Instr.operands, Instr.dest?, Instr.sources, Instr.opcode, Opcode.arities], rfl, rfl⟩

theorem pop (d : Operand) : Statement (.pop d) := ⟨by simp [Instr.operands, Instr.dest?, Instr.sources, Instr.opcode, Opcode.arities], rfl, rfl⟩

theorem rdump : Statement (.rdump) := ⟨by simp [Instr.operands, Instr.dest?, Instr.sources, Instr.opcode, Opcode.arities], rfl, rfl⟩

end Sys2Proof.Laws.FormShape
end

