-- ==== Sys2Proof/Laws/Safety.lean ====
section
/-! SUPPORT. The terms of `Sys2Proof/Safety.lean` over the shared operations: what a register write amounts to, and
that every update keeps the invariant. -/

namespace Sys2Proof.Machine

/-! ## Register writes -/

/-- A checked destination has a place in the register file. -/
theorem State.Inv.dest_lt {s : State} {o : Operand} {d : Nat} (h : s.Inv) (hd : s.dest? o = some d) :
    d < s.regs.length := by
  rw [h.2.1]; exact (State.dest?_eq_some hd).2

/-- Writing a register and answering `OK` changes nothing else (`40_execution.md` R113). -/
theorem State.wroteRegister {s : State} {d : Nat} (v : Word) (hd : d < s.regs.length) :
    s.WroteRegister ((s.writeReg d v).reply (.status .ok)) d v := by
  refine ⟨by simpa using State.reg?_writeReg_self v hd, ?_, ?_, ?_, ?_, ?_⟩
  · intro k hk; simpa using State.reg?_writeReg_other s v (by simpa using hk)
  · intro f; simp
  · intro a; simp
  · simp [State.OthersKept]
  · simp [State.RepliedOk]

/-- What the two-operand frame writes (`40_execution.md` R118). -/
theorem aluFrame2_writes {s : State} {op : AluOp} {dest src : Operand} {d : Nat} {a b r : Word} {P : Word → Prop}
    (hi : s.Inv) (hd : s.dest? dest = some d) (ha : s.reg? d = some a) (hb : s.source? src = some b)
    (hr : alu op a b = some r) (hP : P r) : s.Writes (aluFrame2 op dest src s) d P :=
  ⟨_, r, aluFrame2_ok hd ha hb hr, State.wroteRegister r (hi.dest_lt hd), hP⟩

/-- What the three-operand frame writes (`40_execution.md` R119). -/
theorem aluFrame3_writes {s : State} {op : AluOp} {dest src1 src2 : Operand} {d : Nat} {a b r : Word}
    {P : Word → Prop} (hi : s.Inv) (hd : s.dest? dest = some d) (ha : s.source? src1 = some a)
    (hb : s.source? src2 = some b) (hr : alu op a b = some r) (hP : P r) :
    s.Writes (aluFrame3 op dest src1 src2 s) d P :=
  ⟨_, r, aluFrame3_ok hd ha hb hr, State.wroteRegister r (hi.dest_lt hd), hP⟩

/-- What the one-operand frame writes (`40_execution.md` R120). -/
theorem aluFrame1_writes {s : State} {op : AluOp} {dest : Operand} {d : Nat} {a r : Word} {P : Word → Prop}
    (hi : s.Inv) (hd : s.dest? dest = some d) (ha : s.reg? d = some a) (hr : alu op a 0 = some r) (hP : P r) :
    s.Writes (aluFrame1 op dest s) d P :=
  ⟨_, r, aluFrame1_ok hd ha hr, State.wroteRegister r (hi.dest_lt hd), hP⟩

/-! ## The invariant under each update -/

/-- The invariant reads the configuration, the registers, the memory and the flags alone. -/
theorem State.Inv.congr {s t : State} (h1 : t.cfg = s.cfg) (h2 : t.regs = s.regs) (h3 : t.mem = s.mem)
    (h4 : t.flags = s.flags) (h : s.Inv) : t.Inv := by
  have hn : ∀ n, t.named? n = s.named? n := by
    intro n
    unfold State.named?
    rw [h1]
    congr 1
    funext k
    simp [State.reg?, h2]
  simpa only [State.Inv, h1, h2, h3, h4, hn] using h

theorem State.Inv.writeReg {s : State} (k : Nat) (v : Word) (h : s.Inv) : (s.writeReg k v).Inv := by
  have key : ∀ n, (s.named? n).isSome = true → ((s.writeReg k v).named? n).isSome = true := by
    intro n hn
    obtain ⟨w, hw⟩ := Option.isSome_iff_exists.1 hn
    obtain ⟨j, hj, hr⟩ := State.named?_eq_some hw
    rw [State.named?_eq (k := j) (by simpa using hj)]
    by_cases hjk : j = k
    · subst hjk
      rw [State.reg?_writeReg_self v (State.lt_of_reg? hr)]
      rfl
    · rw [State.reg?_writeReg_other s v hjk, hr]
      rfl
  refine ⟨h.1, by simpa using h.2.1, h.2.2.1, h.2.2.2.1, h.2.2.2.2.1, ?_, key _ h.2.2.2.2.2.2.1,
    key _ h.2.2.2.2.2.2.2⟩
  intro hz hm
  rcases List.mem_or_eq_of_mem_set hm with hm | hm
  · exact h.2.2.2.2.2.1 hz hm
  · simp at hm

theorem State.Inv.setFlag {s : State} (f : Text) (b : Bool) (h : s.Inv) : (s.setFlag f b).Inv :=
  ⟨h.1, h.2.1, h.2.2.1, h.2.2.2.1, FlagSet.wf_set f b h.2.2.2.2.1, h.2.2.2.2.2.1, h.2.2.2.2.2.2.1, h.2.2.2.2.2.2.2⟩

theorem State.Inv.withMem {s : State} {m : Memory} (h : s.Inv) (hm : m.wf) (hb : ∀ c ∈ m, c.1 < s.cfg.memSize) :
    (s.withMem m).Inv :=
  ⟨h.1, h.2.1, hm, hb, h.2.2.2.2.1, h.2.2.2.2.2.1, h.2.2.2.2.2.2.1, h.2.2.2.2.2.2.2⟩

theorem State.Inv.reply {s : State} (r : Reply) (h : s.Inv) : (s.reply r).Inv := h.congr rfl rfl rfl rfl

theorem State.Inv.emit {s : State} (ts : List Text) (h : s.Inv) : (s.emit ts).Inv := h.congr rfl rfl rfl rfl

/-! ## Outcomes taken apart -/

/-- Ending without completing answers a next state only by raising. -/
theorem State.stop_eq_next {s t : State} {e : Stop} (h : s.stop e = .next t) :
    ∃ k, e = .raised k ∧ t = s.reply (.status (.error k)) := by
  cases e <;> simp [State.stop, State.raise] at h
  exact ⟨_, rfl, h.symm⟩

/-- What the feeder hands on. -/
theorem feedAfter_eq_next {o : Result} {t : State} (h : feedAfter o = .next t) : ∃ u, o = .next u ∧ t = u.feed := by
  cases o <;> simp [feedAfter] at h
  exact ⟨_, rfl, h.symm⟩

/-! ## Descriptor checks -/

/-- A destination with no descriptor error names a register. -/
theorem State.checkDest_of_noError {s : State} {o : Operand} (h : destError s.cfg o = none) :
    ∃ k, o = .reg k ∧ s.checkDest o = .ok k ∧ k < s.cfg.regNames.length := by
  cases o with
  | imm v => simp [destError] at h
  | bad a b => simp [destError] at h
  | reg k =>
    simp only [destError] at h
    split at h
    · rename_i hk
      exact ⟨k, rfl, by simp [State.checkDest, hk], hk⟩
    · simp at h

/-- A destination with a descriptor error raises it. -/
theorem State.checkDest_of_error {s : State} {o : Operand} {e : ErrorKind} (h : destError s.cfg o = some e) :
    s.checkDest o = .error (.raised e) := by
  cases o <;> simp only [destError] at h <;> simp only [State.checkDest]
  · simp_all
  · split at h <;> simp_all
  · simp_all

/-- A source with no descriptor error passes its check. -/
theorem State.checkSource_of_noError {s : State} {o : Operand} (h : sourceError s.cfg o = none) :
    s.checkSource o = .ok () := by
  cases o <;> simp only [sourceError] at h <;> simp only [State.checkSource]
  · split at h <;> simp_all
  · simp at h

/-- A source with a descriptor error raises it. -/
theorem State.checkSource_of_error {s : State} {o : Operand} {e : ErrorKind} (h : sourceError s.cfg o = some e) :
    s.checkSource o = .error (.raised e) := by
  cases o <;> simp only [sourceError] at h <;> simp only [State.checkSource]
  · simp at h
  · split at h <;> simp_all
  · simp_all

end Sys2Proof.Machine
end

