-- ==== Sys2Proof/Tests/Slice0.lean ====
section
/-! SUPPORT. Tests: expected results are those of `spec/95_test_vectors.md` (its numbers stand in the docstrings) or
worked out by hand from the rule named. The witnesses at the end meet the hypotheses of the statements. -/

namespace Sys2Proof.Tests

open Sys2Proof Sys2Proof.Machine

-- Many small kernel evaluations at once would start more threads than the check's memory limit admits.
set_option Elab.async false

/-! ## Helpers -/

/-- The outcome is a next state with a property. -/
def nextWith (o : Result) (P : State → Prop) [DecidablePred P] : Bool :=
  match o with
  | .next t => decide (P t)
  | .fault _ => false
  | .refused _ => false

/-- What `nextWith` says. -/
theorem of_nextWith {o : Result} {P : State → Prop} [DecidablePred P] (h : nextWith o P = true) :
    ∃ t, o = .next t ∧ P t := by
  cases o with
  | next t => exact ⟨t, rfl, by simpa [nextWith] using h⟩
  | fault f => simp [nextWith] at h
  | refused r => simp [nextWith] at h

/-- The outcome is this fault. -/
def isFault (o : Result) (f : Fault) : Bool :=
  match o with
  | .next _ => false
  | .fault g => decide (g = f)
  | .refused _ => false

/-- What `isFault` says. -/
theorem of_isFault {o : Result} {f : Fault} (h : isFault o f = true) : o = .fault f := by
  cases o <;> simp_all [isFault]

/-- The outcome is this refusal. -/
def isRefusal (o : Result) (r : Refusal) : Bool :=
  match o with
  | .next _ => false
  | .fault _ => false
  | .refused q => decide (q = r)

/-- `TEST_CFG` after reset (R8). -/
def s0 : State := State.resetWith testCfg

/-- The state with a register set by the host. -/
def put (s : State) (name : String) (v : Word) : State :=
  match s.cfg.position? name.toList with
  | some k => s.writeReg k v
  | none => s

/-- The line is stepped with status `OK`, and these registers then hold these values. -/
def gives (s : State) (line : String) (regs : List (String × Word)) : Bool :=
  nextWith (stepLine line.toList s)
    (fun t => t.replies = [.status .ok] ∧ ∀ p ∈ regs, t.named? p.1.toList = some p.2)

/-- The line is stepped with this error and no change. -/
def raises (s : State) (line : String) (e : ErrorKind) : Bool :=
  nextWith (stepLine line.toList s) (fun t => t = { s with replies := [.status (.error e)] })

/-! ## Well-formedness: one ill-formed term for each check -/

theorem test_wf_literal_destination : WellFormed testCfg (.mov (.imm 5) (.reg 1)) = false := by decide
theorem test_wf_destination_out_of_range : WellFormed testCfg (.neg (.reg 78)) = false := by decide
theorem test_wf_destination_of_no_kind : WellFormed testCfg (.pop (.bad 2 1)) = false := by decide
theorem test_wf_source_out_of_range : WellFormed testCfg (.cmp (.imm 0) (.reg 78)) = false := by decide
theorem test_wf_source_of_no_kind : WellFormed testCfg (.push (.bad 0xFF 0)) = false := by decide
theorem test_wf_accepts : WellFormed testCfg (.add3 (.reg 77) (.reg 0) (.imm 5)) = true := by decide
theorem test_fits_position : Instr.fits (.neg (.reg (2 ^ 64))) = false ∧ Instr.fits (.push (.bad 1 0)) = false ∧
    Instr.fits (.push (.bad 0 0)) = false := by decide

/-! ## Decoding: words written out from `30_encoding.md` R90 to R92 -/

/-- Programs P1, P2 and vectors W1, W9. -/
theorem test_decode_move :
    decodeCommand [0x20, 1, 0x10, 0, 0, 0, 0, 0, 0, 0, 0, 0x88, 0x77, 0x66, 0x55, 0x44, 0x33, 0x22, 0x11] =
      .ok (.mov (.reg 16) (.imm 0x1122334455667788)) := by decide

/-- Section 3.3's encodings, program P1, program P4: the two-operand forms. -/
theorem test_decode_arith_two :
    decodeCommand [0x21, 1, 1, 0, 0, 0, 0, 0, 0, 0, 0, 1, 0, 0, 0, 0, 0, 0, 0] = .ok (.add2 (.reg 1) (.imm 1)) ∧
    decodeCommand [0x22, 1, 3, 0, 0, 0, 0, 0, 0, 0, 0, 0x1E, 0, 0, 0, 0, 0, 0, 0] = .ok (.sub2 (.reg 3) (.imm 30)) ∧
    decodeCommand [0x23, 1, 1, 0, 0, 0, 0, 0, 0, 0, 1, 2, 0, 0, 0, 0, 0, 0, 0] = .ok (.and2 (.reg 1) (.reg 2)) ∧
    decodeCommand [0x24, 1, 1, 0, 0, 0, 0, 0, 0, 0, 1, 2, 0, 0, 0, 0, 0, 0, 0] = .ok (.or2 (.reg 1) (.reg 2)) ∧
    decodeCommand [0x25, 1, 1, 0, 0, 0, 0, 0, 0, 0, 1, 2, 0, 0, 0, 0, 0, 0, 0] = .ok (.xor2 (.reg 1) (.reg 2)) ∧
    decodeCommand [0x26, 1, 1, 0, 0, 0, 0, 0, 0, 0, 1, 2, 0, 0, 0, 0, 0, 0, 0] = .ok (.mul2 (.reg 1) (.reg 2)) ∧
    decodeCommand [0x27, 1, 1, 0, 0, 0, 0, 0, 0, 0, 0, 0, 0, 0, 0, 0, 0, 0, 0] = .ok (.div2 (.reg 1) (.imm 0)) := by
  decide

/-- Section 3.3's encodings and programs P1, P4, P5: the three-operand forms. -/
theorem test_decode_arith_three :
    decodeCommand [0x31, 1, 24, 0, 0, 0, 0, 0, 0, 0, 1, 16, 0, 0, 0, 0, 0, 0, 0, 1, 40, 0, 0, 0, 0, 0, 0, 0] =
      .ok (.add3 (.reg 24) (.reg 16) (.reg 40)) ∧
    decodeCommand [0x32, 1, 1, 0, 0, 0, 0, 0, 0, 0, 1, 2, 0, 0, 0, 0, 0, 0, 0, 0, 4, 0, 0, 0, 0, 0, 0, 0] =
      .ok (.sub3 (.reg 1) (.reg 2) (.imm 4)) ∧
    decodeCommand [0x33, 1, 1, 0, 0, 0, 0, 0, 0, 0, 1, 2, 0, 0, 0, 0, 0, 0, 0, 0, 4, 0, 0, 0, 0, 0, 0, 0] =
      .ok (.and3 (.reg 1) (.reg 2) (.imm 4)) ∧
    decodeCommand [0x34, 1, 1, 0, 0, 0, 0, 0, 0, 0, 1, 2, 0, 0, 0, 0, 0, 0, 0, 0, 4, 0, 0, 0, 0, 0, 0, 0] =
      .ok (.or3 (.reg 1) (.reg 2) (.imm 4)) ∧
    decodeCommand [0x35, 1, 1, 0, 0, 0, 0, 0, 0, 0, 1, 1, 0, 0, 0, 0, 0, 0, 0, 0, 0xFF, 0, 0, 0, 0, 0, 0, 0] =
      .ok (.xor3 (.reg 1) (.reg 1) (.imm 0xFF)) ∧
    decodeCommand [0x36, 1, 3, 0, 0, 0, 0, 0, 0, 0, 1, 1, 0, 0, 0, 0, 0, 0, 0, 1, 2, 0, 0, 0, 0, 0, 0, 0] =
      .ok (.mul3 (.reg 3) (.reg 1) (.reg 2)) ∧
    decodeCommand [0x37, 1, 4, 0, 0, 0, 0, 0, 0, 0, 1, 1, 0, 0, 0, 0, 0, 0, 0, 1, 2, 0, 0, 0, 0, 0, 0, 0] =
      .ok (.div3 (.reg 4) (.reg 1) (.reg 2)) := by decide

/-- Sections 3.4 to 3.8's encodings. -/
theorem test_decode_other_families :
    decodeCommand [0x18, 1, 1, 0, 0, 0, 0, 0, 0, 0] = .ok (.neg (.reg 1)) ∧
    decodeCommand [0x19, 1, 1, 0, 0, 0, 0, 0, 0, 0] = .ok (.bitNot (.reg 1)) ∧
    decodeCommand [0x2A, 1, 1, 0, 0, 0, 0, 0, 0, 0, 0, 0x41, 0, 0, 0, 0, 0, 0, 0] = .ok (.lsl (.reg 1) (.imm 65)) ∧
    decodeCommand [0x2B, 1, 1, 0, 0, 0, 0, 0, 0, 0, 0, 4, 0, 0, 0, 0, 0, 0, 0] = .ok (.lsr (.reg 1) (.imm 4)) ∧
    decodeCommand [0x2C, 0, 3, 0, 0, 0, 0, 0, 0, 0, 0, 5, 0, 0, 0, 0, 0, 0, 0] = .ok (.cmp (.imm 3) (.imm 5)) ∧
    decodeCommand [0x1D, 1, 0x17, 0, 0, 0, 0, 0, 0, 0] = .ok (.push (.reg 23)) ∧
    decodeCommand [0x1E, 1, 0x35, 0, 0, 0, 0, 0, 0, 0] = .ok (.pop (.reg 53)) ∧
    decodeCommand [0x0F] = .ok .rdump := by decide

/-- R94 (1), (2) and a length that is none of R92's. -/
theorem test_decode_rejects :
    decodeCommand [0x60, 1, 0] = .error (.raised .unknownInstruction) ∧
    decodeCommand [0x30] = .error (.raised .arityMismatch) ∧ decodeCommand [0x1F] = .error (.raised .arityMismatch) ∧
    decodeCommand [0x0F, 0] = .error .notACommand ∧ decodeCommand [0x18, 1, 1] = .error .notACommand ∧
    decodeCommand [] = .error .notACommand := by decide

/-- The opcode table's numbering: its first row with zero descriptors, and the command of `NEG R1` (`18 01 01 ..`). -/
theorem test_decode_table_word :
    decodeTableWord 8 0x20 = some (.mov (.imm 0) (.imm 0)) ∧ decodeTableWord 80 0x10118 = some (.neg (.reg 1)) ∧
    decodeTableWord 8 0x0F = some .rdump ∧ decodeTableWord 8 0x40 = none := by decide

/-- Vectors T8, T10, T14, T20, T34 at the decoder. -/
theorem test_decode_lines :
    decodeLine testCfg "MOV R1, 007".toList = .ok (.mov (.reg 1) (.imm 7)) ∧
    decodeLine testCfg "MOV R1, 0x000000000000000000001".toList = .ok (.mov (.reg 1) (.imm 1)) ∧
    decodeLine testCfg "MOV R1, FOO".toList = .error (.raised .unknownRegister) ∧
    decodeLine testCfg "MOV R1,5".toList = .error (.raised .arityMismatch) ∧
    decodeLine testCfg "MOV FOO, BAR".toList = .error (.raised .unknownRegister) := by decide +kernel

/-! ## Lines and literals (section 3.1) -/

theorem test_T1_T2_empty : raises s0 "" .malformedInstruction = true ∧ raises s0 "  \t" .malformedInstruction = true ∧
    raises s0 ", ,," .malformedInstruction = true := by decide +kernel
theorem test_T4_lower_case_opcode : gives s0 "mov R1, 5" [("R1", 5)] = true := by decide +kernel
theorem test_T5_lower_case_register : raises s0 "MOV r1, 5" .invalidDestination = true := by decide +kernel
theorem test_T11_tabs : gives s0 "MOV\tR1,\t5" [("R1", 5)] = true := by decide +kernel
theorem test_T13_hex_too_large : raises s0 "MOV R1, 0x10000000000000000" .unknownOperand = true := by decide +kernel
theorem test_T17_decimal_largest : gives s0 "MOV R1, 18446744073709551615" [("R1", 0xFFFFFFFFFFFFFFFF)] = true := by
  decide +kernel
theorem test_T18_decimal_too_large : raises s0 "MOV R1, 18446744073709551616" .unknownOperand = true := by decide +kernel
theorem test_T19_decimal_signed_limit :
    raises (State.resetWith { testCfg with decMax := .signed63 }) "MOV R1, 9223372036854775808" .unknownOperand = true := by
  decide +kernel
theorem test_T23_float_rounds : gives s0 "MOV R1, 0.1" [("R1", 0x3FB999999999999A)] = true := by decide +kernel
theorem test_T25_float_exact : gives s0 "MOV R1, 10.25" [("R1", 0x4024800000000000)] = true := by decide +kernel
theorem test_T27_float_truncates :
    gives (State.resetWith { testCfg with floatMode := .truncate }) "MOV R1, 10.25" [("R1", 0x0A)] = true := by
  decide +kernel
theorem test_T28_float_refused :
    isRefusal (stepLine "MOV R1, 9223372036854775808.0".toList (State.resetWith { testCfg with floatMode := .truncate }))
      .floatLiteralOutOfRange = true := by decide +kernel
theorem test_T31_no_such_class : raises s0 "MOV R1, R8D" .unknownOperand = true := by decide +kernel
theorem test_T35_stage_order : raises s0 "MOV 5, FOO" .invalidDestination = true := by decide +kernel
theorem test_T37_unknown_opcode : raises s0 "JMP 5" .unknownInstruction = true := by decide +kernel

/-! ## Instructions (sections 3.2 to 3.8) -/

theorem test_M2_mov_aliases_are_independent :
    gives (put s0 "RAX" 7) "MOV EAX, RAX" [("EAX", 7), ("RAX", 7), ("AX", 0)] = true := by decide +kernel
theorem test_M5_mov_rsp : gives s0 "MOV RSP, 0x40" [("RSP", 0x40), ("SS", 0xE0)] = true := by decide +kernel
theorem test_A1_add_wraps : gives (put s0 "R1" 0xFFFFFFFFFFFFFFFF) "ADD R1, 1" [("R1", 0)] = true := by decide +kernel
theorem test_W5_add3 : gives (put (put s0 "R2" 3) "R4" 4) "ADD R1, R2, R4" [("R1", 7), ("R2", 3), ("R4", 4)] = true := by
  decide +kernel
theorem test_A3_sub_wraps : gives s0 "SUB R1, 1" [("R1", 0xFFFFFFFFFFFFFFFF)] = true := by decide +kernel
theorem test_A20_sub3_order : gives (put s0 "R2" 9) "SUB R1, R2, 4" [("R1", 5), ("R2", 9)] = true := by decide +kernel
theorem test_A9_and2 : gives (put s0 "R1" 0xF0F0) "AND R1, 0xFF00" [("R1", 0xF000)] = true := by decide +kernel
theorem test_A9_and3 : gives s0 "AND R1, 0xF0F0, 0xFF00" [("R1", 0xF000)] = true := by decide +kernel
theorem test_A10_or2 : gives (put s0 "R1" 0xF0F0) "OR R1, 0x0F0F" [("R1", 0xFFFF)] = true := by decide +kernel
theorem test_A10_or3 : gives s0 "OR R1, 0xF0F0, 0x0F0F" [("R1", 0xFFFF)] = true := by decide +kernel
theorem test_A11_xor2 :
    gives (put s0 "R1" 0xFFFFFFFFFFFFFFFF) "XOR R1, 0x5555555555555555" [("R1", 0xAAAAAAAAAAAAAAAA)] = true := by
  decide +kernel
theorem test_A11_xor3 :
    gives s0 "XOR R1, 0xFFFFFFFFFFFFFFFF, 0x5555555555555555" [("R1", 0xAAAAAAAAAAAAAAAA)] = true := by decide +kernel
theorem test_A7_mul2 : gives (put s0 "R1" 0x123456789) "MUL R1, 0x987654321" [("R1", 0xD77D742CCE1833A9)] = true := by
  decide +kernel
theorem test_A8_mul3 : gives s0 "MUL R1, 0xFFFFFFFFFFFFFFFF, 2" [("R1", 0xFFFFFFFFFFFFFFFE)] = true := by decide +kernel
theorem test_A13_div2_toward_zero :
    gives (put s0 "R1" 0xFFFFFFFFFFFFFFF9) "DIV R1, 2" [("R1", 0xFFFFFFFFFFFFFFFD)] = true := by decide +kernel
theorem test_W7_div2_by_zero : raises (put s0 "R1" 42) "DIV R1, 0" .divisionByZero = true := by decide +kernel
theorem test_A14_div3_overflow :
    gives s0 "DIV R1, 0x8000000000000000, 0xFFFFFFFFFFFFFFFF" [("R1", 0x8000000000000000)] = true := by decide +kernel
theorem test_A23_div3_operands_first : raises s0 "DIV R1, 0, FOO" .unknownRegister = true := by decide +kernel
theorem test_U4_neg : gives (put s0 "R1" 5) "NEG R1" [("R1", 0xFFFFFFFFFFFFFFFB)] = true := by decide +kernel
theorem test_U3_neg_least : gives (put s0 "R1" 0x8000000000000000) "NEG R1" [("R1", 0x8000000000000000)] = true := by
  decide +kernel
theorem test_U6_not : gives (put s0 "R1" 0xFF) "NOT R1" [("R1", 0xFFFFFFFFFFFFFF00)] = true := by decide +kernel
theorem test_S7_lsl : gives (put s0 "R1" 0xABCD) "LSL R1, 68" [("R1", 0xABCD0)] = true := by decide +kernel
theorem test_S2_lsl_full_width : gives (put s0 "R1" 1) "LSL R1, 64" [("R1", 1)] = true := by decide +kernel
theorem test_S7_lsr : gives (put s0 "R1" 0xABCD) "LSR R1, 68" [("R1", 0xABC)] = true := by decide +kernel
theorem test_S4_lsr_fills_zero : gives (put s0 "R1" 0xFFFFFFFFFFFFFFFF) "LSR R1, 1" [("R1", 0x7FFFFFFFFFFFFFFF)] = true := by
  decide +kernel

theorem test_K4_cmp_is_signed :
    nextWith (stepLine "CMP 0xFFFFFFFFFFFFFFFF, 0".toList s0)
      (fun t => t.flag zName = false ∧ t.flag nName = true) = true := by decide +kernel
theorem test_K11_cmp_keeps_other_flags :
    nextWith (stepLine "CMP 1, 2".toList (s0.setFlag "Q".toList true))
      (fun t => t.flag zName = false ∧ t.flag nName = true ∧ t.flag "Q".toList = true) = true := by decide +kernel

theorem test_P1_push_little_endian :
    nextWith (stepLine "PUSH 0x1122334455667788".toList s0)
      (fun t => t.mem = [(0xF8, 0x88), (0xF9, 0x77), (0xFA, 0x66), (0xFB, 0x55), (0xFC, 0x44), (0xFD, 0x33), (0xFE, 0x22),
        (0xFF, 0x11)] ∧ t.named? rspName = some 0xF8) = true := by decide +kernel
theorem test_P8_push_unbounded_address : raises (put s0 "RSP" 0) "PUSH 1" .stackOverflow = true := by decide +kernel
theorem test_P14_pop :
    gives ((put s0 "RSP" 0).withMem [(0, 0x2A)]) "POP R1" [("R1", 0x2A), ("RSP", 8)] = true := by decide +kernel
theorem test_P4_pop_rsp :
    gives ((put s0 "RSP" 0xF8).withMem [(0xF8, 0x34), (0xF9, 0x12)]) "POP RSP" [("RSP", 0x1234)] = true := by
  decide +kernel

/-- Vector D1. -/
theorem test_D1_rdump :
    nextWith (stepLine "RDUMP".toList s0) (fun t => t.out.length = 78 ∧
      t.out[0]? = some "R0: 0000000000000000\n".toList ∧ t.out[23]? = some "RSP: 0000000000000100\n".toList ∧
      t.out[53]? = some "SS: 00000000000000E0\n".toList ∧ t.out[77]? = some "XMM15: 0000000000000000\n".toList) = true := by
  decide +kernel
/-- Vector D5. -/
theorem test_D5_rdump_unwritten :
    isFault (stepLine "RDUMP".toList (State.resetWith { testCfg with regReset := .unwritten })) .readUnwritten = true := by
  decide +kernel

/-- R220's codes. -/
theorem test_status_codes :
    [Status.ok, .error .malformedInstruction, .error .unknownInstruction, .error .arityMismatch, .error .unknownOperand,
      .error .unknownRegister, .error .invalidDestination, .error .divisionByZero, .error .stackOverflow,
      .error .stackUnderflow, .error .outOfBounds].map Status.code = List.range 11 := by decide

/-! ## Ports (section 3.9) -/

theorem test_H1_H5_reads :
    nextWith (portGet rspName s0) (fun t => t = { s0 with replies := [.word 0x100] }) = true ∧
    nextWith (portGetFlag "C".toList s0) (fun t => t = { s0 with replies := [.flag false] }) = true := by decide +kernel
theorem test_H4_set : nextWith (portSet "AL".toList 0x1234 s0)
    (fun t => t.named? "AL".toList = some 0x1234 ∧ t.named? "RAX".toList = some 0) = true := by decide +kernel
theorem test_H7_H8_read :
    nextWith (portRead 0xFF s0) (fun t => t = { s0 with replies := [.byte 0] }) = true ∧
    nextWith (portRead 0x100 s0) (fun t => t = { s0 with replies := [.status (.error .outOfBounds)] }) = true := by
  decide +kernel
theorem test_write_below_zero : nextWith (portWrite (-1) 7 s0)
    (fun t => t = { s0 with replies := [.status (.error .outOfBounds)] }) = true := by decide +kernel

/-! ## The step -/

theorem test_fetch_runs_first :
    nextWith (step (s0.withFetchWord 80 0x1011A)) (fun t => t.replies = [.status (.error .arityMismatch)]) = true ∧
    nextWith (step (s0.withFetchWord 80 0x10119)) (fun t => t.named? "R1".toList = some 0xFFFFFFFFFFFFFFFF) = true := by
  decide +kernel
theorem test_abort_drops_the_rest :
    nextWith (step { State.resetWith { testCfg with feederPolicy := .abortRun } with
      inputs := [.line "FOO 1, 2".toList, .line "MOV R1, 5".toList, .get "R1".toList] })
      (fun t => t.inputs = [.get "R1".toList]) = true := by decide +kernel
theorem test_continue_keeps_the_rest :
    nextWith (step { s0 with inputs := [.line "FOO 1, 2".toList, .line "MOV R1, 5".toList] })
      (fun t => t.inputs = [.line "MOV R1, 5".toList]) = true := by decide +kernel

/-! ## Witnesses

A small instance: registers `R1`, `R2`, `RSP`, `SS` at positions 0 to 3, memory and stack as in `TEST_CFG`, the dump
in another order. -/

/-- The small configuration. -/
def tinyCfg : Config :=
  { testCfg with
    regNames := ["R1", "R2", "RSP", "SS"].map String.toList
    dumpOrder := ["SS", "RSP", "R1", "R2"].map String.toList }

/-- The small configuration with `REG_RESET = Unwritten`. -/
def tinyUnwritten : Config := { tinyCfg with regReset := .unwritten }

/-- Its reset states. -/
def tiny : State := State.resetWith tinyCfg
def bare : State := State.resetWith tinyUnwritten

/-- `tiny` with `R1 = 7`, `R2 = -2`. -/
def tiny2 : State := (tiny.writeReg 0 7).writeReg 1 (-2)

/-- `tiny` after `PUSH 0x1234`. -/
def pushed : State := (tiny.writeReg 2 0xF8).withMem [(0xF8, 0x34), (0xF9, 0x12)]

/-- ResetMeetsTheInvariant, ConstructionGivesTheResetState: valid configurations under both resets, and the named
ones. -/
theorem witness_valid : tinyCfg.Valid ∧ tinyUnwritten.Valid ∧ testCfg.Valid ∧ zeroCfg.Valid := by
  and_intros <;> decide +kernel
theorem witness_construction : ("R1".toList ∈ tinyCfg.regNames ∧ "R1".toList ≠ rspName ∧ "R1".toList ≠ ssName) ∧
    tinyCfg.regReset = .zero ∧ tinyUnwritten.regReset = .unwritten := by
  and_intros <;> decide +kernel

/-- InvalidConfigurationIsRefused: a configuration for each way to be invalid, and the extreme valid sizes. -/
theorem witness_invalid_configurations :
    (¬ { tinyCfg with regNames := [rspName, ssName, rspName] }.regNames.Nodup) ∧
    rspName ∉ { tinyCfg with regNames := [ssName] }.regNames ∧ ssName ∉ { tinyCfg with regNames := [rspName] }.regNames ∧
    [] ∈ { tinyCfg with regNames := [[], rspName, ssName] }.regNames ∧ { tinyCfg with memSize := 0 }.memSize < 1 ∧
    2 ^ 63 - 1 < { tinyCfg with memSize := 2 ^ 63 }.memSize ∧
    { tinyCfg with stackSize := 0x101 }.memSize < { tinyCfg with stackSize := 0x101 }.stackSize ∧
    (¬ { tinyCfg with dumpOrder := [] }.dumpOrder.Perm { tinyCfg with dumpOrder := [] }.regNames) ∧
    { tinyCfg with memSize := 1, stackSize := 0 }.Valid ∧ { tinyCfg with memSize := 2 ^ 63 - 1 }.Valid ∧
    { tinyCfg with stackSize := 0x100 }.Valid := by
  and_intros <;> decide +kernel

/-- The states the witnesses use meet the invariant. -/
theorem witness_inv : tiny.Inv ∧ bare.Inv ∧ tiny2.Inv ∧ pushed.Inv ∧ s0.Inv := by
  and_intros <;> decide +kernel

/-- StepKeepsTheInvariant, ConfigurationNeverChanges. -/
theorem witness_step : (tiny.ask (.line "PUSH 1".toList)).Inv ∧
    ∃ t, step (tiny.ask (.line "PUSH 1".toList)) = .next t ∧ t.mem = [(0xF8, 1)] :=
  ⟨by decide +kernel, of_nextWith (by decide +kernel)⟩

/-- StepRunsTheDecodedInstruction: the clauses on commands, lines, each request, the policy and table words. -/
theorem witness_step_runs :
    (tiny.ask (.command [0x0F])).inputs = .command [0x0F] :: [] ∧ decodeCommand [0x0F] = .ok .rdump ∧
    (tiny.ask (.line "NEG R1".toList)).inputs = .line "NEG R1".toList :: [] ∧
    decodeLine (tiny.ask (.line "NEG R1".toList)).cfg "NEG R1".toList = .ok (.neg (.reg 0)) ∧
    (∀ r : Request, (tiny.ask r).inputs = r :: []) ∧ tiny.cfg.feederPolicy = .continueRun ∧
    decodeTableWord 80 0x10118 = some (.neg (.reg 1)) :=
  ⟨rfl, by decide, rfl, by decide +kernel, fun _ => rfl, rfl, by decide⟩

/-- IdleBlockKeepsItsState. -/
theorem witness_idle : State.reset.inputs = [] := rfl

/-- EveryInstructionAnswers, RdumpEmitsEveryRegister: every register written, and one that holds no value. -/
theorem witness_all_written : tiny.Inv ∧ tiny.AllWritten ∧ bare.Inv ∧ none ∈ bare.regs := by
  and_intros <;> decide +kernel

/-- InstructionsStopOnlyOnUnwrittenReads, ReadingARegisterWithNoValueFaults: an instruction that faults, the operand
it reads, and a register `get` finds without a value. -/
theorem witness_unwritten :
    (bare.Inv ∧ exec (.add2 (.reg 0) (.imm 1)) bare = .fault .readUnwritten) ∧
    (firstError bare.cfg (.cmp (.imm 0) (.reg 1)) = none ∧ bare.source? (.reg 1) = none ∧
      Operand.reg 1 ∈ readDests (.cmp (.imm 0) (.reg 1)) ++ Instr.sources (.cmp (.imm 0) (.reg 1))) ∧
    (firstError bare.cfg (.neg (.reg 0)) = none ∧ bare.source? (.reg 0) = none ∧
      Operand.reg 0 ∈ readDests (.neg (.reg 0)) ++ Instr.sources (.neg (.reg 0))) ∧
    "R1".toList ∈ bare.cfg.regNames ∧ bare.named? "R1".toList = none :=
  ⟨⟨by decide +kernel, of_isFault (by decide +kernel)⟩, by and_intros <;> decide +kernel⟩

/-- ErrorsLeaveNoTrace: an instruction, a line and a command that raise. -/
theorem witness_errors :
    (∃ t, exec (.div2 (.reg 0) (.imm 0)) tiny = .next t ∧ t.replies.getLast? = some (.status (.error .divisionByZero))) ∧
    (∃ t, stepLine "FOO 1, 2".toList tiny = .next t ∧
      t.replies.getLast? = some (.status (.error .unknownInstruction))) ∧
    (∃ t, stepCommand [0x40] tiny = .next t ∧ t.replies.getLast? = some (.status (.error .unknownInstruction))) :=
  ⟨of_nextWith (by decide +kernel), of_nextWith (by decide +kernel), of_nextWith (by decide +kernel)⟩

/-- InstructionsWriteOnlyTheirOwnState, OnlyPushStores, OnlyPopReadsMemory: an ALU form, `PUSH`, `POP` and `RDUMP`
completing, and positions no clause exempts (`R2`, and `RSP` for the ALU form). -/
theorem witness_frames :
    (∃ t, exec (.add2 (.reg 0) (.imm 1)) tiny = .next t ∧ t.reg? 0 = some 1) ∧
    (∃ t, exec (.push (.imm 1)) tiny = .next t ∧ t.mem = [(0xF8, 1)]) ∧
    (∃ t, exec (.pop (.reg 0)) pushed = .next t ∧ t.reg? 0 = some 0x1234) ∧
    (∃ t, exec .rdump tiny = .next t ∧ t.out.length = 4) ∧
    tiny.dest? (.reg 0) ≠ some 1 ∧ tiny.dest? (.reg 0) ≠ some 2 ∧ tiny.cfg.position? rspName ≠ some 1 :=
  ⟨of_nextWith (by decide +kernel), of_nextWith (by decide +kernel), of_nextWith (by decide +kernel),
    of_nextWith (by decide +kernel), by decide +kernel⟩

/-- OnlyCmpWritesFlags: `CMP` completing, another instruction completing, and a request that sets no flag. -/
theorem witness_flags :
    (∃ t, exec (.cmp (.imm 3) (.imm 5)) tiny = .next t ∧ t.replies = tiny.replies ++ [.status .ok] ∧ t.flag nName = true) ∧
    (∃ t, exec (.mov (.reg 0) (.imm 5)) (tiny.setFlag zName true) = .next t ∧ t.flag zName = true) ∧
    (∃ v, serve (.write 0 1) (tiny.setFlag "Q".toList true) = .next v ∧ v.flag "Q".toList = true) ∧
    "Q".toList ≠ zName ∧ "Q".toList ≠ nName :=
  ⟨of_nextWith (by decide +kernel), of_nextWith (by decide +kernel), of_nextWith (by decide +kernel), by decide +kernel⟩

/-- FlagsAndOutputAreReadByNoInstruction: two states with equal registers and memory that differ otherwise. -/
theorem witness_flags_not_read :
    let s' : State := (tiny.setFlag zName true).emit ["x".toList]
    s'.cfg = tiny.cfg ∧ s'.regs = tiny.regs ∧ s'.mem = tiny.mem ∧ s' ≠ tiny ∧
    ∃ t, exec .rdump tiny = .next t ∧ t.out.length = 4 :=
  ⟨rfl, rfl, rfl, by decide +kernel, of_nextWith (by decide +kernel)⟩

/-- CommandChecksInOrder, BytesThatAreNoCommand: a header for each of the first two checks (the least reserved value,
one operand too many) with as many bytes behind it as it counts, a good header with one byte too few and too many,
an instruction with an operand error, a command that decodes, and the four errors of the rules. -/
theorem witness_command_checks :
    ((0x40 : Byte).toNat / 64 ≠ 0 ∧ ([] : List Byte).length = 9 * ((0x40 : Byte).toNat / 16 % 4)) ∧
    ((0x30 : Byte).toNat / 64 = 0 ∧ Opcode.mov.tag.toNat = (0x30 : Byte).toNat % 16 ∧
      (0x30 : Byte).toNat / 16 % 4 ∉ Opcode.mov.arities ∧
      (List.replicate 27 (0 : Byte)).length = 9 * ((0x30 : Byte).toNat / 16 % 4)) ∧
    ((0x18 : Byte).toNat / 64 = 0 ∧ Opcode.neg.tag.toNat = (0x18 : Byte).toNat % 16 ∧
      (0x18 : Byte).toNat / 16 % 4 ∈ Opcode.neg.arities ∧
      (List.replicate 8 (0 : Byte)).length ≠ 9 * ((0x18 : Byte).toNat / 16 % 4) ∧
      (List.replicate 10 (0 : Byte)).length ≠ 9 * ((0x18 : Byte).toNat / 16 % 4)) ∧
    firstError tiny.cfg (.mov (.imm 5) (.reg 4)) = some .invalidDestination ∧
    decodeCommand [0x18, 1, 0, 0, 0, 0, 0, 0, 0, 0] = .ok (.neg (.reg 0)) ∧
    firstError tiny.cfg (.div2 (.reg 0) (.imm 0)) = none ∧
    (∃ t, exec (.div2 (.reg 0) (.imm 0)) tiny = .next t ∧ t.replies = [.status (.error .divisionByZero)]) ∧
    (∃ t, exec (.push (.imm 1)) (tiny.writeReg 2 0xE7) = .next t ∧ t.replies = [.status (.error .stackOverflow)]) ∧
    (∃ t, exec (.push (.imm 1)) (tiny.writeReg 2 0x101) = .next t ∧ t.replies = [.status (.error .outOfBounds)]) ∧
    (∃ t, exec (.pop (.reg 0)) tiny = .next t ∧ t.replies = [.status (.error .stackUnderflow)]) :=
  ⟨by decide, by decide, by decide, by decide +kernel, by decide, by decide +kernel, of_nextWith (by decide +kernel),
    of_nextWith (by decide +kernel), of_nextWith (by decide +kernel), of_nextWith (by decide +kernel)⟩

/-- LineErrorsInStageOrder: a line for each clause. -/
theorem witness_line_stages :
    tokens " ,\t".toList = [] ∧
    (tokens "FOO 1".toList = ["FOO".toList, "1".toList] ∧ ∀ o ∈ Opcode.all, o.mnemonic ≠ upper "FOO".toList) ∧
    (tokens "mov R1".toList = ["mov".toList, "R1".toList] ∧ Opcode.mov.mnemonic = upper "mov".toList ∧
      ["R1".toList].length ∉ Opcode.mov.arities) ∧
    (["R9".toList, "5".toList].length ∈ Opcode.mov.arities ∧ Opcode.mov.hasDest = true ∧
      tokenClass "R9".toList = .regName ∧ "R9".toList ∉ tiny.cfg.regNames ∧ tokenClass "r1".toList ≠ .regName) ∧
    (tokenClass "R1".toList = .regName ∧ "R1".toList ∈ tiny.cfg.regNames ∧
      decodeSource tiny.cfg "5".toList = .ok (.imm 5) ∧ tokenClass "-1".toList = .other) ∧
    Opcode.cmp.hasDest = false ∧
    (tokenClass "0x10000000000000000".toList = .hex ∧ 2 ^ 64 ≤ digitsValue 16 ("0x10000000000000000".toList.drop 2)) ∧
    tokenClass "18446744073709551616".toList = .dec ∧
    tiny.cfg.decMax.value < digitsValue 10 "18446744073709551616".toList := by
  and_intros <;> decide +kernel

/-- TokenRules: a whitespace character at each end of R72's list, and a run. -/
theorem witness_token_rules :
    ' ' ∈ [' ', '\t', '\n', Char.ofNat 0x0B, Char.ofNat 0x0C, '\r'] ∧
    '\r' ∈ [' ', '\t', '\n', Char.ofNat 0x0B, Char.ofNat 0x0C, '\r'] ∧ ['R', '1'] ≠ [] ∧
    ∀ c ∈ ['R', '1'], c ∉ [' ', '\t', '\n', Char.ofNat 0x0B, Char.ofNat 0x0C, '\r', ','] := by simp

/-- OpcodeTokenIsCaseInsensitive. -/
theorem witness_opcode_token : ∀ c ∈ ['m', 'o', 'v'], isWhitespace c = false := by simp [isWhitespace]

/-- TokenClassesAreThePatterns: a token of each class. -/
theorem witness_token_classes :
    tokenClass "0xfF".toList = .hex ∧ tokenClass "007".toList = .dec ∧ tokenClass "1.5".toList = .flt ∧
    tokenClass "R15".toList = .regName ∧ tokenClass "5.".toList = .other := by decide +kernel

/-- HexAndDecimalLiterals: digits at the last accepted value and the first refused one. -/
theorem witness_literals :
    (∀ c ∈ "FFFFFFFFFFFFFFFF".toList, c ∈ "0123456789ABCDEFabcdef".toList) ∧
    (∀ c ∈ "10000000000000000".toList, c ∈ "0123456789ABCDEFabcdef".toList) ∧
    Nat.ofDigits 16 ("FFFFFFFFFFFFFFFF".toList.reverse.map digitValue) = 2 ^ 64 - 1 ∧
    Nat.ofDigits 16 ("10000000000000000".toList.reverse.map digitValue) = 2 ^ 64 ∧
    (∀ c ∈ "18446744073709551615".toList, c ∈ "0123456789".toList) ∧
    Nat.ofDigits 10 ("18446744073709551615".toList.reverse.map digitValue) = testCfg.decMax.value := by
  and_intros <;> first | decide +kernel | simp

/-- FloatRoundingIsNearestEven: an exact value, a tie and the least value that becomes infinite. -/
theorem witness_float_rounding :
    roundBinary64 3 2 = .finite (3 * 2 ^ 51) 1022 ∧ roundBinary64 (2 ^ 53 + 1) 1 = .finite (2 ^ 52) 1075 ∧
    (2 ^ 54 - 1) * 2 ^ 970 * 1 ≤ (2 ^ 54 - 1) * 2 ^ 970 ∧ roundBinary64 ((2 ^ 54 - 1) * 2 ^ 970) 1 = .inf ∧
    roundBinary64 ((2 ^ 54 - 1) * 2 ^ 970 - 1) 1 = .finite (2 ^ 53 - 1) 2045 := by
  and_intros <;> decide +kernel

/-- FloatLiteralsInBothModes: both modes, a normal and a subnormal value, an integer part below and at 2^63. -/
theorem witness_float_literals :
    ("1".toList ≠ [] ∧ "5".toList ≠ [] ∧ ∀ c ∈ "1".toList ++ "5".toList, c ∈ "0123456789".toList) ∧
    testCfg.floatMode = .rawBits ∧ { testCfg with floatMode := .truncate }.floatMode = .truncate ∧
    (roundBinary64 15 10 = .finite (3 * 2 ^ 51) 1022 ∧ 2 ^ 52 ≤ 3 * 2 ^ 51 ∧ 3 * 2 ^ 51 * 2 ^ 1022 / 2 ^ 1074 < 2 ^ 63) ∧
    (roundBinary64 5 (10 ^ 324) = .finite 1 0 ∧ 1 < 2 ^ 52) ∧
    (roundBinary64 92233720368547758080 10 = .finite (2 ^ 52) 1085 ∧ 2 ^ 63 ≤ 2 ^ 52 * 2 ^ 1085 / 2 ^ 1074) ∧
    roundBinary64 (10 ^ 309) 1 = .inf := by
  and_intros <;> first | decide +kernel | simp

/-- DecodedLinesAreWellFormed, RenderedLinesDecodeBack. -/
theorem witness_lines :
    decodeLine tinyCfg "ADD R1, R2, 0xF".toList = .ok (.add3 (.reg 0) (.reg 1) (.imm 15)) ∧ tinyCfg.regNames.Nodup ∧
    WellFormed tinyCfg (.mov (.reg 0) (.reg 3)) = true ∧
    ∀ k ∈ [0, 3], tokenClass (tinyCfg.regNames.getD k []) = .regName := by
  and_intros <;> decide +kernel

/-- CommandsDecodeBack, CommandBytesHaveOneMeaning, ValidHeadersAreTheTables: operands at the ends of their ranges. -/
theorem witness_commands :
    Instr.fits (.add3 (.reg (2 ^ 64 - 1)) (.bad 2 0) (.imm 0xFFFFFFFFFFFFFFFF)) = true ∧
    decodeCommand [0x1D, 1, 0xFF, 0xFF, 0xFF, 0xFF, 0xFF, 0xFF, 0xFF, 0xFF] = .ok (.push (.reg (2 ^ 64 - 1))) := by
  and_intros <;> decide +kernel

/-- The result statements of `MOV`, the ALU forms, `NEG`, `NOT` and the shifts: a destination at each end of the
register file, register and literal sources, a zero and a nonzero divisor, and the overflow of `DIV`. -/
theorem witness_results :
    tiny2.Inv ∧ tiny2.dest? (.reg 0) = some 0 ∧ tiny2.dest? (.reg 3) = some 3 ∧ tiny2.reg? 0 = some 7 ∧
    tiny2.source? (.reg 1) = some (-2) ∧ tiny2.source? (.imm 0xFFFFFFFFFFFFFFFF) = some 0xFFFFFFFFFFFFFFFF ∧
    ((-2 : Word) ≠ 0 ∧ tiny2.source? (.imm 0) = some 0) ∧
    (tiny2.source? (.imm 0x8000000000000000) = some 0x8000000000000000 ∧ (0x8000000000000000 : Word).toInt = -(2 ^ 63) ∧
      (0xFFFFFFFFFFFFFFFF : Word).toInt = -1) := by
  and_intros <;> decide +kernel

/-- AluFramesAnswerByTag: its states and operands are those of `witness_results`; the ALU answers a word, and
indicates `DivisionByZero` for a zero divisor alone. -/
theorem witness_alu_by_tag :
    tiny2.Inv ∧ tiny2.dest? (.reg 0) = some 0 ∧ tiny2.reg? 0 = some 7 ∧ tiny2.source? (.reg 1) = some (-2) ∧
    tiny2.source? (.imm 0) = some 0 ∧ aluPort Opcode.div.tag 7 (-2) = some (some (-3)) ∧
    aluPort Opcode.div.tag 7 0 = some none := by
  and_intros <;> decide +kernel

/-- PushStoresBelowThePointer: an operand error; a pointer 7 and 8 above the base; at the top and one past it. -/
theorem witness_push :
    sourceError tiny.cfg (.reg 4) = some .unknownRegister ∧ tiny.source? (.imm 5) = some 5 ∧
    (tiny.named? rspName = some 0x100 ∧ tiny.named? ssName = some 0xE0 ∧
      ((0xE0 : Word).toNat : Int) ≤ ((0x100 : Word).toNat : Int) - 8 ∧ (0x100 : Word).toNat ≤ tiny.cfg.memSize) ∧
    ((tiny.writeReg 2 0xE8).named? rspName = some 0xE8 ∧ ((0xE0 : Word).toNat : Int) ≤ ((0xE8 : Word).toNat : Int) - 8) ∧
    ((tiny.writeReg 2 0xE7).named? rspName = some 0xE7 ∧ ((0xE7 : Word).toNat : Int) - 8 < (0xE0 : Word).toNat) ∧
    ((tiny.writeReg 2 0x101).named? rspName = some 0x101 ∧ tiny.cfg.memSize < (0x101 : Word).toNat ∧
      ((0xE0 : Word).toNat : Int) ≤ ((0x101 : Word).toNat : Int) - 8) ∧
    (tiny.writeReg 2 0xE8).Inv ∧ (tiny.writeReg 2 0xE7).Inv ∧ (tiny.writeReg 2 0x101).Inv := by
  and_intros <;> decide +kernel

/-- PopLoadsAtThePointer: a destination error; the last pointer that loads and the first that does not; `POP R1`,
and `POP RSP`, whose clause on the pointer does not apply. -/
theorem witness_pop :
    destError tiny.cfg (.imm 5) = some .invalidDestination ∧ tiny.dest? (.reg 0) = some 0 ∧
    (pushed.Inv ∧ pushed.named? rspName = some 0xF8 ∧ (0xF8 : Word).toNat + 8 ≤ pushed.cfg.memSize) ∧
    ((tiny.writeReg 2 0xF9).Inv ∧ (tiny.writeReg 2 0xF9).named? rspName = some 0xF9 ∧
      (tiny.writeReg 2 0xF9).cfg.memSize < (0xF9 : Word).toNat + 8) ∧
    tiny.cfg.position? rspName ≠ some 0 ∧ tiny.cfg.position? rspName = some 2 := by
  and_intros <;> decide +kernel

/-- PushThenPopRestores, HostSeesAPushAndPopSeesTheHost (first clause). -/
theorem witness_push_then_pop :
    tiny.source? (.imm 0x1234) = some 0x1234 ∧ tiny.dest? (.reg 0) = some 0 ∧ tiny.cfg.position? rspName ≠ some 0 ∧
    ∃ t, exec (.push (.imm 0x1234)) tiny = .next t ∧ t.replies = tiny.replies ++ [.status .ok] ∧
      t.named? rspName = some 0xF8 :=
  ⟨by decide +kernel, by decide +kernel, by decide +kernel, of_nextWith (by decide +kernel)⟩

/-- HostSeesAPushAndPopSeesTheHost (second clause). -/
theorem witness_host_writes :
    pushed.Inv ∧ pushed.dest? (.reg 0) = some 0 ∧ pushed.named? rspName = some 0xF8 ∧
    (0xF8 : Word).toNat + 8 ≤ pushed.cfg.memSize ∧ [(1 : Byte), 2, 3, 4, 5, 6, 7, 8].length = 8 ∧
    ∃ t, hostWrites (0xF8 : Word).toNat [1, 2, 3, 4, 5, 6, 7, 8] pushed = .next t ∧ t.mem.length = 8 :=
  ⟨by decide +kernel, by decide +kernel, by decide +kernel, by decide +kernel, rfl, of_nextWith (by decide +kernel)⟩

/-- StackRegistersAsOperands: each of its instructions completes. -/
theorem witness_stack_registers :
    (tiny.cfg.position? rspName = some 2 ∧ tiny.cfg.position? ssName = some 3 ∧ tiny.named? ssName = some 0xE0) ∧
    (∃ t, exec (.push (.reg 2)) tiny = .next t ∧ t.replies = tiny.replies ++ [.status .ok]) ∧
    (∃ t, exec (.push (.reg 3)) tiny = .next t ∧ t.replies = tiny.replies ++ [.status .ok]) ∧
    (∃ t, exec (.pop (.reg 2)) pushed = .next t ∧ t.replies = pushed.replies ++ [.status .ok]) ∧
    (∃ t, exec (.pop (.reg 3)) pushed = .next t ∧ t.replies = pushed.replies ++ [.status .ok]) :=
  ⟨by decide +kernel, of_nextWith (by decide +kernel), of_nextWith (by decide +kernel), of_nextWith (by decide +kernel),
    of_nextWith (by decide +kernel)⟩

/-- StackDisciplineIsKept: discipline at a full stack and an empty one, and an instruction whose destination is
neither stack register. -/
theorem witness_stack_discipline :
    tiny.StackDiscipline ∧ (tiny.writeReg 2 0xE0).StackDiscipline ∧ (tiny.writeReg 2 0xE0).Inv ∧
    (∃ t, exec (.pop (.reg 0)) (tiny.writeReg 2 0xE0) = .next t ∧ t.replies = [.status .ok]) ∧
    (Instr.pop (.reg 0)).dest? = some (.reg 0) ∧ tiny.dest? (.reg 0) = some 0 ∧
    tiny.cfg.position? rspName ≠ some 0 ∧ tiny.cfg.position? ssName ≠ some 0 :=
  ⟨⟨0x100, 0xE0, by decide +kernel⟩, ⟨0xE0, 0xE0, by decide +kernel⟩, by decide +kernel, of_nextWith (by decide +kernel),
    rfl, by decide +kernel, by decide +kernel, by decide +kernel⟩

/-- RdumpEmitsEveryRegister and DumpLineFormat: the first and the last line of a dump in its own order. -/
theorem witness_dump :
    tiny.Inv ∧ tiny.AllWritten ∧ tiny.cfg.dumpOrder[0]? = some ssName ∧ tiny.cfg.dumpOrder[3]? = some "R2".toList ∧
    dumpLine .lower "R1".toList 0xABCDEF = "R1: 0000000000abcdef\n".toList := by
  and_intros <;> decide +kernel

/-- RegisterPorts, MemoryPorts: names inside and outside the set, addresses at the ends of the range and past
them. -/
theorem witness_ports :
    tiny.Inv ∧ tiny.named? rspName = some 0x100 ∧ tiny.cfg.position? ssName = some 3 ∧
    "FOO".toList ∉ tiny.cfg.regNames ∧ "R1".toList ∈ tiny.cfg.regNames ∧ (0 : Int) ≤ 0 ∧ (0xFF : Int) < tiny.cfg.memSize ∧
    (tiny.cfg.memSize : Int) ≤ 0x100 ∧ (-1 : Int) < 0 := by
  and_intros <;> decide +kernel

/-- PortWritesReplyOk: each of the four operations succeeding. -/
theorem witness_port_writes :
    ("R1".toList ∈ tiny.cfg.regNames ∧ ∃ t, portSet "R1".toList 7 tiny = .next t ∧ t.reg? 0 = some 7) ∧
    (∃ t, portSetFlag "Q".toList true tiny = .next t ∧ t.flag "Q".toList = true) ∧
    (tiny.inBounds 0xFF ∧ ∃ t, portWrite 0xFF 1 tiny = .next t ∧ t.mem = [(0xFF, 1)]) ∧
    ∃ t, portDump tiny = .next t ∧ t.out.length = 4 :=
  ⟨⟨by decide +kernel, of_nextWith (by decide +kernel)⟩, of_nextWith (by decide +kernel),
    ⟨by decide +kernel, of_nextWith (by decide +kernel)⟩, of_nextWith (by decide +kernel)⟩

/-- How a run ends: 0 with a result, 1 in a fault, 2 in a refusal. -/
def runEnd (o : Host.Outcome RunResult Fault Refusal) : Nat :=
  match o with
  | .next _ => 0
  | .fault _ => 1
  | .refused _ => 2

/-- The statuses of a run with a result (R276). -/
def runStatuses (o : Host.Outcome RunResult Fault Refusal) : List Status :=
  match o with
  | .next r => r.statuses
  | .fault _ => []
  | .refused _ => []

/-- The small configuration with `FEEDER_POLICY = Abort`, after reset. -/
def tinyAbort : State := State.resetWith { tinyCfg with feederPolicy := .abortRun }

/-- LoadedProgramRunsAsDefined: a run with a result under each policy, the line behind the failing one
stepped under `Continue` alone, a run that faults and one that is refused. -/
theorem witness_runs :
    runEnd (runProgram tiny.cfg.feederPolicy ["MOV R1, 5".toList, "FOO".toList] (tiny.load [])) = 0 ∧
    runStatuses (runProgram tinyAbort.cfg.feederPolicy ["FOO".toList, "MOV R1, 5".toList] (tinyAbort.load [])) =
      [.error .unknownInstruction] ∧
    runStatuses (runProgram tiny.cfg.feederPolicy ["FOO".toList, "MOV R1, 5".toList] (tiny.load [])) =
      [.error .unknownInstruction, .ok] ∧
    runEnd (runProgram bare.cfg.feederPolicy ["NEG R1".toList] (bare.load [])) = 1 ∧
    runEnd (runProgram .continueRun ["PUSH 9223372036854775808.0".toList]
      ((State.resetWith { tinyCfg with floatMode := .truncate }).load [])) = 2 := by
  and_intros <;> decide +kernel

end Sys2Proof.Tests
end

section
/-! SUPPORT. The configuration of an instance: no step changes it (`00_scope.md` R7, `10_state.md` R40), and the
registers of the reset states it gives (`70_reset_and_hazards.md` R262). -/

namespace Sys2Proof.Machine

/-! ## The configuration under every outcome -/

/-- A next state, if the outcome is one, has the configuration of `s`. -/
def KeepsConfig (s : State) (o : Result) : Prop := ∀ t, o = .next t → t.cfg = s.cfg

theorem keepsConfig_next {s t : State} (h : t.cfg = s.cfg) : KeepsConfig s (.next t) := by
  rintro _ ⟨⟩
  exact h

theorem keepsConfig_raise (s : State) (e : ErrorKind) : KeepsConfig s (s.raise e) :=
  keepsConfig_next (s.reply_cfg _)

theorem keepsConfig_complete {s t : State} (h : t.cfg = s.cfg) : KeepsConfig s t.complete :=
  keepsConfig_next h

theorem keepsConfig_stop (s : State) (e : Stop) : KeepsConfig s (s.stop e) := by
  intro t ht
  obtain ⟨k, -, rfl⟩ := State.stop_eq_next ht
  exact s.reply_cfg _

/-! ## Instructions -/

/-- No effect of an instruction touches the configuration. -/
theorem Effect.cfg_eq {i : Instr} {s t : State} (h : Effect i s t) : t.cfg = s.cfg := by
  cases h with
  | wrote => exact State.writeReg_cfg ..
  | compared => exact State.compare_cfg ..
  | pushed => simp
  | popped => simp
  | dumped => exact State.emit_cfg ..

theorem Completes.keepsConfig {i : Instr} {s : State} {o : Result} (h : Completes i s o) : KeepsConfig s o := by
  intro t ht
  obtain ⟨u, hu, rfl⟩ | ⟨e, rfl⟩ := h t ht
  · simpa using hu.cfg_eq
  · exact s.reply_cfg _

theorem exec_keepsConfig (i : Instr) (s : State) : KeepsConfig s (exec i s) := (exec_completes i s).keepsConfig

theorem runDecoded_keepsConfig (d : Except DecodeError Instr) (s : State) : KeepsConfig s (runDecoded d s) := by
  cases d with
  | ok i => exact exec_keepsConfig i s
  | error e => exact keepsConfig_stop s _

/-- The feeder only drops pending requests. -/
@[simp] theorem State.feed_cfg (s : State) : s.feed.cfg = s.cfg := by
  unfold State.feed
  split <;> rfl

theorem feedAfter_keepsConfig {s : State} {o : Result} (h : KeepsConfig s o) : KeepsConfig s (feedAfter o) := by
  intro t ht
  obtain ⟨u, hu, rfl⟩ := feedAfter_eq_next ht
  simpa using h u hu

/-! ## Ports -/

theorem portGet_keepsConfig (name : Text) (s : State) : KeepsConfig s (portGet name s) := by
  unfold portGet
  split
  · exact keepsConfig_raise s _
  · split
    · exact keepsConfig_next (s.reply_cfg _)
    · exact keepsConfig_stop s _

theorem portSet_keepsConfig (name : Text) (value : Word) (s : State) : KeepsConfig s (portSet name value s) := by
  unfold portSet
  split
  · exact keepsConfig_raise s _
  · exact keepsConfig_complete (s.writeReg_cfg ..)

theorem portRead_keepsConfig (address : Int) (s : State) : KeepsConfig s (portRead address s) := by
  unfold portRead
  split
  · exact keepsConfig_next (s.reply_cfg _)
  · exact keepsConfig_raise s _

theorem portWrite_keepsConfig (address : Int) (b : Byte) (s : State) : KeepsConfig s (portWrite address b s) := by
  unfold portWrite
  split
  · exact keepsConfig_complete (s.withMem_cfg _)
  · exact keepsConfig_raise s _

/-! ## Requests -/

/-- Whatever is asked, serving it keeps the configuration. -/
theorem serve_keepsConfig (r : Request) (s : State) : KeepsConfig s (serve r s) := by
  cases r with
  | line text => exact feedAfter_keepsConfig (runDecoded_keepsConfig (decodeLine s.cfg text) s)
  | command bytes => exact feedAfter_keepsConfig (runDecoded_keepsConfig (decodeCommand bytes) s)
  | get name => exact portGet_keepsConfig name s
  | set name value => exact portSet_keepsConfig name value s
  | getFlag name => exact keepsConfig_next (s.reply_cfg _)
  | setFlag name b => exact keepsConfig_complete (s.setFlag_cfg ..)
  | dump =>
    -- The port shares the meaning of `RDUMP` (`10_state.md` R37).
    exact completes_execRdump.keepsConfig
  | read address => exact portRead_keepsConfig address s
  | write address b => exact portWrite_keepsConfig address b s

theorem step_keepsConfig (s : State) : KeepsConfig s (step s) := by
  unfold step
  split
  · exact keepsConfig_next rfl
  · exact serve_keepsConfig _ s.taken

/-- Settles O6: each request is served by an instruction or a port that writes other fields alone. -/
theorem configurationNeverChanges : Obligations.ConfigurationNeverChanges := step_keepsConfig

/-! ## Reset -/

/-- After reset a register of the configuration holds its reset value (`70_reset_and_hazards.md` R262). -/
theorem resetWith_named? {cfg : Config} {n : Text} (h : n ∈ cfg.regNames) :
    (State.resetWith cfg).named? n = Config.resetValue cfg n := by
  obtain ⟨k, hk⟩ := Option.isSome_iff_exists.1 (position?_isSome.2 h)
  obtain ⟨hlt, hname⟩ := position?_eq_some hk
  rw [State.named?_eq (s := State.resetWith cfg) hk]
  simp [State.reg?, State.resetWith, hlt, hname]

@[simp] theorem resetValue_rspName (cfg : Config) : Config.resetValue cfg rspName = some (wrap64 cfg.memSize) :=
  if_pos rfl

@[simp] theorem resetValue_ssName (cfg : Config) :
    Config.resetValue cfg ssName = some (wrap64 ((cfg.memSize : Int) - cfg.stackSize)) := by
  rw [Config.resetValue, if_neg (by decide), if_pos rfl]

/-- With `REG_RESET = Zero` every register but the two of the stack is reset to zero (`10_state.md` R27). -/
theorem resetValue_of_zero {cfg : Config} {n : Text} (hz : cfg.regReset = .zero) (hp : n ≠ rspName)
    (hs : n ≠ ssName) : Config.resetValue cfg n = some 0 := by
  rw [Config.resetValue, if_neg hp, if_neg hs, hz]

/-- Every configuration with the default names resets the stack pointer to the top of memory and the base below it
by the size of the stack (`70_reset_and_hazards.md` R261). -/
theorem resetWith_withSizes_stack (memSize stackSize : Nat) :
    (State.resetWith (.withSizes memSize stackSize)).named? rspName = some (wrap64 memSize) ∧
      (State.resetWith (.withSizes memSize stackSize)).named? ssName =
        some (wrap64 ((memSize : Int) - stackSize)) := by
  have hp : rspName ∈ defaultRegNames := by decide
  have hs : ssName ∈ defaultRegNames := by decide
  exact ⟨(resetWith_named? hp).trans (resetValue_rspName _), (resetWith_named? hs).trans (resetValue_ssName _)⟩

/-- With `ZERO_CFG` every other register is reset to zero (`00_scope.md` R8). -/
theorem reset_named?_eq_zero {n : Text} (h : n ∈ defaultRegNames) (hp : n ≠ rspName) (hs : n ≠ ssName) :
    State.reset.named? n = some 0 :=
  (resetWith_named? (cfg := zeroCfg) h).trans (resetValue_of_zero rfl hp hs)

/-- Settles O3: the sizes of the two configurations put into the reset values of R262. -/
theorem resetStatesOfTheNamedConfigurations : Obligations.ResetStatesOfTheNamedConfigurations := by
  obtain ⟨hrsp, hss⟩ := resetWith_withSizes_stack 0x0FFFFF 0x0FFFFF
  obtain ⟨hrsp', hss'⟩ := resetWith_withSizes_stack 0x100 0x20
  have hrax : State.reset.named? "RAX".toList = some 0 :=
    reset_named?_eq_zero (by decide) (by decide) (by decide)
  have hxmm : State.reset.named? "XMM15".toList = some 0 :=
    reset_named?_eq_zero (by decide) (by decide) (by decide)
  exact ⟨rfl, hrsp, hss, hrax, hxmm, rfl, hrsp', hss'⟩

end Sys2Proof.Machine
end

section
/-! SUPPORT. What serving a request can do, said once for every request, and the invariant of the block kept by every
step (`10_state.md` R20, R27, `20_memory.md` R50, `40_execution.md` R113). -/

namespace Sys2Proof.Machine

/-! ## What serving a request can do -/

/-- The states a served request can leave: a reply alone (a value read, or an error raised), an instruction's
effect completed, a port's write, and any of these after the feeder dropped pending requests. -/
inductive Served (s : State) : Request → State → Prop where
  | replied (r : Request) (p : Reply) : Served s r (s.reply p)
  | completed (r : Request) {i : Instr} {u : State} (h : Effect i s u) : Served s r (u.reply (.status .ok))
  | regSet (name : Text) (v : Word) (k : Nat) : Served s (.set name v) ((s.writeReg k v).reply (.status .ok))
  | flagSet (f : Text) (b : Bool) : Served s (.setFlag f b) ((s.setFlag f b).reply (.status .ok))
  | byteWritten (a : Int) (b : Byte) (h : s.inBounds a) :
      Served s (.write a b) ((s.withMem (s.mem.writeByte a.toNat b)).reply (.status .ok))
  | fed {r : Request} {t : State} (h : Served s r t) : Served s r t.feed

theorem Completes.served {i : Instr} {s t : State} {o : Result} (h : Completes i s o) (r : Request)
    (ht : o = .next t) : Served s r t := by
  obtain ⟨u, hu, rfl⟩ | ⟨e, rfl⟩ := h t ht
  · exact .completed r hu
  · exact .replied r _

theorem served_of_runDecoded {d : Except DecodeError Instr} {s t : State} (r : Request)
    (h : runDecoded d s = .next t) : Served s r t := by
  cases d with
  | ok i => exact (exec_completes i s).served r h
  | error e =>
    obtain ⟨k, -, rfl⟩ := State.stop_eq_next h
    exact .replied r _

theorem Served.of_feedAfter {r : Request} {s t : State} {o : Result} (ho : ∀ u, o = .next u → Served s r u)
    (h : feedAfter o = .next t) : Served s r t := by
  obtain ⟨u, hu, rfl⟩ := feedAfter_eq_next h
  exact (ho u hu).fed

theorem served_of_portGet {name : Text} {s t : State} (h : portGet name s = .next t) :
    Served s (.get name) t := by
  unfold portGet at h
  split at h
  · cases h; exact .replied _ _
  · split at h
    · cases h; exact .replied _ _
    · obtain ⟨k, -, rfl⟩ := State.stop_eq_next h
      exact .replied _ _

theorem served_of_portSet {name : Text} {v : Word} {s t : State} (h : portSet name v s = .next t) :
    Served s (.set name v) t := by
  unfold portSet at h
  split at h <;> cases h
  · exact .replied _ _
  · exact .regSet name v _

theorem served_of_portRead {a : Int} {s t : State} (h : portRead a s = .next t) : Served s (.read a) t := by
  unfold portRead at h
  split at h <;> cases h
  · exact .replied _ _
  · exact .replied _ _

theorem served_of_portWrite {a : Int} {b : Byte} {s t : State} (h : portWrite a b s = .next t) :
    Served s (.write a b) t := by
  unfold portWrite at h
  split at h <;> cases h
  · exact .byteWritten a b ‹_›
  · exact .replied _ _

/-- A request that answers a next state answers one of the listed ones. -/
theorem served_of_serve {r : Request} {s t : State} (h : serve r s = .next t) : Served s r t := by
  cases r with
  | line text => exact .of_feedAfter (fun _ => served_of_runDecoded _) h
  | command bytes => exact .of_feedAfter (fun _ => served_of_runDecoded _) h
  | get name => exact served_of_portGet h
  | set name value => exact served_of_portSet h
  | getFlag name => cases h; exact .replied _ _
  | setFlag name b => cases h; exact .flagSet name b
  | dump => exact completes_execRdump.served .dump h
  | read address => exact served_of_portRead h
  | write address b => exact served_of_portWrite h

/-! ## The invariant -/

@[simp] theorem State.feed_regs (s : State) : s.feed.regs = s.regs := by
  unfold State.feed
  split <;> rfl

@[simp] theorem State.feed_flags (s : State) : s.feed.flags = s.flags := by
  unfold State.feed
  split <;> rfl

@[simp] theorem State.feed_mem (s : State) : s.feed.mem = s.mem := by
  unfold State.feed
  split <;> rfl

theorem State.Inv.compare {s : State} (a b : Word) (h : s.Inv) : (s.compare a b).Inv :=
  (h.setFlag _ _).setFlag _ _

/-- A store of a word that ends inside the Memory Bank keeps the invariant. -/
theorem State.Inv.writeWord {s : State} {a : Nat} (v : Word) (h : s.Inv) (ha : a + 8 ≤ s.cfg.memSize) :
    (s.withMem (s.mem.writeWord a v)).Inv := by
  have ⟨_, _, hwf, hbound, _⟩ := h
  exact h.withMem (Memory.wf_writeWord a v hwf) (Memory.bound_writeWord v hbound ha)

/-- A byte stored inside the bounds keeps the invariant. -/
theorem State.Inv.writeByte {s : State} {a : Int} (b : Byte) (h : s.Inv) (ha : s.inBounds a) :
    (s.withMem (s.mem.writeByte a.toNat b)).Inv := by
  have ⟨_, _, hwf, hbound, _⟩ := h
  have hlt : a.toNat < s.cfg.memSize := by
    obtain ⟨h0, h1⟩ := ha
    omega
  exact h.withMem (Memory.wf_writeByte _ b hwf) (Memory.bound_writeByte hbound hlt)

/-- A push that passes its two checks stores inside the Memory Bank (`46_stack.md` R192). -/
theorem pushAddress_add_le {p base : Word} {n : Nat} (h1 : base.u ≤ p.u - 8) (h2 : p.u ≤ n) :
    pushAddress p + 8 ≤ n := by
  have := Word.u_nonneg base
  unfold pushAddress
  omega

theorem Effect.inv {i : Instr} {s u : State} (hs : s.Inv) (h : Effect i s u) : u.Inv := by
  cases h with
  | wrote d v => exact hs.writeReg d v
  | compared _ _ a b => exact hs.compare a b
  | pushed _ v p base k _ _ _ _ h1 h2 => exact (hs.writeWord v (pushAddress_add_le h1 h2)).writeReg k _
  | popped _ p k d => exact (hs.writeReg k _).writeReg d _
  | dumped lines => exact hs.emit lines

theorem Served.inv {r : Request} {s t : State} (hs : s.Inv) (h : Served s r t) : t.Inv := by
  induction h with
  | replied _ p => exact hs.reply p
  | completed _ hu => exact (hu.inv hs).reply _
  | regSet _ v k => exact (hs.writeReg k v).reply _
  | flagSet f b => exact (hs.setFlag f b).reply _
  | byteWritten _ b ha => exact (hs.writeByte b ha).reply _
  | fed _ ih => exact ih.congr (State.feed_cfg _) (State.feed_regs _) (State.feed_mem _) (State.feed_flags _)

/-- Settles O5: an idle step keeps the state, and every state a served request leaves meets the invariant. -/
theorem stepKeepsTheInvariant : Obligations.StepKeepsTheInvariant := by
  intro s t hs h
  unfold step at h
  split at h
  · cases h
    exact hs
  · have htaken : s.taken.Inv := hs.congr rfl rfl rfl rfl
    exact (served_of_serve h).inv htaken

end Sys2Proof.Machine
end

section
/-! SUPPORT. The flags under every instruction and every request (`10_state.md` R28, R29), and the register and flag
ports (R33 to R36). -/

namespace Sys2Proof.Machine

/-! ## Flags -/

@[simp] theorem State.feed_flag (s : State) (f : Text) : s.feed.flag f = s.flag f := by
  simp [State.flag]

/-- No effect but a comparison's touches the flags. -/
theorem Effect.flags_eq {i : Instr} {s u : State} (h : Effect i s u) (hi : ∀ a b, i ≠ .cmp a b) :
    u.flags = s.flags := by
  cases h with
  | wrote => exact State.writeReg_flags ..
  | compared a b _ _ hcmp => exact absurd hcmp (hi a b)
  | pushed => simp
  | popped => simp
  | dumped => exact State.emit_flags ..

/-- No effect touches a flag other than `Z` and `N`. -/
theorem Effect.flag_eq {i : Instr} {s u : State} (h : Effect i s u) {f : Text} (hz : f ≠ zName) (hn : f ≠ nName) :
    u.flag f = s.flag f := by
  cases h with
  | wrote => exact State.writeReg_flag ..
  | compared _ _ a b => exact (s.flag_compare a b).2.2 f hz hn
  | pushed => simp
  | popped => simp
  | dumped => exact State.emit_flag ..

/-- No request but `setFlag` touches a flag other than `Z` and `N`. -/
theorem Served.flag_eq {r : Request} {s t : State} (h : Served s r t) (hr : ∀ f b, r ≠ .setFlag f b) {f : Text}
    (hz : f ≠ zName) (hn : f ≠ nName) : t.flag f = s.flag f := by
  induction h with
  | replied => exact State.reply_flag ..
  | completed _ hu => simpa using hu.flag_eq hz hn
  | regSet => simp
  | flagSet g b => exact absurd rfl (hr g b)
  | byteWritten => simp
  | fed _ ih => simpa using ih hr

/-- Completing or raising, an instruction that is no comparison keeps every flag. -/
theorem exec_flagsKept {i : Instr} {s t : State} (h : exec i s = .next t) (hi : ∀ a b, i ≠ .cmp a b) :
    s.FlagsKept t := by
  intro f
  obtain ⟨u, hu, rfl⟩ | ⟨e, rfl⟩ := exec_completes i s t h
  · simp [State.flag, hu.flags_eq hi]
  · exact State.reply_flag ..

/-- Completing or raising, every instruction keeps the flags other than `Z` and `N`. -/
theorem exec_flag_eq {i : Instr} {s t : State} (h : exec i s = .next t) {f : Text} (hz : f ≠ zName)
    (hn : f ≠ nName) : t.flag f = s.flag f := by
  obtain ⟨u, hu, rfl⟩ | ⟨e, rfl⟩ := exec_completes i s t h
  · simpa using hu.flag_eq hz hn
  · exact State.reply_flag ..

/-- A `CMP` that answers `OK` read both sources and compared their values (`45_compare.md` R180). -/
theorem execCmp_of_repliedOk {a b : Operand} {s t : State} (h : execCmp a b s = .next t) (ht : s.RepliedOk t) :
    ∃ x y, s.source? a = some x ∧ s.source? b = some y ∧ t = (s.compare x y).reply (.status .ok) := by
  obtain ⟨u, hu, rfl⟩ | ⟨e, -, rfl⟩ := State.finish_eq_next h
  · simp only [bind_eq_ok, pure, Except.pure, Except.ok.injEq] at hu
    obtain ⟨⟨⟩, ha, ⟨⟩, hb, x, hx, y, hy, rfl⟩ := hu
    exact ⟨x, y, State.source?_eq_some.2 ⟨ha, hx⟩, State.source?_eq_some.2 ⟨hb, hy⟩, rfl⟩
  · simp [State.RepliedOk] at ht

/-- Settles O15: only the effect of a comparison touches flags, `Z` and `N`, and no port but `setFlag` does. -/
theorem onlyCmpWritesFlags : Obligations.OnlyCmpWritesFlags := by
  refine ⟨fun i s t h => ⟨exec_flagsKept h, fun f => exec_flag_eq h, ?_⟩,
    fun r u v h hr f => (served_of_serve h).flag_eq hr⟩
  rintro a b rfl ht
  obtain ⟨x, y, hx, hy, rfl⟩ := execCmp_of_repliedOk h ht
  obtain ⟨hz, hn, -⟩ := s.flag_compare x y
  exact ⟨x, y, hx, hy, hz, hn⟩

/-- Settles O52: `setFlag` answers the state with the flag written, and a flag write changes nothing else. -/
theorem flagPorts : Obligations.FlagPorts := by
  refine fun s f b => ⟨rfl, (s.setFlag f b).reply (.status .ok), rfl, ?_, fun g hg => ?_, ?_, ?_, ?_⟩
  · simp
  · simpa using s.flag_setFlag_other b hg
  · intro k _; simp
  · intro a; simp
  · simp [State.OthersKept]

/-! ## Register ports -/

/-- `get` of a register that holds a value (`10_state.md` R33). -/
theorem portGet_of_named? {s : State} {n : Text} {v : Word} (h : s.named? n = some v) :
    portGet n s = .next (s.reply (.word v)) := by
  obtain ⟨k, hk, hv⟩ := State.named?_eq_some h
  simp [portGet, hk, State.readReg_eq_ok.2 hv]

/-- `get` of a register that holds no value (`10_state.md` R27, R33). -/
theorem portGet_of_empty {s : State} {n : Text} (hn : n ∈ s.cfg.regNames) (h : s.named? n = none) :
    portGet n s = .fault .readUnwritten := by
  obtain ⟨k, hk⟩ := Option.isSome_iff_exists.1 (position?_isSome.2 hn)
  have hempty : s.reg? k = none := (State.named?_eq hk).symm.trans h
  simp [portGet, hk, State.readReg_none hempty, State.stop]

/-- `set` of a register writes it and answers `OK` (`10_state.md` R34). -/
theorem portSet_of_position? {s : State} {n : Text} {k : Nat} (v : Word) (h : s.cfg.position? n = some k) :
    portSet n v s = .next ((s.writeReg k v).reply (.status .ok)) := by
  simp [portSet, h, State.complete]

/-- The position of a name has a place in the register file. -/
theorem State.Inv.position?_lt {s : State} {n : Text} {k : Nat} (hs : s.Inv) (h : s.cfg.position? n = some k) :
    k < s.regs.length := by
  obtain ⟨hk, -⟩ := position?_eq_some h
  have ⟨_, hlen, _⟩ := hs
  omega

theorem position?_eq_none {cfg : Config} {n : Text} : cfg.position? n = none ↔ n ∉ cfg.regNames := by
  rw [← position?_isSome]
  simp

/-- Settles O51: the name's position decides between the register write or read and the error. -/
theorem registerPorts : Obligations.RegisterPorts := by
  refine fun s n v hs => ⟨portGet_of_named?, fun k hk => ?_, ?_, fun hn => ?_⟩
  · obtain ⟨hself, hregs, hflags, hmem, hothers, -⟩ := State.wroteRegister v (hs.position?_lt hk)
    exact ⟨_, portSet_of_position? v hk, hself, hregs, hflags, hmem, hothers⟩
  · rw [← position?_isSome, Option.isSome_iff_exists]
  · simp [portGet, portSet, position?_eq_none.2 hn]

end Sys2Proof.Machine
end

section
/-! SUPPORT. The meanings by their frame: eight forms instead of twenty-three instructions. From these, reads of
registers that hold no value (`10_state.md` R27, `40_execution.md` R115), and that no meaning depends on anything but
the configuration, the registers and the memory (`10_state.md` R30, R41, `40_execution.md` R110). -/

namespace Sys2Proof.Machine

/-! ## The forms of the meanings -/

/-- The meaning of an instruction, by the frame it runs in, with the operands that frame reads. -/
inductive Form : Instr → (State → Result) → Prop where
  | mov (d a : Operand) : Form (.mov d a) (execMov d a)
  | alu2 {i : Instr} (op : AluOp) (d a : Operand) (hd : i.dest? = some d) (hr : readDests i = [d])
      (hs : i.sources = [a]) : Form i (aluFrame2 op d a)
  | alu3 {i : Instr} (op : AluOp) (d a b : Operand) (hd : i.dest? = some d) (hr : readDests i = [])
      (hs : i.sources = [a, b]) : Form i (aluFrame3 op d a b)
  | alu1 {i : Instr} (op : AluOp) (d : Operand) (hd : i.dest? = some d) (hr : readDests i = [d])
      (hs : i.sources = []) : Form i (aluFrame1 op d)
  | cmp (a b : Operand) : Form (.cmp a b) (execCmp a b)
  | push (a : Operand) : Form (.push a) (execPush a)
  | pop (d : Operand) : Form (.pop d) (execPop d)
  | rdump : Form .rdump execRdump

theorem exec_form (i : Instr) : Form i (exec i) := by
  cases i with
  | mov d a => exact .mov d a
  | add2 d a => exact .alu2 .add d a rfl rfl rfl
  | add3 d a b => exact .alu3 .add d a b rfl rfl rfl
  | sub2 d a => exact .alu2 .sub d a rfl rfl rfl
  | sub3 d a b => exact .alu3 .sub d a b rfl rfl rfl
  | and2 d a => exact .alu2 .and d a rfl rfl rfl
  | and3 d a b => exact .alu3 .and d a b rfl rfl rfl
  | or2 d a => exact .alu2 .or d a rfl rfl rfl
  | or3 d a b => exact .alu3 .or d a b rfl rfl rfl
  | xor2 d a => exact .alu2 .xor d a rfl rfl rfl
  | xor3 d a b => exact .alu3 .xor d a b rfl rfl rfl
  | mul2 d a => exact .alu2 .mul d a rfl rfl rfl
  | mul3 d a b => exact .alu3 .mul d a b rfl rfl rfl
  | div2 d a => exact .alu2 .div d a rfl rfl rfl
  | div3 d a b => exact .alu3 .div d a b rfl rfl rfl
  | neg d => exact .alu1 .neg d rfl rfl rfl
  | bitNot d => exact .alu1 .not d rfl rfl rfl
  | lsl d a => exact .alu2 .lsl d a rfl rfl rfl
  | lsr d a => exact .alu2 .lsr d a rfl rfl rfl
  | cmp a b => exact .cmp a b
  | push a => exact .push a
  | pop d => exact .pop d
  | rdump => exact .rdump

/-! ## Reads of registers that hold no value -/

/-- An instruction has no descriptor error when none of its descriptors has one. -/
theorem firstError_eq_none {cfg : Config} {i : Instr} : firstError cfg i = none ↔
    (∀ d, i.dest? = some d → destError cfg d = none) ∧ ∀ o ∈ i.sources, sourceError cfg o = none := by
  cases hd : i.dest? <;> simp [firstError, hd]

/-- A checked source that yields no value is a register that holds none, and reading it faults. -/
theorem State.readSource_of_empty {s : State} {o : Operand} (h : sourceError s.cfg o = none)
    (hv : s.source? o = none) : s.readSource o = .error (.faulted .readUnwritten) := by
  cases o with
  | imm v => simp [State.source?] at hv
  | bad kind v => simp [sourceError] at h
  | reg k =>
    have hk : k < s.cfg.regNames.length := by simpa [sourceError] using h
    exact State.readReg_none (by simpa [State.source?, hk] using hv)

/-- Two checked operands of which one yields no value fault when they are read, whatever follows. -/
theorem State.finish_reads_fault {s : State} {o1 o2 : Operand} {f : Word → Word → Except Stop State}
    (h1 : sourceError s.cfg o1 = none) (h2 : sourceError s.cfg o2 = none)
    (h : s.source? o1 = none ∨ s.source? o2 = none) :
    (s.finish do
      let a ← s.readSource o1
      let b ← s.readSource o2
      f a b) = .fault .readUnwritten := by
  cases hv : s.source? o1 with
  | none => simp [State.readSource_of_empty h1 hv]
  | some v =>
    have h2v : s.source? o2 = none := by simpa [hv] using h
    simp [(State.source?_eq_some.1 hv).2, State.readSource_of_empty h2 h2v]

/-- A checked destination, read as a source, has no descriptor error either. -/
theorem sourceError_of_destError {cfg : Config} {o : Operand} (h : destError cfg o = none) :
    sourceError cfg o = none := by
  cases o with
  | reg k => exact h
  | imm v => rfl
  | bad kind v => simp [destError] at h

theorem execMov_fault {s : State} {d a : Operand} (hd : destError s.cfg d = none)
    (ha : sourceError s.cfg a = none) (h : s.source? a = none) : execMov d a s = .fault .readUnwritten := by
  obtain ⟨k, -, hk, -⟩ := State.checkDest_of_noError hd
  simp [execMov, hk, State.checkSource_of_noError ha, State.readSource_of_empty ha h]

theorem aluFrame1_fault {s : State} {op : AluOp} {d : Operand} (hd : destError s.cfg d = none)
    (h : s.source? d = none) : aluFrame1 op d s = .fault .readUnwritten := by
  obtain ⟨k, rfl, hk, -⟩ := State.checkDest_of_noError hd
  have hread : s.readReg k = .error (.faulted .readUnwritten) :=
    State.readSource_of_empty (sourceError_of_destError hd) h
  simp [aluFrame1, hk, hread]

theorem aluFrame2_fault {s : State} {op : AluOp} {d a : Operand} (hd : destError s.cfg d = none)
    (ha : sourceError s.cfg a = none) (h : s.source? d = none ∨ s.source? a = none) :
    aluFrame2 op d a s = .fault .readUnwritten := by
  obtain ⟨k, rfl, hk, -⟩ := State.checkDest_of_noError hd
  simp only [aluFrame2, hk, State.checkSource_of_noError ha, ok_bind]
  -- The frame reads its destination as a source of the same position would be read.
  exact State.finish_reads_fault (sourceError_of_destError hd) ha h

theorem aluFrame3_fault {s : State} {op : AluOp} {d a b : Operand} (hd : destError s.cfg d = none)
    (ha : sourceError s.cfg a = none) (hb : sourceError s.cfg b = none)
    (h : s.source? a = none ∨ s.source? b = none) : aluFrame3 op d a b s = .fault .readUnwritten := by
  obtain ⟨k, -, hk, -⟩ := State.checkDest_of_noError hd
  simp only [aluFrame3, hk, State.checkSource_of_noError ha, State.checkSource_of_noError hb, ok_bind]
  exact State.finish_reads_fault ha hb h

theorem execCmp_fault {s : State} {a b : Operand} (ha : sourceError s.cfg a = none)
    (hb : sourceError s.cfg b = none) (h : s.source? a = none ∨ s.source? b = none) :
    execCmp a b s = .fault .readUnwritten := by
  simp only [execCmp, State.checkSource_of_noError ha, State.checkSource_of_noError hb, ok_bind]
  exact State.finish_reads_fault ha hb h

theorem execPush_fault {s : State} {a : Operand} (ha : sourceError s.cfg a = none) (h : s.source? a = none) :
    execPush a s = .fault .readUnwritten := by
  simp [execPush, State.checkSource_of_noError ha, State.readSource_of_empty ha h]

/-- Every form faults when its operands pass their checks and one it reads yields no value. -/
theorem Form.fault {i : Instr} {f : State → Result} {s : State} (hf : Form i f)
    (he : firstError s.cfg i = none) (h : ∃ o ∈ readDests i ++ i.sources, s.source? o = none) :
    f s = .fault .readUnwritten := by
  obtain ⟨hdest, hsrc⟩ := firstError_eq_none.1 he
  cases hf with
  | mov d a =>
    simp only [readDests, Instr.sources] at hsrc h
    exact execMov_fault (hdest d rfl) (hsrc a (by simp)) (by simpa using h)
  | alu2 op d a hd hr hs =>
    simp only [hs, hr] at hsrc h
    exact aluFrame2_fault (hdest d hd) (hsrc a (by simp)) (by simpa using h)
  | alu3 op d a b hd hr hs =>
    simp only [hs, hr] at hsrc h
    exact aluFrame3_fault (hdest d hd) (hsrc a (by simp)) (hsrc b (by simp)) (by simpa using h)
  | alu1 op d hd hr hs =>
    simp only [hs, hr] at h
    exact aluFrame1_fault (hdest d hd) (by simpa using h)
  | cmp a b =>
    simp only [readDests, Instr.sources] at hsrc h
    exact execCmp_fault (hsrc a (by simp)) (hsrc b (by simp)) (by simpa using h)
  | push a =>
    simp only [readDests, Instr.sources] at hsrc h
    exact execPush_fault (hsrc a (by simp)) (by simpa using h)
  | pop d => simp [readDests, Instr.sources] at h
  | rdump => simp [readDests, Instr.sources] at h

/-- Settles O12: the form of the instruction faults, and so does the port `get`. -/
theorem readingARegisterWithNoValueFaults : Obligations.ReadingARegisterWithNoValueFaults :=
  fun _ _ => ⟨fun i he h => (exec_form i).fault he h, fun _ hn h => portGet_of_empty hn h⟩

/-! ## Computations from two states -/

/-- Two states with the same configuration and registers. -/
structure State.SameRegs (s s' : State) : Prop where
  cfg : s'.cfg = s.cfg
  regs : s'.regs = s.regs

namespace State.SameRegs

variable {s s' : State} (h : s.SameRegs s')
include h

theorem reg? (k : Nat) : s'.reg? k = s.reg? k := by simp [State.reg?, h.regs]

theorem readReg (k : Nat) : s'.readReg k = s.readReg k := by simp [State.readReg, h.reg?]

theorem position (n : Text) : s'.position n = s.position n := by simp [State.position, h.cfg]

theorem readNamed (n : Text) : s'.readNamed n = s.readNamed n := by
  simp [State.readNamed, h.position, h.readReg]

theorem checkDest (o : Operand) : s'.checkDest o = s.checkDest o := by
  cases o <;> simp [State.checkDest, h.cfg]

theorem checkSource (o : Operand) : s'.checkSource o = s.checkSource o := by
  cases o <;> simp [State.checkSource, h.cfg]

theorem readSource (o : Operand) : s'.readSource o = s.readSource o := by
  cases o <;> simp [State.readSource, h.readReg]

theorem dumpLinesOf (ns : List Text) : s'.dumpLinesOf ns = s.dumpLinesOf ns := by
  induction ns with
  | nil => rfl
  | cons n ns ih => simp [State.dumpLinesOf, h.readNamed, h.cfg, ih]

end State.SameRegs

/-- Two results that stop for the same reason, or have values in the relation `R`. -/
inductive Alike {α : Type} (R : α → α → Prop) : Except Stop α → Except Stop α → Prop where
  | stop (e : Stop) : Alike R (.error e) (.error e)
  | ok {a a' : α} (h : R a a') : Alike R (.ok a) (.ok a')

namespace Alike

variable {α β : Type} {R : α → α → Prop} {Q : β → β → Prop}

/-- Related values continued to related results. -/
theorem bind {x x' : Except Stop α} {f f' : α → Except Stop β} (hx : Alike R x x')
    (hf : ∀ a a', R a a' → Alike Q (f a) (f' a')) : Alike Q (x >>= f) (x' >>= f') := by
  cases hx with
  | stop e => exact .stop e
  | ok h => exact hf _ _ h

/-- The same value read, and continued to related results. -/
theorem read {x x' : Except Stop α} {f f' : α → Except Stop β} (hx : x' = x)
    (hf : ∀ a, Alike Q (f a) (f' a)) : Alike Q (x >>= f) (x' >>= f') := by
  subst hx
  cases x' with
  | error e => exact .stop e
  | ok a => exact hf a

end Alike

/-- States `u` and `u'` computed from `s` and `s'` without a reply: the same configuration, registers and memory, and
the same text emitted on the way. -/
structure Parallel (s s' u u' : State) : Prop extends u.SameRegs u' where
  mem : u'.mem = u.mem
  out : ∃ text, u.out = s.out ++ text ∧ u'.out = s'.out ++ text
  replies : u.replies = s.replies
  replies' : u'.replies = s'.replies

/-- The states an instruction starts in, with the same configuration, registers and memory. -/
theorem Parallel.start {s s' : State} (hc : s'.cfg = s.cfg) (hr : s'.regs = s.regs) (hm : s'.mem = s.mem) :
    Parallel s s' s s' :=
  ⟨⟨hc, hr⟩, hm, ⟨[], by simp, by simp⟩, rfl, rfl⟩

section Updates

variable {s s' u u' : State} (h : Parallel s s' u u')
include h

theorem Parallel.writeReg (k : Nat) (v : Word) : Parallel s s' (u.writeReg k v) (u'.writeReg k v) :=
  ⟨⟨h.cfg, by simp [h.regs]⟩, h.mem, h.out, h.replies, h.replies'⟩

theorem Parallel.withMem (m : Memory) : Parallel s s' (u.withMem m) (u'.withMem m) :=
  ⟨⟨h.cfg, h.regs⟩, rfl, h.out, h.replies, h.replies'⟩

theorem Parallel.compare (a b : Word) : Parallel s s' (u.compare a b) (u'.compare a b) :=
  ⟨⟨h.cfg, h.regs⟩, h.mem, h.out, h.replies, h.replies'⟩

theorem Parallel.emit (ts : List Text) : Parallel s s' (u.emit ts) (u'.emit ts) := by
  obtain ⟨text, h1, h2⟩ := h.out
  exact ⟨⟨h.cfg, h.regs⟩, h.mem, ⟨text ++ ts, by simp [h1], by simp [h2]⟩, h.replies, h.replies'⟩

theorem Parallel.writeNamed (n : Text) (v : Word) :
    Alike (Parallel s s') (u.writeNamed n v) (u'.writeNamed n v) :=
  .read (h.position n) fun k => .ok (h.writeReg k v)

theorem Parallel.push (v : Word) : Alike (Parallel s s') (u.push v) (u'.push v) := by
  refine .read (h.readNamed rspName) fun p => .read (h.readNamed ssName) fun base => ?_
  rw [h.cfg, h.mem]
  split
  · exact .stop _
  · split
    · exact .stop _
    · exact (h.withMem _).writeNamed _ _

theorem Parallel.pop (d : Nat) : Alike (Parallel s s') (u.pop d) (u'.pop d) := by
  refine .read (h.readNamed rspName) fun p => ?_
  rw [h.cfg, h.mem]
  split
  · exact .stop _
  · exact .bind (h.writeNamed _ _) fun _ _ ht => .ok (ht.writeReg d _)

theorem Parallel.dumped : Alike (Parallel s s') u.dumped u'.dumped := by
  unfold State.dumped
  rw [h.cfg]
  exact .read (h.dumpLinesOf _) fun lines => .ok (h.emit lines)

end Updates

/-! ## Outcomes of two states -/

/-- Where the outcome from `s` is a next state, that from `s'` is one too, with the same registers, memory, emitted
text and status. -/
def AnswersAlike (s s' : State) (o o' : Result) : Prop :=
  ∀ t, o = .next t → ∃ t', o' = .next t' ∧ t'.regs = t.regs ∧ t'.mem = t.mem ∧
    (∃ text, t.out = s.out ++ text ∧ t'.out = s'.out ++ text) ∧
    (∃ st : Status, t.replies = s.replies ++ [.status st] ∧ t'.replies = s'.replies ++ [.status st])

section Outcomes

variable {s s' : State} (h : Parallel s s' s s')
include h

theorem Parallel.finish {r r' : Except Stop State} (hr : Alike (Parallel s s') r r') :
    AnswersAlike s s' (s.finish r) (s'.finish r') := by
  intro t ht
  cases hr with
  | ok hu =>
    cases ht
    exact ⟨_, rfl, hu.regs, hu.mem, hu.out, .ok, by simp [hu.replies], by simp [hu.replies']⟩
  | stop e =>
    obtain ⟨k, rfl, rfl⟩ := State.stop_eq_next ht
    exact ⟨_, rfl, h.regs, h.mem, h.out, .error k, rfl, rfl⟩

/-- Every form reads the configuration, the registers and the memory alone, and updates both states alike. -/
theorem Form.answersAlike {i : Instr} {f : State → Result} (hf : Form i f) : AnswersAlike s s' (f s) (f s') := by
  cases hf with
  | mov d a =>
    exact h.finish <| .read (h.checkDest d) fun k => .read (h.checkSource a) fun _ =>
      .read (h.readSource a) fun v => .ok (h.writeReg k v)
  | alu2 op d a =>
    exact h.finish <| .read (h.checkDest d) fun k => .read (h.checkSource a) fun _ =>
      .read (h.readReg k) fun x => .read (h.readSource a) fun y =>
      .read rfl fun r => .ok (h.writeReg k r)
  | alu3 op d a b =>
    exact h.finish <| .read (h.checkDest d) fun k => .read (h.checkSource a) fun _ =>
      .read (h.checkSource b) fun _ => .read (h.readSource a) fun x => .read (h.readSource b) fun y =>
      .read rfl fun r => .ok (h.writeReg k r)
  | alu1 op d =>
    exact h.finish <| .read (h.checkDest d) fun k => .read (h.readReg k) fun x =>
      .read rfl fun r => .ok (h.writeReg k r)
  | cmp a b =>
    exact h.finish <| .read (h.checkSource a) fun _ => .read (h.checkSource b) fun _ =>
      .read (h.readSource a) fun x => .read (h.readSource b) fun y => .ok (h.compare x y)
  | push a =>
    exact h.finish <| .read (h.checkSource a) fun _ => .read (h.readSource a) fun v => h.push v
  | pop d => exact h.finish <| .read (h.checkDest d) fun k => h.pop k
  | rdump => exact h.finish h.dumped

end Outcomes

/-- Settles O17: the form of the instruction runs in both states, which start alike. -/
theorem flagsAndOutputAreReadByNoInstruction : Obligations.FlagsAndOutputAreReadByNoInstruction :=
  fun i _ _ t hc hr hm ht => (exec_form i).answersAlike (.start hc hr hm) t ht

end Sys2Proof.Machine
end

section
/-! SUPPORT. Memory under the instructions and the host (`20_memory.md`): only PUSH stores (R54), only POP loads, and
the byte ports (R51, R52) meet the words of the stack (R55, R56). -/

namespace Sys2Proof.Machine

/-! ## Stores -/

/-- No effect but a push's touches memory. -/
theorem Effect.mem_eq {i : Instr} {s u : State} (h : Effect i s u) (hi : ∀ a, i ≠ .push a) : u.mem = s.mem := by
  cases h with
  | wrote => exact State.writeReg_mem ..
  | compared => exact State.compare_mem ..
  | pushed o _ _ _ _ hpush => exact absurd hpush (hi o)
  | popped => simp
  | dumped => exact State.emit_mem ..

/-- Settles O16: no effect but a push's touches memory, and an error raised leaves no trace. -/
theorem onlyPushStores : Obligations.OnlyPushStores := by
  intro i s t h hi a
  obtain ⟨u, hu, rfl⟩ | ⟨e, rfl⟩ := exec_completes i s t h
  · simp [hu.mem_eq hi]
  · rw [State.reply_mem]

/-! ## Loads -/

/-- `u'` differs from `u` in memory alone. -/
def EqButMem (u u' : State) : Prop := ∃ m, u' = u.withMem m

theorem EqButMem.sameRegs {u u' : State} (h : EqButMem u u') : u.SameRegs u' := by
  obtain ⟨m, rfl⟩ := h
  exact ⟨rfl, rfl⟩

section Updates

variable {u u' : State} (h : EqButMem u u')
include h

theorem EqButMem.writeReg (k : Nat) (v : Word) : EqButMem (u.writeReg k v) (u'.writeReg k v) := by
  obtain ⟨m, rfl⟩ := h
  exact ⟨m, rfl⟩

theorem EqButMem.withMem (m m' : Memory) : EqButMem (u.withMem m) (u'.withMem m') := by
  obtain ⟨_, rfl⟩ := h
  exact ⟨m', rfl⟩

theorem EqButMem.compare (a b : Word) : EqButMem (u.compare a b) (u'.compare a b) := by
  obtain ⟨m, rfl⟩ := h
  exact ⟨m, rfl⟩

theorem EqButMem.emit (ts : List Text) : EqButMem (u.emit ts) (u'.emit ts) := by
  obtain ⟨m, rfl⟩ := h
  exact ⟨m, rfl⟩

theorem EqButMem.reply (r : Reply) : EqButMem (u.reply r) (u'.reply r) := by
  obtain ⟨m, rfl⟩ := h
  exact ⟨m, rfl⟩

theorem EqButMem.writeNamed (n : Text) (v : Word) : Alike EqButMem (u.writeNamed n v) (u'.writeNamed n v) :=
  .read (h.sameRegs.position n) fun k => .ok (h.writeReg k v)

/-- A push checks registers and the configuration, and what it stores is not read back. -/
theorem EqButMem.push (v : Word) : Alike EqButMem (u.push v) (u'.push v) := by
  refine .read (h.sameRegs.readNamed rspName) fun p => .read (h.sameRegs.readNamed ssName) fun base => ?_
  rw [h.sameRegs.cfg]
  split
  · exact .stop _
  · split
    · exact .stop _
    · exact (h.withMem _ _).writeNamed _ _

theorem EqButMem.dumped : Alike EqButMem u.dumped u'.dumped := by
  unfold State.dumped
  rw [h.sameRegs.cfg]
  exact .read (h.sameRegs.dumpLinesOf _) fun lines => .ok (h.emit lines)

/-- Ending alike, an instruction answers next states that differ in memory alone. -/
theorem EqButMem.finish {r r' : Except Stop State} {t : State} (hr : Alike EqButMem r r')
    (ht : u.finish r = .next t) : ∃ t', u'.finish r' = .next t' ∧ EqButMem t t' := by
  cases hr with
  | ok hv =>
    cases ht
    exact ⟨_, rfl, hv.reply _⟩
  | stop e =>
    obtain ⟨k, rfl, rfl⟩ := State.stop_eq_next ht
    exact ⟨_, rfl, h.reply _⟩

/-- Every form but POP's runs alike in two states that differ in memory alone. -/
theorem Form.next_of_eqButMem {i : Instr} {f : State → Result} {t : State} (hf : Form i f) (hi : ∀ d, i ≠ .pop d)
    (ht : f u = .next t) : ∃ t', f u' = .next t' ∧ EqButMem t t' := by
  have hs := h.sameRegs
  cases hf with
  | mov d a =>
    exact h.finish (.read (hs.checkDest d) fun k => .read (hs.checkSource a) fun _ =>
      .read (hs.readSource a) fun v => .ok (h.writeReg k v)) ht
  | alu2 op d a =>
    exact h.finish (.read (hs.checkDest d) fun k => .read (hs.checkSource a) fun _ =>
      .read (hs.readReg k) fun x => .read (hs.readSource a) fun y => .read rfl fun r => .ok (h.writeReg k r)) ht
  | alu3 op d a b =>
    exact h.finish (.read (hs.checkDest d) fun k => .read (hs.checkSource a) fun _ =>
      .read (hs.checkSource b) fun _ => .read (hs.readSource a) fun x => .read (hs.readSource b) fun y =>
      .read rfl fun r => .ok (h.writeReg k r)) ht
  | alu1 op d =>
    exact h.finish (.read (hs.checkDest d) fun k => .read (hs.readReg k) fun x =>
      .read rfl fun r => .ok (h.writeReg k r)) ht
  | cmp a b =>
    exact h.finish (.read (hs.checkSource a) fun _ => .read (hs.checkSource b) fun _ =>
      .read (hs.readSource a) fun x => .read (hs.readSource b) fun y => .ok (h.compare x y)) ht
  | push a =>
    exact h.finish (.read (hs.checkSource a) fun _ => .read (hs.readSource a) fun v => h.push v) ht
  | pop d => exact absurd rfl (hi d)
  | rdump => exact h.finish h.dumped ht

end Updates

/-- Settles O18: the form of the instruction runs alike in both states, which differ in memory alone. -/
theorem onlyPopReadsMemory : Obligations.OnlyPopReadsMemory := by
  intro i s t m hi ht
  have hstart : EqButMem s (s.withMem m) := ⟨m, rfl⟩
  obtain ⟨_, ht', m', rfl⟩ := (exec_form i).next_of_eqButMem hstart hi ht
  exact ⟨_, ht', rfl, rfl, rfl, rfl⟩

/-! ## The byte ports -/

theorem portRead_of_inBounds {s : State} {a : Int} (h : s.inBounds a) :
    portRead a s = .next (s.reply (.byte (s.mem.readByte a.toNat))) := if_pos h

theorem portRead_of_not_inBounds {s : State} {a : Int} (h : ¬ s.inBounds a) : portRead a s = s.raise .outOfBounds :=
  if_neg h

theorem portWrite_of_inBounds {s : State} {a : Int} (b : Byte) (h : s.inBounds a) :
    portWrite a b s = .next ((s.withMem (s.mem.writeByte a.toNat b)).reply (.status .ok)) := if_pos h

theorem portWrite_of_not_inBounds {s : State} {a : Int} (b : Byte) (h : ¬ s.inBounds a) :
    portWrite a b s = s.raise .outOfBounds := if_neg h

theorem State.inBounds_natCast {s : State} {a : Nat} : s.inBounds (a : Int) ↔ a < s.cfg.memSize := by
  simp [State.inBounds]

/-- Settles O53: the bound decides between the byte access and the error, and a byte write changes one byte. -/
theorem memoryPorts : Obligations.MemoryPorts := by
  intro s a b ⟨_, _, hwf, _⟩
  refine ⟨fun h0 h1 => ⟨portRead_of_inBounds ⟨h0, h1⟩, _, portWrite_of_inBounds b ⟨h0, h1⟩, ?_, fun x hx => ?_,
    ?_, ?_, ?_⟩, fun h => ?_⟩
  · exact Memory.readByte_writeByte_self _ b hwf
  · exact Memory.readByte_writeByte_other b hwf hx
  · intro k _; simp
  · intro f; simp
  · simp [State.OthersKept]
  · have hout : ¬ s.inBounds a := by
      rintro ⟨h0, h1⟩
      omega
    exact ⟨portRead_of_not_inBounds hout, portWrite_of_not_inBounds b hout⟩

/-! ## A pushed word, seen by the host -/

/-- The pointer a push leaves is the address it stored at (`46_stack.md` R192). -/
theorem wrap64_pushAddress {p : Word} (h : 0 ≤ p.u - 8) : (wrap64 (p.u - 8)).toNat = pushAddress p := by
  have hmod := wrap64_toNat (p.u - 8)
  have hlt := p.isLt
  unfold pushAddress
  unfold Word.u at *
  omega

/-- A `PUSH` that answers `OK` stored the value of its source below the pointer, inside memory, and moved the pointer
there (`46_stack.md` R192). -/
theorem execPush_of_repliedOk {a : Operand} {s t : State} {v : Word} (hv : s.source? a = some v)
    (h : execPush a s = .next t) (ht : s.RepliedOk t) :
    ∃ p k, s.named? rspName = some p ∧ s.cfg.position? rspName = some k ∧ 0 ≤ p.u - 8 ∧
      pushAddress p + 8 ≤ s.cfg.memSize ∧
      t = ((s.withMem (s.mem.writeWord (pushAddress p) v)).writeReg k (wrap64 (p.u - 8))).reply (.status .ok) := by
  obtain ⟨hcheck, hread⟩ := State.source?_eq_some.1 hv
  rw [execPush, hcheck, hread] at h
  obtain ⟨u, hu, rfl⟩ | ⟨e, -, rfl⟩ := State.finish_eq_next h
  · obtain ⟨p, base, k, hp, -, hk, h1, h2, rfl⟩ := State.push_eq_ok.1 hu
    exact ⟨p, k, hp, hk, (Word.u_nonneg base).trans h1, pushAddress_add_le h1 h2, rfl⟩
  · simp [State.RepliedOk] at ht

/-- A register written under its name reads the value written, where it held one before. -/
theorem State.named?_writeReg_self {s : State} {n : Text} {k : Nat} {w : Word} (v : Word)
    (hk : s.cfg.position? n = some k) (hw : s.named? n = some w) : (s.writeReg k v).named? n = some v := by
  have hheld : s.reg? k = some w := (State.named?_eq hk).symm.trans hw
  rw [State.named?_eq (s := s.writeReg k v) hk, State.reg?_writeReg_self v (State.lt_of_reg? hheld)]

/-- The host reads byte `i` of a word just pushed at the new pointer plus `i` (`20_memory.md` R55, R56). -/
theorem portRead_of_pushed {a : Operand} {s t : State} {v p : Word} (hs : s.Inv) (hv : s.source? a = some v)
    (h : execPush a s = .next t) (ht : s.RepliedOk t) (hp : t.named? rspName = some p) {i : Nat} (hi : i < 8) :
    portRead ((p.toNat : Int) + i) t = .next (t.reply (.byte (v.extractLsb' (8 * i) 8))) := by
  have ⟨_, _, hwf, _⟩ := hs
  obtain ⟨p₀, k, hp₀, hk, h0, hend, heq⟩ := execPush_of_repliedOk hv h ht
  have hnew : t.named? rspName = some (wrap64 (p₀.u - 8)) := by
    rw [heq, State.reply_named?]
    exact State.named?_writeReg_self _ hk hp₀
  have haddr : (p.toNat : Int) + i = (pushAddress p₀ + i : Nat) := by
    rw [Option.some.inj (hp.symm.trans hnew), wrap64_pushAddress h0, Nat.cast_add]
  have hcfg : t.cfg = s.cfg := by rw [heq]; rfl
  have hin : t.inBounds (pushAddress p₀ + i : Nat) := by
    rw [State.inBounds_natCast, hcfg]
    omega
  have hbyte : t.mem.readByte (pushAddress p₀ + i) = v.extractLsb' (8 * i) 8 := by
    rw [heq]
    exact Memory.readByte_writeWord v hwf hi
  rw [haddr, portRead_of_inBounds hin, Int.toNat_natCast, hbyte]

/-! ## Bytes the host wrote, seen by a pop -/

/-- From `s` to `t` the bytes were written from `a` on, and the registers, the configuration and every byte below `a`
are as before. -/
structure HostWrote (s : State) (a : Nat) (bytes : List Byte) (t : State) : Prop extends s.SameRegs t where
  below : ∀ x, x < a → t.mem.readByte x = s.mem.readByte x
  written : ∀ i, i < bytes.length → bytes[i]? = some (t.mem.readByte (a + i))

/-- A host write inside memory, and the ones behind it. -/
theorem hostWrites_cons {s : State} {a : Nat} (b : Byte) (bs : List Byte) (h : a < s.cfg.memSize) :
    hostWrites a (b :: bs) s =
      hostWrites (a + 1 : Nat) bs ((s.withMem (s.mem.writeByte a b)).reply (.status .ok)) := by
  simp [hostWrites, portWrite_of_inBounds b (State.inBounds_natCast.2 h)]

/-- Host writes inside memory write their bytes: the first one, which the later ones leave alone, and then those
(`20_memory.md` R52). -/
theorem hostWrote_of_hostWrites {bytes : List Byte} {a : Nat} {s t : State} (hwf : s.mem.wf)
    (hend : a + bytes.length ≤ s.cfg.memSize) (h : hostWrites a bytes s = .next t) : HostWrote s a bytes t := by
  induction bytes generalizing a s with
  | nil =>
    cases h
    exact ⟨⟨rfl, rfl⟩, fun _ _ => rfl, by simp⟩
  | cons b bs ih =>
    rw [List.length_cons] at hend
    rw [hostWrites_cons b bs (by omega)] at h
    have hend' : a + 1 + bs.length ≤ s.cfg.memSize := by omega
    have hrest := ih (by exact Memory.wf_writeByte a b hwf) (by exact hend') h
    refine ⟨⟨hrest.cfg, hrest.regs⟩, fun x hx => ?_, fun i hi => ?_⟩
    · exact (hrest.below x (by omega)).trans (Memory.readByte_writeByte_other b hwf (by omega))
    · cases i with
      | zero => simp [hrest.below a (by omega), Memory.readByte_writeByte_self a b hwf]
      | succ i =>
        have hbyte := hrest.written i (by simpa using hi)
        rwa [show a + 1 + i = a + (i + 1) by omega] at hbyte

theorem State.SameRegs.named? {s s' : State} (h : s.SameRegs s') (n : Text) : s'.named? n = s.named? n := by
  have hreg : s'.reg? = s.reg? := funext h.reg?
  simp [State.named?, h.cfg, hreg]

theorem State.SameRegs.dest? {s s' : State} (h : s.SameRegs s') (o : Operand) : s'.dest? o = s.dest? o := by
  cases o <;> simp [State.dest?, h.cfg]

/-- A `POP` whose eight bytes lie inside memory completes (`46_stack.md` R197). -/
theorem execPop_ok {s : State} {dest : Operand} {d k : Nat} {p : Word} (hd : s.dest? dest = some d)
    (hp : s.named? rspName = some p) (hk : s.cfg.position? rspName = some k) (htop : p.u + 8 ≤ s.cfg.memSize) :
    execPop dest s = .next
      (((s.writeReg k (wrap64 (p.u + 8))).writeReg d (s.mem.readWord p.toNat)).reply (.status .ok)) := by
  simp [execPop, State.checkDest_eq_ok.2 hd, State.pop_eq_ok.2 ⟨p, k, hp, hk, htop, rfl⟩]

/-- A `POP` behind host writes of the eight bytes at the pointer loads those bytes (`20_memory.md` R55, R56). -/
theorem execPop_of_hostWrote {s t : State} {bytes : List Byte} {dest : Operand} {d : Nat} {p : Word} (hs : s.Inv)
    (hd : s.dest? dest = some d) (hp : s.named? rspName = some p) (hlen : bytes.length = 8)
    (hend : p.toNat + 8 ≤ s.cfg.memSize) (h : HostWrote s p.toNat bytes t) :
    ∃ (u : State) (w : Word), execPop dest t = .next u ∧ t.RepliedOk u ∧ u.reg? d = some w ∧
      ∀ i, i < 8 → bytes[i]? = some (w.extractLsb' (8 * i) 8) := by
  have hsame := h.toSameRegs
  obtain ⟨k, hk, -⟩ := State.named?_eq_some hp
  have htop : p.u + 8 ≤ t.cfg.memSize := by
    rw [h.cfg, Word.u]
    omega
  refine ⟨_, t.mem.readWord p.toNat, execPop_ok (k := k) ((hsame.dest? dest).trans hd) ((hsame.named? _).trans hp)
    (by rwa [h.cfg]) htop, ?_, ?_, fun i hi => ?_⟩
  · simp [State.RepliedOk]
  · have hlt : d < t.regs.length := h.regs ▸ hs.dest_lt hd
    exact State.reg?_writeReg_self _ (by simpa using hlt)
  · rw [Memory.readWord_slice _ _ _ hi]
    exact h.written i (by omega)

/-- Settles O55: a push stores its word where the host's reads look, and a pop loads what the host's writes stored. -/
theorem hostSeesAPushAndPopSeesTheHost : Obligations.HostSeesAPushAndPopSeesTheHost := by
  refine ⟨fun s t a v p hs hv h ht hp i hi => portRead_of_pushed hs hv h ht hp hi,
    fun s t bytes dest d p hs hd hp hlen hend h => ?_⟩
  have ⟨_, _, hwf, _⟩ := hs
  exact execPop_of_hostWrote hs hd hp hlen hend (hostWrote_of_hostWrites hwf (by omega) h)

end Sys2Proof.Machine
end

section
/-! SUPPORT. The command interface (`30_encoding.md` R90 to R92): the form of an instruction and of its operands, the
fields of the header, the descriptors, and that the command decoder and the encoder are inverse to each other. -/

namespace Sys2Proof

/-! ## Forms -/

theorem Instr.formShape (i : Instr) : Laws.FormShape.Statement i := by
  cases i with
  | mov d a => exact Laws.FormShape.mov d a
  | add2 d a => exact Laws.FormShape.add2 d a
  | add3 d a b => exact Laws.FormShape.add3 d a b
  | sub2 d a => exact Laws.FormShape.sub2 d a
  | sub3 d a b => exact Laws.FormShape.sub3 d a b
  | and2 d a => exact Laws.FormShape.and2 d a
  | and3 d a b => exact Laws.FormShape.and3 d a b
  | or2 d a => exact Laws.FormShape.or2 d a
  | or3 d a b => exact Laws.FormShape.or3 d a b
  | xor2 d a => exact Laws.FormShape.xor2 d a
  | xor3 d a b => exact Laws.FormShape.xor3 d a b
  | mul2 d a => exact Laws.FormShape.mul2 d a
  | mul3 d a b => exact Laws.FormShape.mul3 d a b
  | div2 d a => exact Laws.FormShape.div2 d a
  | div3 d a b => exact Laws.FormShape.div3 d a b
  | neg d => exact Laws.FormShape.neg d
  | bitNot d => exact Laws.FormShape.bitNot d
  | lsl d a => exact Laws.FormShape.lsl d a
  | lsr d a => exact Laws.FormShape.lsr d a
  | cmp a b => exact Laws.FormShape.cmp a b
  | push a => exact Laws.FormShape.push a
  | pop d => exact Laws.FormShape.pop d
  | rdump => exact Laws.FormShape.rdump

theorem Instr.operands_length_mem (i : Instr) : i.operands.length ∈ i.opcode.arities := by
  obtain ⟨h, -, -⟩ := i.formShape
  exact h

theorem Instr.opcode_hasDest (i : Instr) : i.opcode.hasDest = i.dest?.isSome := by
  obtain ⟨-, h, -⟩ := i.formShape
  exact h

theorem Instr.build?_operands (i : Instr) : Instr.build? i.opcode i.operands = some i := by
  obtain ⟨-, -, h⟩ := i.formShape
  exact h

/-- The opcode and the operands determine the form they make. -/
theorem Instr.build?_eq_some {o : Opcode} {args : List Operand} {i : Instr} :
    Instr.build? o args = some i ↔ i.opcode = o ∧ i.operands = args := by
  constructor
  · intro h
    unfold Instr.build? at h
    split at h <;> cases h <;> exact ⟨rfl, rfl⟩
  · rintro ⟨rfl, rfl⟩
    exact i.build?_operands

theorem Instr.build_eq_ok {o : Opcode} {args : List Operand} {i : Instr} :
    Instr.build o args = .ok i ↔ i.opcode = o ∧ i.operands = args := by
  rw [← Instr.build?_eq_some, Instr.build]
  cases Instr.build? o args <;> simp

/-- An opcode makes a form of every operand count it accepts (R85). -/
theorem Instr.exists_build {o : Opcode} {args : List Operand} (h : args.length ∈ o.arities) :
    ∃ i, Instr.build o args = .ok i := by
  cases o <;> simp only [Opcode.arities, List.mem_cons, List.not_mem_nil, or_false] at h
  case rdump =>
    obtain rfl := List.length_eq_zero_iff.1 h
    exact ⟨_, rfl⟩
  case neg | not | push | pop =>
    obtain ⟨a, rfl⟩ := List.length_eq_one_iff.1 h
    exact ⟨_, rfl⟩
  case mov | lsl | lsr | cmp =>
    obtain ⟨a, b, rfl⟩ := List.length_eq_two.1 h
    exact ⟨_, rfl⟩
  all_goals
    obtain h | h := h
    · obtain ⟨a, b, rfl⟩ := List.length_eq_two.1 h
      exact ⟨_, rfl⟩
    · obtain ⟨a, b, c, rfl⟩ := List.length_eq_three.1 h
      exact ⟨_, rfl⟩

/-- An opcode takes at most three operands (R85). -/
theorem Opcode.arity_le {o : Opcode} {n : Nat} (h : n ∈ o.arities) : n ≤ 3 := by
  revert n
  cases o <;> decide

/-! ## The header -/

theorem headerTag_toNat (h : Byte) : (headerTag h).toNat = h.toNat % 16 := by
  simp [headerTag, BitVec.extractLsb'_toNat]

theorem headerNops_eq (h : Byte) : headerNops h = h.toNat / 16 % 4 := by
  simp [headerNops, BitVec.extractLsb'_toNat, Nat.shiftRight_eq_div_pow]

theorem headerRsv_eq_zero {h : Byte} : headerRsv h = 0#2 ↔ h.toNat / 64 = 0 := by
  have hlt := h.isLt
  rw [← BitVec.toNat_inj, headerRsv, BitVec.extractLsb'_toNat, Nat.shiftRight_eq_div_pow]
  simp only [BitVec.toNat_ofNat]
  omega

theorem ofTag?_headerTag {h : Byte} {o : Opcode} :
    Opcode.ofTag? (headerTag h) = some o ↔ o.tag.toNat = h.toNat % 16 := by
  rw [← headerTag_toNat, BitVec.toNat_inj]
  exact ⟨tag_of_ofTag?, fun ht => ht ▸ ofTag?_tag o⟩

/-- The header is the operand count over the tag (R90). -/
theorem Instr.header_toNat (i : Instr) : i.header.toNat = i.operands.length * 16 + i.opcode.tag.toNat := by
  have hle : i.operands.length < 4 := Nat.lt_succ_of_le (Opcode.arity_le i.operands_length_mem)
  have hall : ∀ (n : Fin 4) (t : BitVec 4),
      ((BitVec.ofNat 8 n.val <<< 4) ||| t.setWidth 8).toNat = n.val * 16 + t.toNat := by decide
  exact hall ⟨_, hle⟩ i.opcode.tag

/-- Every 4-bit value is the tag of an opcode (R91). -/
theorem Opcode.exists_ofTag? (t : BitVec 4) : ∃ o : Opcode, Opcode.ofTag? t = some o ∧ o.tag = t := by
  have hall : ∀ t : BitVec 4, (Opcode.ofTag? t).isSome = true := by decide
  obtain ⟨o, ho⟩ := Option.isSome_iff_exists.1 (hall t)
  exact ⟨o, ho, tag_of_ofTag? ho⟩

/-! ## Descriptors -/

theorem decodeDescriptor_imm (payload : Nat) : decodeDescriptor 0#8 payload = .imm (BitVec.ofNat 64 payload) := rfl

theorem decodeDescriptor_reg (payload : Nat) : decodeDescriptor 1#8 payload = .reg payload := rfl

theorem decodeDescriptor_bad {kind : Byte} (h0 : kind ≠ 0#8) (h1 : kind ≠ 1#8) (payload : Nat) :
    decodeDescriptor kind payload = .bad kind (BitVec.ofNat 64 payload) :=
  (if_neg h0).trans (if_neg h1)

theorem Operand.fits_bad {kind : Byte} {v : Word} :
    (Operand.bad kind v).fits = true ↔ kind ≠ 0#8 ∧ kind ≠ 1#8 := by
  simp [Operand.fits]

/-- A descriptor of an operand that fits reads as the operand (R92). -/
theorem decodeDescriptors_encodeOperand {a : Operand} (h : a.fits = true) (n : Nat) (rest : List Byte) :
    decodeDescriptors (n + 1) (encodeOperand a ++ rest) = (decodeDescriptors n rest).map (a :: ·) := by
  have hword (v : Word) : BitVec.ofNat 64 (v.toNat % 256 ^ 8) = v := by
    rw [Nat.mod_eq_of_lt (by exact v.isLt), BitVec.ofNat_toNat, BitVec.setWidth_eq]
  cases a with
  | imm v => rw [encodeOperand, decodeDescriptors_cons, decodeDescriptor_imm, hword]
  | reg k =>
    have hk : k < 256 ^ 8 := by simpa [Operand.fits] using h
    rw [encodeOperand, decodeDescriptors_cons, decodeDescriptor_reg, Nat.mod_eq_of_lt hk]
  | bad kind v =>
    obtain ⟨h0, h1⟩ := Operand.fits_bad.1 h
    rw [encodeOperand, decodeDescriptors_cons, decodeDescriptor_bad h0 h1, hword]

/-- The descriptors of operands that fit read as the operands. -/
theorem decodeDescriptors_flatMap {as : List Operand} (h : ∀ a ∈ as, a.fits = true) :
    decodeDescriptors as.length (as.flatMap encodeOperand) = some as := by
  induction as with
  | nil => rfl
  | cons a as ih =>
    rw [List.flatMap_cons, List.length_cons, decodeDescriptors_encodeOperand (h a (by simp)),
      ih fun b hb => h b (by simp [hb])]
    rfl

/-- A descriptor's operand fits, and has the descriptor's bytes. -/
theorem encodeOperand_decodeDescriptor {kind : Byte} {payload : Nat} (h : payload < 2 ^ 64) :
    (decodeDescriptor kind payload).fits = true ∧
      encodeOperand (decodeDescriptor kind payload) = kind :: leBytes 8 payload := by
  have hword : (BitVec.ofNat 64 payload).toNat = payload := Nat.mod_eq_of_lt h
  by_cases h0 : kind = 0#8
  · subst h0
    rw [decodeDescriptor_imm, encodeOperand, hword]
    exact ⟨rfl, rfl⟩
  by_cases h1 : kind = 1#8
  · subst h1
    exact ⟨decide_eq_true h, rfl⟩
  · rw [decodeDescriptor_bad h0 h1, encodeOperand, hword]
    exact ⟨Operand.fits_bad.2 ⟨h0, h1⟩, rfl⟩

/-- Bytes that read as descriptors are the descriptors of the operands read, and these fit. -/
theorem decodeDescriptors_eq_some {n : Nat} {bs : List Byte} {as : List Operand}
    (h : decodeDescriptors n bs = some as) :
    as.length = n ∧ as.flatMap encodeOperand = bs ∧ ∀ a ∈ as, a.fits = true := by
  induction n generalizing bs as with
  | zero =>
    cases bs with
    | nil => cases h; simp
    | cons b bs => simp [decodeDescriptors] at h
  | succ n ih =>
    have hlen := decodeDescriptors_length h
    obtain ⟨k, payload, rest, rfl, hp⟩ : ∃ (k : Byte) (payload rest : List Byte),
        bs = k :: payload ++ rest ∧ payload.length = 8 := by
      cases bs with
      | nil => simp at hlen
      | cons k bs =>
        have h8 : 8 ≤ bs.length := by
          rw [List.length_cons] at hlen
          omega
        exact ⟨k, bs.take 8, bs.drop 8, by simp, by simp [h8]⟩
    have hpayload : leBytes 8 (leValue payload) = payload := hp ▸ leBytes_leValue payload
    have hlt : leValue payload < 256 ^ 8 := hp ▸ leValue_lt payload
    rw [← hpayload, decodeDescriptors_cons, Nat.mod_eq_of_lt hlt] at h
    obtain ⟨as', has', rfl⟩ := Option.map_eq_some_iff.1 h
    obtain ⟨hl, hb, hf⟩ := ih has'
    obtain ⟨hfit, hbytes⟩ := encodeOperand_decodeDescriptor (kind := k) hlt
    refine ⟨by simp [hl], ?_, List.forall_mem_cons.2 ⟨hfit, hf⟩⟩
    rw [List.flatMap_cons, hbytes, hb, hpayload]

theorem flatMap_encodeOperand_length (as : List Operand) : (as.flatMap encodeOperand).length = 9 * as.length := by
  simp [List.length_flatMap, encodeOperand_length, Nat.mul_comm]

/-- The bytes of a number are its digits in base 256. -/
theorem leBytes_eq_map (n v : Nat) : leBytes n v = (List.range n).map fun j => BitVec.ofNat 8 (v / 256 ^ j) := by
  induction n generalizing v with
  | zero => rfl
  | succ n ih =>
    rw [leBytes, ih, List.range_succ_eq_map, List.map_cons, List.map_map]
    simp [Function.comp_def, Nat.div_div_eq_div_mul, Nat.pow_succ']

/-! ## The command decoder by cases -/

section Cases

variable {h : Byte} {rest : List Byte}

theorem decodeCommand_of_rsv (hr : h.toNat / 64 ≠ 0) :
    decodeCommand (h :: rest) = .error (.raised .unknownInstruction) := by
  simp [decodeCommand, headerRsv_eq_zero, hr]

variable {o : Opcode} (hr : h.toNat / 64 = 0) (ht : o.tag.toNat = h.toNat % 16)
include hr ht

theorem decodeCommand_of_arity (hn : h.toNat / 16 % 4 ∉ o.arities) :
    decodeCommand (h :: rest) = .error (.raised .arityMismatch) := by
  simp [decodeCommand, headerRsv_eq_zero, hr, ofTag?_headerTag.2 ht, headerNops_eq, hn]

theorem decodeCommand_of_descriptors {args : List Operand} (hn : h.toNat / 16 % 4 ∈ o.arities)
    (ha : decodeDescriptors (h.toNat / 16 % 4) rest = some args) :
    decodeCommand (h :: rest) = Instr.build o args := by
  simp [decodeCommand, headerRsv_eq_zero, hr, ofTag?_headerTag.2 ht, headerNops_eq, hn, ha]

theorem decodeCommand_of_noDescriptors (hn : h.toNat / 16 % 4 ∈ o.arities)
    (ha : decodeDescriptors (h.toNat / 16 % 4) rest = none) : decodeCommand (h :: rest) = .error .notACommand := by
  simp [decodeCommand, headerRsv_eq_zero, hr, ofTag?_headerTag.2 ht, headerNops_eq, hn, ha]

theorem decodeCommand_of_length (hn : h.toNat / 16 % 4 ∈ o.arities) (hl : rest.length ≠ 9 * (h.toNat / 16 % 4)) :
    decodeCommand (h :: rest) = .error .notACommand := by
  refine decodeCommand_of_noDescriptors hr ht hn (Option.eq_none_iff_forall_ne_some.2 fun args ha => ?_)
  exact hl (decodeDescriptors_length ha)

end Cases

/-- What bytes that decode are: a header without reserved bits that counts the instruction's operands over its tag,
then the descriptors of the operands (R90, R92). -/
theorem decodeCommand_eq_ok {bytes : List Byte} {i : Instr} (hok : decodeCommand bytes = .ok i) :
    ∃ h rest, bytes = h :: rest ∧ h.toNat = i.operands.length * 16 + i.opcode.tag.toNat ∧
      decodeDescriptors i.operands.length rest = some i.operands := by
  cases bytes with
  | nil => simp [decodeCommand] at hok
  | cons h rest =>
    by_cases hr : h.toNat / 64 = 0
    case neg => simp [decodeCommand_of_rsv hr] at hok
    obtain ⟨o, ho, -⟩ := Opcode.exists_ofTag? (headerTag h)
    have ht := ofTag?_headerTag.1 ho
    by_cases hn : h.toNat / 16 % 4 ∈ o.arities
    case neg => simp [decodeCommand_of_arity hr ht hn] at hok
    cases ha : decodeDescriptors (h.toNat / 16 % 4) rest with
    | none => simp [decodeCommand_of_noDescriptors hr ht hn ha] at hok
    | some args =>
      rw [decodeCommand_of_descriptors hr ht hn ha] at hok
      obtain ⟨rfl, rfl⟩ := Instr.build_eq_ok.1 hok
      obtain ⟨hlen, -, -⟩ := decodeDescriptors_eq_some ha
      exact ⟨h, rest, rfl, by omega, hlen ▸ ha⟩

/-! ## The decoder and the encoder -/

theorem Instr.fits_iff {i : Instr} : i.fits = true ↔ ∀ a ∈ i.operands, a.fits = true := List.all_eq_true

/-- Decoding an encoded instruction whose operands fit gives it back. -/
theorem decodeCommand_encode {i : Instr} (h : i.fits = true) : decodeCommand (encode i) = .ok i := by
  have hle := Opcode.arity_le i.operands_length_mem
  have hlt := i.opcode.tag.isLt
  have hhead := i.header_toNat
  have hn : i.header.toNat / 16 % 4 = i.operands.length := by omega
  have ha : decodeDescriptors (i.header.toNat / 16 % 4) (i.operands.flatMap encodeOperand) = some i.operands :=
    hn ▸ decodeDescriptors_flatMap (Instr.fits_iff.1 h)
  rw [encode, decodeCommand_of_descriptors (by omega) (by omega) (hn ▸ i.operands_length_mem) ha]
  exact Instr.build_eq_ok.2 ⟨rfl, rfl⟩

/-- The bytes that decode to an instruction are its encoding. -/
theorem encode_of_decodeCommand {bytes : List Byte} {i : Instr} (h : decodeCommand bytes = .ok i) :
    encode i = bytes ∧ i.fits = true := by
  obtain ⟨head, rest, rfl, hhead, ha⟩ := decodeCommand_eq_ok h
  obtain ⟨-, hbytes, hfits⟩ := decodeDescriptors_eq_some ha
  refine ⟨?_, Instr.fits_iff.2 hfits⟩
  rw [encode, hbytes, BitVec.eq_of_toNat_eq (i.header_toNat.trans hhead.symm)]

/-- Settles O29: the header and each descriptor read back, and a payload's bytes are the digits of its value. -/
theorem commandsDecodeBack : Obligations.CommandsDecodeBack := by
  refine ⟨fun i h => ⟨decodeCommand_encode h, ?_, i.header, rfl, i.header_toNat⟩, fun v => ?_, fun k => ?_⟩
  · rw [encode, List.length_cons, flatMap_encodeOperand_length, Nat.add_comm]
  · simp only [encodeOperand, leBytes_eq_map, byte_eq_slice]
    rfl
  · rw [encodeOperand, leBytes_eq_map]
    rfl

/-- Settles O30: bytes that decode are the header and the descriptors of what they decode to. -/
theorem commandBytesHaveOneMeaning : Obligations.CommandBytesHaveOneMeaning := fun _ _ h => encode_of_decodeCommand h

/-- The header of every form stands in the opcode table. -/
theorem Instr.header_mem (i : Instr) : i.header ∈ [(0x20 : Byte), 0x21, 0x31, 0x22, 0x32, 0x23, 0x33, 0x24, 0x34,
    0x25, 0x35, 0x26, 0x36, 0x27, 0x37, 0x18, 0x19, 0x2A, 0x2B, 0x2C, 0x1D, 0x1E, 0x0F] := by
  cases i <;> simp [Instr.header, Instr.operands, Instr.dest?, Instr.sources, Instr.opcode, Opcode.tag]

/-- Settles O31: a form's header is computed from its row, and bytes that decode begin with the header of the
instruction they are the encoding of. -/
theorem validHeadersAreTheTables : Obligations.ValidHeadersAreTheTables := by
  refine ⟨fun d a b => ?_, fun h rest i hok => ?_⟩
  · simp [encode, Instr.header, Instr.operands, Instr.dest?, Instr.sources, Instr.opcode, Opcode.tag]
  · obtain ⟨hbytes, -⟩ := encode_of_decodeCommand hok
    have hhead : i.header = h := List.head_eq_of_cons_eq hbytes
    exact hhead ▸ i.header_mem

/-- Settles O32: the command decoder evaluated on the eight commands. -/
theorem sampleCommandsDecode : Obligations.SampleCommandsDecode := by
  unfold Obligations.SampleCommandsDecode
  decide

/-- Settles O57: the two numberings are tables, and every tag has an opcode. -/
theorem tagsNumberOpcodesAndTheAlu : Obligations.TagsNumberOpcodesAndTheAlu :=
  ⟨rfl, Opcode.exists_ofTag?, rfl, by decide⟩

end Sys2Proof
end

section
/-! SUPPORT. Steps of commands (`30_encoding.md` R94): the order of the checks, what an instruction raises once its
descriptors have passed theirs, and the step of a request (`70_reset_and_hazards.md` R275). -/

namespace Sys2Proof.Machine

/-! ## The first descriptor error is raised -/

theorem firstError_eq (cfg : Config) (i : Instr) :
    firstError cfg i = (i.dest?.bind (destError cfg)).or (i.sources.findSome? (sourceError cfg)) := by
  cases h : i.dest?.bind (destError cfg) <;> simp [firstError, h, List.head?_filterMap]

/-- A destination check that comes first raises its descriptor's error, or leaves it to what follows. -/
theorem State.finish_checkDest {s : State} {d : Operand} {x : Option ErrorKind} {e : ErrorKind}
    {f : Nat → Except Stop State} (h : (destError s.cfg d).or x = some e)
    (hf : x = some e → ∀ k, s.finish (f k) = s.raise e) : s.finish (s.checkDest d >>= f) = s.raise e := by
  cases hd : destError s.cfg d with
  | none =>
    obtain ⟨k, -, hk, -⟩ := State.checkDest_of_noError hd
    rw [hk]
    exact hf (by simpa [hd] using h) k
  | some e' =>
    obtain rfl : e' = e := by simpa [hd] using h
    rw [State.checkDest_of_error hd]
    rfl

/-- A source check that comes first raises its descriptor's error, or leaves it to what follows. -/
theorem State.finish_checkSource {s : State} {a : Operand} {as : List Operand} {e : ErrorKind}
    {f : Unit → Except Stop State} (h : (a :: as).findSome? (sourceError s.cfg) = some e)
    (hf : as.findSome? (sourceError s.cfg) = some e → s.finish (f ()) = s.raise e) :
    s.finish (s.checkSource a >>= f) = s.raise e := by
  cases ha : sourceError s.cfg a with
  | none =>
    rw [State.checkSource_of_noError ha]
    exact hf (by simpa [ha] using h)
  | some e' =>
    obtain rfl : e' = e := by simpa [ha] using h
    rw [State.checkSource_of_error ha]
    rfl

/-- Every form checks its destination, then its sources from the left, before anything else. -/
theorem Form.raise_of_firstError {i : Instr} {f : State → Result} {s : State} {e : ErrorKind} (hf : Form i f)
    (h : firstError s.cfg i = some e) : f s = s.raise e := by
  rw [firstError_eq] at h
  cases hf with
  | mov d a => exact State.finish_checkDest h fun h _ => State.finish_checkSource h nofun
  | alu2 op d a hd _ hs =>
    rw [hd, hs] at h
    exact State.finish_checkDest h fun h _ => State.finish_checkSource h nofun
  | alu3 op d a b hd _ hs =>
    rw [hd, hs] at h
    exact State.finish_checkDest h fun h _ => State.finish_checkSource h fun h => State.finish_checkSource h nofun
  | alu1 op d hd _ hs =>
    rw [hd, hs] at h
    exact State.finish_checkDest h nofun
  | cmp a b => exact State.finish_checkSource h fun h => State.finish_checkSource h nofun
  | push a => exact State.finish_checkSource h nofun
  | pop d => exact State.finish_checkDest h nofun
  | rdump => exact absurd h nofun

/-! ## What is raised after the checks -/

/-- The errors of the operations' own rules (`42_arith_logic.md` R147, `46_stack.md` R193, R197). -/
def operationErrors : List ErrorKind := [.divisionByZero, .stackOverflow, .stackUnderflow, .outOfBounds]

/-- The computation raises no other errors than those of the operations' own rules. -/
def RaisesOwn {α : Type} (x : Except Stop α) : Prop :=
  ∀ e, x = .error (.raised e) → e ∈ operationErrors

namespace RaisesOwn

theorem ok {α : Type} (a : α) : RaisesOwn (.ok a : Except Stop α) := nofun

theorem bind {α β : Type} {x : Except Stop α} {f : α → Except Stop β} (hx : RaisesOwn x)
    (hf : ∀ a, RaisesOwn (f a)) : RaisesOwn (x >>= f) := by
  intro e h
  obtain h | ⟨a, -, h⟩ := bind_eq_error.1 h
  · exact hx e h
  · exact hf a e h

theorem raised {α : Type} {e : ErrorKind} (h : e ∈ operationErrors) :
    RaisesOwn (.error (.raised e) : Except Stop α) := by
  rintro _ ⟨⟩
  exact h

variable (s : State)

theorem readReg (k : Nat) : RaisesOwn (s.readReg k) := by
  unfold State.readReg
  split <;> nofun

theorem position (n : Text) : RaisesOwn (s.position n) := by
  unfold State.position
  split <;> nofun

theorem readNamed (n : Text) : RaisesOwn (s.readNamed n) := (position s n).bind fun k => readReg s k

theorem writeNamed (n : Text) (v : Word) : RaisesOwn (s.writeNamed n v) := (position s n).bind fun _ => ok _

theorem checkDest {s : State} {d : Operand} (h : destError s.cfg d = none) : RaisesOwn (s.checkDest d) := by
  obtain ⟨k, -, hk, -⟩ := State.checkDest_of_noError h
  exact hk ▸ ok k

theorem checkSource {s : State} {a : Operand} (h : sourceError s.cfg a = none) : RaisesOwn (s.checkSource a) :=
  State.checkSource_of_noError h ▸ ok ()

theorem readSource {s : State} {a : Operand} (h : sourceError s.cfg a = none) : RaisesOwn (s.readSource a) := by
  cases a with
  | imm v => exact ok v
  | reg k => exact readReg s k
  | bad kind v => simp [sourceError] at h

theorem aluResult (op : AluOp) (a b : Word) : RaisesOwn (aluResult op a b) := by
  unfold Machine.aluResult
  split
  · exact ok _
  · exact raised (by decide)

theorem push (v : Word) : RaisesOwn (s.push v) := by
  refine (readNamed s rspName).bind fun p => (readNamed s ssName).bind fun base => ?_
  split
  · exact raised (by decide)
  · split
    · exact raised (by decide)
    · exact writeNamed _ _ _

theorem pop (d : Nat) : RaisesOwn (s.pop d) := by
  refine (readNamed s rspName).bind fun p => ?_
  split
  · exact raised (by decide)
  · exact (writeNamed s rspName _).bind fun _ => ok _

theorem dumpLinesOf (ns : List Text) : RaisesOwn (s.dumpLinesOf ns) := by
  induction ns with
  | nil => exact ok _
  | cons n ns ih => exact (readNamed s n).bind fun _ => ih.bind fun _ => ok _

theorem dumped : RaisesOwn s.dumped := (dumpLinesOf s s.cfg.dumpOrder).bind fun _ => ok _

end RaisesOwn

/-- An instruction that answers an error's state raised that error: completing replies another status. -/
theorem State.finish_eq_raise {s : State} {r : Except Stop State} {e : ErrorKind} (h : s.finish r = s.raise e) :
    r = .error (.raised e) := by
  obtain ⟨u, -, hu⟩ | ⟨e', rfl, he⟩ := State.finish_eq_next h
  · have hlast := congrArg (fun t : State => t.replies.getLast?) hu
    simp at hlast
  · simpa [State.reply] using he.symm

theorem State.own_of_finish {s : State} {r : Except Stop State} (hr : RaisesOwn r) {e : ErrorKind}
    (h : s.finish r = s.raise e) : e ∈ operationErrors :=
  hr e (State.finish_eq_raise h)

/-- Once the descriptors have passed their checks, a form raises only what its operation does. -/
theorem Form.raises_own {i : Instr} {f : State → Result} {s : State} {e : ErrorKind} (hf : Form i f)
    (he : firstError s.cfg i = none) (h : f s = s.raise e) : e ∈ operationErrors := by
  obtain ⟨hdest, hsrc⟩ := firstError_eq_none.1 he
  cases hf with
  | mov d a =>
    have ha := hsrc a (by simp [Instr.sources])
    exact State.own_of_finish ((RaisesOwn.checkDest (hdest d rfl)).bind fun k =>
      (RaisesOwn.checkSource ha).bind fun _ => (RaisesOwn.readSource ha).bind fun _ => .ok _) h
  | alu2 op d a hd hr hs =>
    have ha := hsrc a (by simp [hs])
    exact State.own_of_finish ((RaisesOwn.checkDest (hdest d hd)).bind fun k => (RaisesOwn.checkSource ha).bind fun _ =>
      (RaisesOwn.readReg s k).bind fun x => (RaisesOwn.readSource ha).bind fun y =>
      (RaisesOwn.aluResult op x y).bind fun _ => .ok _) h
  | alu3 op d a b hd hr hs =>
    have ha := hsrc a (by simp [hs])
    have hb := hsrc b (by simp [hs])
    exact State.own_of_finish ((RaisesOwn.checkDest (hdest d hd)).bind fun k => (RaisesOwn.checkSource ha).bind fun _ =>
      (RaisesOwn.checkSource hb).bind fun _ => (RaisesOwn.readSource ha).bind fun x =>
      (RaisesOwn.readSource hb).bind fun y => (RaisesOwn.aluResult op x y).bind fun _ => .ok _) h
  | alu1 op d hd hr hs =>
    exact State.own_of_finish ((RaisesOwn.checkDest (hdest d hd)).bind fun k => (RaisesOwn.readReg s k).bind fun x =>
      (RaisesOwn.aluResult op x 0).bind fun _ => .ok _) h
  | cmp a b =>
    have ha := hsrc a (by simp [Instr.sources])
    have hb := hsrc b (by simp [Instr.sources])
    exact State.own_of_finish ((RaisesOwn.checkSource ha).bind fun _ => (RaisesOwn.checkSource hb).bind fun _ =>
      (RaisesOwn.readSource ha).bind fun _ => (RaisesOwn.readSource hb).bind fun _ => .ok _) h
  | push a =>
    have ha := hsrc a (by simp [Instr.sources])
    exact State.own_of_finish ((RaisesOwn.checkSource ha).bind fun _ => (RaisesOwn.readSource ha).bind fun v =>
      RaisesOwn.push s v) h
  | pop d =>
    exact State.own_of_finish ((RaisesOwn.checkDest (hdest d rfl)).bind fun k => RaisesOwn.pop s k) h
  | rdump => exact State.own_of_finish (RaisesOwn.dumped s) h

/-! ## Steps of commands -/

theorem stepCommand_of_ok {bytes : List Byte} {i : Instr} (s : State) (h : decodeCommand bytes = .ok i) :
    stepCommand bytes s = exec i s := by
  rw [stepCommand, h, runDecoded]

theorem stepCommand_of_error {bytes : List Byte} {e : DecodeError} (s : State) (h : decodeCommand bytes = .error e) :
    stepCommand bytes s = s.stop (DecodeError.toStop e) := by
  rw [stepCommand, h, runDecoded]

/-- Settles O19: the decoder's checks of the header, then the form's checks of its descriptors, then its own. -/
theorem commandChecksInOrder : Obligations.CommandChecksInOrder := by
  refine ⟨fun h rest s _ hr => ?_, fun h rest s o _ hr ht hn => ?_, fun i s e he => ?_, fun bytes s i h => ?_,
    fun i s e he h => ?_⟩
  · exact stepCommand_of_error s (decodeCommand_of_rsv hr)
  · exact stepCommand_of_error s (decodeCommand_of_arity hr ht hn)
  · exact (exec_form i).raise_of_firstError he
  · exact stepCommand_of_ok s h
  · exact (exec_form i).raises_own he h

/-- Settles O59: the decoder looks at the header first and then needs nine bytes an operand. -/
theorem bytesThatAreNoCommand : Obligations.BytesThatAreNoCommand := by
  refine ⟨fun s => rfl, fun h rest s => ⟨fun hr => ?_, fun o hr ht => ⟨fun hn => ?_, fun hn hl => ?_⟩⟩⟩
  · exact stepCommand_of_error s (decodeCommand_of_rsv hr)
  · exact stepCommand_of_error s (decodeCommand_of_arity hr ht hn)
  · exact stepCommand_of_error s (decodeCommand_of_length hr ht hn hl)

/-! ## The step of a request -/

theorem step_of_inputs {s : State} {r : Request} {rest : List Request} (h : s.inputs = r :: rest) :
    step s = serve r { s with inputs := rest } := by
  have htaken : s.taken = { s with inputs := rest } := by rw [State.taken, h, List.drop_one, List.tail_cons]
  rw [← htaken, step, h]

theorem stepLine_of_ok {line : Text} {s : State} {i : Instr} (h : decodeLine s.cfg line = .ok i) :
    stepLine line s = exec i s := by
  rw [stepLine, h, runDecoded]

/-- With `FEEDER_POLICY = Continue` the feeder drops nothing (`70_reset_and_hazards.md` R276). -/
theorem State.feed_of_continue {s : State} (h : s.cfg.feederPolicy = .continueRun) : s.feed = s := by
  simp [State.feed, h]

theorem feedAfter_of_continue {s : State} {o : Result} (h : s.cfg.feederPolicy = .continueRun)
    (ho : KeepsConfig s o) : feedAfter o = o := by
  cases o with
  | next t =>
    have hcfg : t.cfg = s.cfg := ho t rfl
    rw [feedAfter, State.feed_of_continue (hcfg ▸ h)]
  | fault f => rfl
  | refused r => rfl

theorem decodeTableWord_eq_some {nbits w : Nat} {i : Instr} (h : decodeTableWord nbits w = some i) :
    decodeCommand (tableWordBytes nbits w) = .ok i := by
  unfold decodeTableWord at h
  split at h
  · next j hj => exact Option.some.inj h ▸ hj
  · cases h

/-- Settles O7: the step serves the first request, by its kind; a command or a line that decodes is executed. -/
theorem stepRunsTheDecodedInstruction : Obligations.StepRunsTheDecodedInstruction := by
  refine ⟨fun s bytes rest i hin h => ?_, fun s line rest i hin h => ?_, fun s r rest hin => ?_, fun s i h => ?_,
    fun s nbits w i h => ?_⟩
  · rw [step_of_inputs hin, serve, stepCommand_of_ok _ h]
  · rw [step_of_inputs hin, serve, stepLine_of_ok (by exact h)]
  · rw [step_of_inputs hin]
    and_intros <;> intros <;> subst r <;> rfl
  · exact feedAfter_of_continue h (exec_keepsConfig i s)
  · rw [State.withFetchWord, step_of_inputs (State.ask_inputs ..), serve,
      stepCommand_of_ok _ (decodeTableWord_eq_some h)]
    rfl

end Sys2Proof.Machine
end

section
/-! SUPPORT. The pieces of a line (`30_encoding.md` R71 to R82): its tokens, the classes of operand tokens, and the
values of hexadecimal and decimal literals. -/

namespace Sys2Proof

/-! ## Tokens -/

/-- Settles O21: commas go first, and what is left is read run by run. -/
theorem tokenRules : Obligations.TokenRules := by
  refine ⟨fun line => by simp [tokens], rfl, fun c line hc => ?_, fun run hne hrun => ?_⟩
  · exact tokens_whitespace line ((isWhitespace_iff c).2 hc)
  · have hspace : ∀ c ∈ run, isWhitespace c = false := by
      intro c hc
      rw [← Bool.not_eq_true, isWhitespace_iff]
      have := hrun c hc
      simp only [List.mem_cons, not_or] at this ⊢
      tauto
    have hcomma : ∀ c ∈ run, c ≠ ',' := by
      rintro c hc rfl
      exact hrun ',' hc (by simp)
    exact ⟨tokens_lastRun run hspace hcomma hne,
      fun c line hc => tokens_run run line hspace hcomma hne ((isWhitespace_iff c).2 hc)⟩

/-- A token does not depend on commas. -/
theorem tokens_eq_of_filter {a b : Text} (h : a.filter (fun c => c != ',') = b.filter (fun c => c != ',')) :
    tokens a = tokens b := by
  rw [tokens, tokens, h]

/-- A word in front of a blank is the first token, unless it is made of commas alone. -/
theorem tokens_word {word : Text} (h : ∀ c ∈ word, isWhitespace c = false) (line : Text) :
    tokens (word ++ ' ' :: line) =
      if word.filter (fun c => c != ',') = [] then tokens line
      else word.filter (fun c => c != ',') :: tokens line := by
  have hfilter : tokens (word ++ ' ' :: line) = tokens (word.filter (fun c => c != ',') ++ ' ' :: line) :=
    tokens_eq_of_filter (by simp)
  rw [hfilter]
  split
  · next hnil => rw [hnil, List.nil_append, tokens_whitespace line rfl]
  · next hne =>
    exact tokens_run _ line (fun c hc => h c (List.mem_of_mem_filter hc))
      (fun c hc => by simpa using List.of_mem_filter hc) hne rfl

/-! ## Letter case of the opcode -/

theorem upper_upper (t : Text) : upper (upper t) = upper t := by
  simp [upper, upperChar_upperChar]

theorem upper_filter_comma (t : Text) :
    (upper t).filter (fun c => c != ',') = upper (t.filter (fun c => c != ',')) := by
  simp only [upper, List.filter_map]
  congr 2
  funext c
  simp [bne, upperChar_comma]

theorem decodeLine_congr {cfg : Config} {a b : Text} (h : tokens a = tokens b) :
    decodeLine cfg a = decodeLine cfg b := by
  rw [decodeLine, decodeLine, h]

/-- Decoding sees the upper-case form of the opcode token alone. -/
theorem decodeLine_of_upper {cfg : Config} {a b op op' : Text} {ops : List Text} (ha : tokens a = op :: ops)
    (hb : tokens b = op' :: ops) (h : upper op = upper op') : decodeLine cfg a = decodeLine cfg b := by
  simp [decodeLine, ha, hb, h]

/-- Settles O22: the word before the blank is the opcode token in either case, and its upper-case form is the same. -/
theorem opcodeTokenIsCaseInsensitive : Obligations.OpcodeTokenIsCaseInsensitive := by
  intro cfg op line h
  have hup : ∀ c ∈ upper op, isWhitespace c = false := by simpa [upper, isWhitespace_upperChar] using h
  have hl := tokens_word hup line
  have hr := tokens_word h line
  by_cases hnil : op.filter (fun c => c != ',') = []
  · rw [upper_filter_comma, hnil] at hl
    rw [hnil] at hr
    exact decodeLine_congr (hl.trans hr.symm)
  · rw [if_neg hnil] at hr
    rw [upper_filter_comma, if_neg (by simpa [upper] using hnil)] at hl
    exact decodeLine_of_upper hl hr (upper_upper _)

/-! ## Classes of operand tokens -/

theorem tokenClass_hex {t : Text} : tokenClass t = .hex ↔ isHexToken t = true := by
  unfold tokenClass
  split_ifs <;> simp_all

theorem tokenClass_dec {t : Text} : tokenClass t = .dec ↔ isDecToken t = true := by
  unfold tokenClass
  split_ifs with hx <;> simp_all [isDecToken_of_hex]

theorem tokenClass_flt {t : Text} : tokenClass t = .flt ↔ isFltToken t = true := by
  have hdisjoint : isFltToken t = true → isHexToken t = false ∧ isDecToken t = false := not_hex_dec_of_flt
  unfold tokenClass
  split_ifs <;> simp_all

theorem tokenClass_regName {t : Text} : tokenClass t = .regName ↔ isRegNameToken t = true := by
  have hdisjoint : isRegNameToken t = true → isHexToken t = false ∧ isDecToken t = false ∧ isFltToken t = false :=
    not_hex_dec_flt_of_regName
  unfold tokenClass
  split_ifs <;> simp_all

theorem tokenClass_other {t : Text} : tokenClass t = .other ↔
    tokenClass t ≠ .hex ∧ tokenClass t ≠ .dec ∧ tokenClass t ≠ .flt ∧ tokenClass t ≠ .regName := by
  cases tokenClass t <;> simp

/-- Settles O23: each class is its pattern, because the patterns exclude each other. -/
theorem tokenClassesAreThePatterns : Obligations.TokenClassesAreThePatterns := by
  intro t
  refine ⟨?_, ?_, ?_, ?_, tokenClass_other⟩
  · simp only [tokenClass_hex, isHexToken_iff, isHexDigit_iff]
  · simp only [tokenClass_dec, isDecToken_iff, isDigit_iff]
  · simp only [tokenClass_flt, isFltToken_iff, isDecToken_iff, isDigit_iff, List.forall_mem_append]
    grind
  · simp only [tokenClass_regName, isRegNameToken_iff, isUpperLetter_iff, isDigit_iff]

/-! ## Hexadecimal and decimal literals -/

theorem decodeLiteral_eq (max v : Nat) :
    decodeLiteral max v = if v ≤ max then .ok (.imm (BitVec.ofNat 64 v)) else .error (.raised .unknownOperand) := by
  rw [decodeLiteral, wrap64_natCast]

theorem decodeLiteral_eq_ok {max v : Nat} {a : Operand} (h : decodeLiteral max v = .ok a) :
    v ≤ max ∧ a = .imm (wrap64 v) := by
  unfold decodeLiteral at h
  split at h <;> cases h
  exact ⟨‹_›, rfl⟩

/-- A HEX token is the literal its digits write (R79). -/
theorem decodeSource_hex (cfg : Config) {ds : Text} (hne : ds ≠ []) (h : ∀ c ∈ ds, isHexDigit c = true) :
    decodeSource cfg ('0' :: 'x' :: ds) = decodeLiteral (2 ^ 64 - 1) (Nat.ofDigits 16 (ds.reverse.map digitValue)) := by
  have hclass : tokenClass ('0' :: 'x' :: ds) = .hex := tokenClass_hex.2 ((isHexToken_iff _).2 ⟨ds, hne, h, rfl⟩)
  simp only [decodeSource, hclass]
  rw [List.drop_succ_cons, List.drop_one, List.tail_cons, digitsValue_eq]

/-- A DEC token is the literal its digits write (R82). -/
theorem decodeSource_dec (cfg : Config) {ds : Text} (hne : ds ≠ []) (h : ∀ c ∈ ds, isDigit c = true) :
    decodeSource cfg ds = decodeLiteral cfg.decMax.value (Nat.ofDigits 10 (ds.reverse.map digitValue)) := by
  have hclass : tokenClass ds = .dec := tokenClass_dec.2 ((isDecToken_iff _).2 ⟨hne, h⟩)
  simp only [decodeSource, hclass]
  rw [digitsValue_eq]

/-- No pattern begins with a minus sign. -/
theorem tokenClass_minus (t : Text) : tokenClass ('-' :: t) = .other := by
  have hdigit : isDigit '-' = false := by decide
  have hupper : isUpperLetter '-' = false := by decide
  have hx : isHexToken ('-' :: t) = false := rfl
  have hd : isDecToken ('-' :: t) = false := by simp [isDecToken, hdigit]
  have hf : isFltToken ('-' :: t) = false := by simp [isFltToken, fltParts, isDecToken, hdigit]
  have hr : isRegNameToken ('-' :: t) = false := by simp [isRegNameToken, hupper]
  simp [tokenClass, hx, hd, hf, hr]

/-- Settles O24: the class gives the base, and the bound decides between the literal and the error. -/
theorem hexAndDecimalLiterals : Obligations.HexAndDecimalLiterals := by
  refine ⟨fun cfg ds hne h => ?_, fun cfg ds hne h => ?_, tokenClass_minus, by decide, by decide⟩
  · rw [decodeSource_hex cfg hne fun c hc => (isHexDigit_iff c).2 (h c hc), decodeLiteral_eq]
    simp only [Nat.le_sub_one_iff_lt (Nat.two_pow_pos 64)]
  · rw [decodeSource_dec cfg hne fun c hc => (isDigit_iff c).2 (h c hc), decodeLiteral_eq]

end Sys2Proof
end

section
/-! SUPPORT. Lines and instructions (`30_encoding.md` R88, R93): what a line that decodes is made of, that it decodes
to a well-formed instruction, and that the assembler line of an instruction decodes to it. -/

namespace Sys2Proof

open Machine (bind_eq_ok ok_bind position?_eq_some)

/-! ## What decodes -/

theorem decodeRegName_eq_ok {cfg : Config} {t : Text} {a : Operand} :
    decodeRegName cfg t = .ok a ↔ ∃ k, cfg.position? t = some k ∧ a = .reg k := by
  unfold decodeRegName
  cases cfg.position? t <;> simp [eq_comm]

/-- A destination token that decodes is a register's name (R86). -/
theorem decodeDest_eq_ok {cfg : Config} {t : Text} {a : Operand} : decodeDest cfg t = .ok a ↔
    tokenClass t = .regName ∧ ∃ k, cfg.position? t = some k ∧ a = .reg k := by
  rw [← decodeRegName_eq_ok]
  unfold decodeDest
  cases tokenClass t <;> simp

theorem decodeSources_eq_ok {cfg : Config} {ts : List Text} {as : List Operand} :
    decodeSources cfg ts = .ok as ↔ List.Forall₂ (fun t a => decodeSource cfg t = .ok a) ts as := by
  induction ts generalizing as with
  | nil => cases as <;> simp [decodeSources]
  | cons t ts ih =>
    simp only [decodeSources, bind_eq_ok, ih, List.forall₂_cons_left_iff]
    constructor
    · rintro ⟨a, ha, as', has, h⟩
      exact ⟨a, as', ha, has, (Except.ok.inj h).symm⟩
    · rintro ⟨a, as', ha, has, rfl⟩
      exact ⟨a, ha, as', has, rfl⟩

/-- Where the opcode has a destination, the first token decodes as one and the others as sources. -/
theorem decodeOperands_cons_eq_ok {cfg : Config} {o : Opcode} (ho : o.hasDest = true) {ts : List Text} {d : Operand}
    {as : List Operand} : decodeOperands cfg o ts = .ok (d :: as) ↔
      ∃ t rest, ts = t :: rest ∧ decodeDest cfg t = .ok d ∧
        List.Forall₂ (fun t a => decodeSource cfg t = .ok a) rest as := by
  rw [decodeOperands.eq_def, if_pos ho]
  cases ts with
  | nil => simp
  | cons t rest =>
    simp only [bind_eq_ok, decodeSources_eq_ok]
    constructor
    · rintro ⟨d', hd, as', has, h⟩
      obtain ⟨rfl, rfl⟩ := List.cons.inj (Except.ok.inj h)
      exact ⟨t, rest, rfl, hd, has⟩
    · rintro ⟨_, _, ⟨⟩, hd, has⟩
      exact ⟨d, hd, as, has, rfl⟩

theorem decodeOperands_of_noDest {cfg : Config} {o : Opcode} (ho : o.hasDest = false) (ts : List Text) :
    decodeOperands cfg o ts = decodeSources cfg ts := by
  rw [decodeOperands.eq_def, if_neg (by simp [ho])]

/-- The operand tokens of an instruction: its destination's, where it has one, and one for each source. -/
theorem decodeOperands_operands {cfg : Config} {i : Instr} {ts : List Text} :
    decodeOperands cfg i.opcode ts = .ok i.operands ↔
      ∃ dest rest, ts = dest ++ rest ∧
        List.Forall₂ (fun t a => decodeDest cfg t = .ok a) dest i.dest?.toList ∧
        List.Forall₂ (fun t a => decodeSource cfg t = .ok a) rest i.sources := by
  have ho := i.opcode_hasDest
  cases hd : i.dest? with
  | none =>
    rw [hd] at ho
    rw [decodeOperands_of_noDest ho, decodeSources_eq_ok, Instr.operands, hd]
    simp
  | some d =>
    rw [hd] at ho
    rw [Instr.operands, hd]
    refine (decodeOperands_cons_eq_ok ho).trans ?_
    simp [List.forall₂_cons_right_iff, exists_comm (α := Text)]

theorem decodeOperands_length {cfg : Config} {o : Opcode} {ts : List Text} {as : List Operand}
    (h : decodeOperands cfg o ts = .ok as) : ts.length = as.length := by
  cases ho : o.hasDest with
  | false =>
    rw [decodeOperands_of_noDest ho, decodeSources_eq_ok] at h
    exact h.length_eq
  | true =>
    cases as with
    | nil =>
      cases ts with
      | nil => rfl
      | cons t ts =>
        simp only [decodeOperands, ho, if_true, bind_eq_ok] at h
        obtain ⟨_, -, _, -, h⟩ := h
        cases h
    | cons d as =>
      obtain ⟨t, rest, rfl, -, hrest⟩ := (decodeOperands_cons_eq_ok ho).1 h
      simp [hrest.length_eq]

/-! ## The line decoder by its stages -/

section Stages

variable {cfg : Config} {line op : Text} {ops : List Text}

theorem decodeLine_of_noToken (h : tokens line = []) :
    decodeLine cfg line = .error (.raised .malformedInstruction) := by
  rw [decodeLine, h]

variable (h : tokens line = op :: ops)
include h

theorem decodeLine_of_noMnemonic (ho : Opcode.ofMnemonic? (upper op) = none) :
    decodeLine cfg line = .error (.raised .unknownInstruction) := by
  simp only [decodeLine, h, ho]

variable {o : Opcode} (ho : Opcode.ofMnemonic? (upper op) = some o)
include ho

theorem decodeLine_of_arity (hn : ops.length ∉ o.arities) :
    decodeLine cfg line = .error (.raised .arityMismatch) := by
  simp only [decodeLine, h, ho, if_neg hn]

theorem decodeLine_of_operands (hn : ops.length ∈ o.arities) :
    decodeLine cfg line = decodeOperands cfg o ops >>= Instr.build o := by
  simp only [decodeLine, h, ho, if_pos hn]

end Stages

/-- What a line that decodes is made of: the opcode's token, in either case, and the operands' tokens
(`40_execution.md` R111 stages 1 to 5). -/
theorem decodeLine_eq_ok {cfg : Config} {line : Text} {i : Instr} (hok : decodeLine cfg line = .ok i) :
    ∃ op ops, tokens line = op :: ops ∧ Opcode.ofMnemonic? (upper op) = some i.opcode ∧
      decodeOperands cfg i.opcode ops = .ok i.operands := by
  cases h : tokens line with
  | nil => simp [decodeLine_of_noToken h] at hok
  | cons op ops =>
    cases ho : Opcode.ofMnemonic? (upper op) with
    | none => simp [decodeLine_of_noMnemonic h ho] at hok
    | some o =>
      by_cases hn : ops.length ∈ o.arities
      case neg => simp [decodeLine_of_arity h ho hn] at hok
      rw [decodeLine_of_operands h ho hn] at hok
      obtain ⟨args, hargs, hbuild⟩ := bind_eq_ok.1 hok
      obtain ⟨rfl, rfl⟩ := Instr.build_eq_ok.1 hbuild
      exact ⟨op, ops, rfl, ho, hargs⟩

/-! ## Decoded lines are well-formed -/

theorem destOk_of_decodeDest {cfg : Config} {t : Text} {a : Operand} (h : decodeDest cfg t = .ok a) :
    a.destOk cfg = true := by
  obtain ⟨-, k, hk, rfl⟩ := decodeDest_eq_ok.1 h
  obtain ⟨hlt, -⟩ := position?_eq_some hk
  exact decide_eq_true hlt

/-- A source token decodes to a literal or to a register of `REG_NAMES`. -/
theorem sourceOk_of_decodeSource {cfg : Config} {t : Text} {a : Operand} (h : decodeSource cfg t = .ok a) :
    a.sourceOk cfg = true := by
  unfold decodeSource at h
  cases hc : tokenClass t <;> simp only [hc] at h
  case hex | dec =>
    obtain ⟨-, rfl⟩ := decodeLiteral_eq_ok h
    rfl
  case flt =>
    cases hv : Binary64.literal cfg.floatMode (fltValue t) <;> rw [hv] at h <;> cases h
    rfl
  case regName =>
    obtain ⟨k, hk, rfl⟩ := decodeRegName_eq_ok.1 h
    obtain ⟨hlt, -⟩ := position?_eq_some hk
    exact decide_eq_true hlt
  case other => cases h

/-- What each token's operand has, all the operands have. -/
theorem forall_of_forall₂ {α β : Type} {R : α → β → Prop} {p : β → Prop} {ts : List α} {as : List β}
    (h : List.Forall₂ R ts as) (hp : ∀ t a, R t a → p a) : ∀ a ∈ as, p a := by
  induction h with
  | nil => simp
  | cons ha _ ih => exact List.forall_mem_cons.2 ⟨hp _ _ ha, ih⟩

theorem wellFormed_iff {cfg : Config} {i : Instr} : WellFormed cfg i = true ↔
    (∀ a ∈ i.dest?.toList, a.destOk cfg = true) ∧ ∀ a ∈ i.sources, a.sourceOk cfg = true := by
  cases hd : i.dest? <;> simp [WellFormed, hd]

/-- Settles O27: each operand of a decoded line comes from a token that decodes in its place. -/
theorem decodedLinesAreWellFormed : Obligations.DecodedLinesAreWellFormed := by
  intro cfg line i h
  obtain ⟨op, ops, -, -, hops⟩ := decodeLine_eq_ok h
  obtain ⟨dest, rest, -, hdest, hrest⟩ := decodeOperands_operands.1 hops
  exact wellFormed_iff.2 ⟨forall_of_forall₂ hdest fun _ _ => destOk_of_decodeDest,
    forall_of_forall₂ hrest fun _ _ => sourceOk_of_decodeSource⟩

/-! ## The assembler line of an instruction -/

/-- A token of an assembler line: characters that neither separate tokens nor are deleted. -/
def IsToken (t : Text) : Prop := t ≠ [] ∧ ∀ c ∈ t, isWhitespace c = false ∧ c ≠ ','

/-- Tokens written with a blank in front of each are the tokens of the line. -/
theorem tokens_flatMap {t : Text} {ts : List Text} (ht : IsToken t) (hts : ∀ u ∈ ts, IsToken u) :
    tokens (t ++ ts.flatMap (' ' :: ·)) = t :: ts := by
  induction ts generalizing t with
  | nil =>
    obtain ⟨hne, hchars⟩ := ht
    rw [List.flatMap_nil, List.append_nil,
      tokens_lastRun t (fun c hc => (hchars c hc).left) (fun c hc => (hchars c hc).right) hne]
  | cons u us ih =>
    obtain ⟨hne, hchars⟩ := ht
    obtain ⟨hu, hus⟩ := List.forall_mem_cons.1 hts
    rw [List.flatMap_cons, List.cons_append,
      tokens_run t _ (fun c hc => (hchars c hc).left) (fun c hc => (hchars c hc).right) hne rfl, ih hu hus]

theorem isToken_hexLiteral (v : Nat) : IsToken ('0' :: 'x' :: hexDigits .upper 16 v) := by
  refine ⟨List.cons_ne_nil _ _, ?_⟩
  simp only [List.forall_mem_cons]
  refine ⟨by decide, by decide, fun c hc => ?_⟩
  obtain ⟨d, hd, rfl⟩ := mem_hexDigits _ _ _ _ hc
  obtain ⟨-, -, hspace, hcomma⟩ := hexDigit_spec .upper d hd
  exact ⟨hspace, hcomma⟩

/-- Capital letters and digits stand above every whitespace character and the comma. -/
theorem isToken_of_regName {t : Text} (h : tokenClass t = .regName) : IsToken t := by
  obtain ⟨a, b, hne, ha, hb, rfl⟩ := (isRegNameToken_iff t).1 (tokenClass_regName.1 h)
  have hchar {c : Char} (hc : 0x30 ≤ c.toNat) : isWhitespace c = false ∧ c ≠ ',' := by
    refine ⟨?_, ?_⟩
    · simp only [isWhitespace, Bool.or_eq_false_iff, beq_eq_false_iff_ne]
      omega
    · rintro rfl
      revert hc
      decide
  refine ⟨by simp [hne], fun c hc => hchar ?_⟩
  obtain hc | hc := List.mem_append.1 hc
  · have := ha c hc
    simp only [isUpperLetter, Bool.and_eq_true, decide_eq_true_eq] at this
    omega
  · have := hb c hc
    simp only [isDigit, Bool.and_eq_true, decide_eq_true_eq] at this
    omega

/-- A mnemonic has the shape of a register name. -/
theorem isToken_mnemonic (o : Opcode) : IsToken o.mnemonic := isToken_of_regName (by cases o <;> rfl)

theorem ofMnemonic?_upper_mnemonic (o : Opcode) : Opcode.ofMnemonic? (upper o.mnemonic) = some o :=
  ofMnemonic?_mnemonic (by cases o <;> rfl)

section Rendered

variable {cfg : Config} {k : Nat}

theorem decodeRegName_getD (hnd : cfg.regNames.Nodup) (hk : k < cfg.regNames.length) :
    decodeRegName cfg (cfg.regNames.getD k []) = .ok (.reg k) := by
  refine decodeRegName_eq_ok.2 ⟨k, ?_, rfl⟩
  rw [Config.position?, List.getD_eq_getElem _ _ hk, idxOf?_getElem hnd hk]

/-- The hexadecimal literal of a word is that word (R79, R88). -/
theorem decodeSource_hexLiteral (v : Word) :
    decodeSource cfg ('0' :: 'x' :: hexDigits .upper 16 v.toNat) = .ok (.imm v) := by
  have hne : hexDigits .upper 16 v.toNat ≠ [] := by
    rw [← List.length_pos_iff, hexDigits_length]
    decide
  have hdigit : ∀ c ∈ hexDigits .upper 16 v.toNat, isHexDigit c = true := by
    intro c hc
    obtain ⟨d, hd, rfl⟩ := mem_hexDigits _ _ _ _ hc
    obtain ⟨-, h, -, -⟩ := hexDigit_spec .upper d hd
    exact h
  have hvalue : v.toNat % 16 ^ 16 = v.toNat := Nat.mod_eq_of_lt v.isLt
  rw [decodeSource_hex cfg hne hdigit, ofDigits_hexDigits, hvalue, decodeLiteral_eq,
    if_pos (Nat.le_sub_one_of_lt v.isLt), BitVec.ofNat_toNat, BitVec.setWidth_eq]

variable {a : Operand} (hnd : cfg.regNames.Nodup)
  (hname : ∀ k, a = .reg k → tokenClass (cfg.regNames.getD k []) = .regName)
include hname

theorem isToken_renderOperand (ha : a.sourceOk cfg = true) : IsToken (renderOperand cfg a) := by
  cases a with
  | imm v => exact isToken_hexLiteral v.toNat
  | reg k => exact isToken_of_regName (hname k rfl)
  | bad kind v => cases ha

include hnd

theorem decodeSource_renderOperand (ha : a.sourceOk cfg = true) : decodeSource cfg (renderOperand cfg a) = .ok a := by
  cases a with
  | imm v => exact decodeSource_hexLiteral v
  | reg k =>
    simp only [renderOperand, decodeSource, hname k rfl]
    exact decodeRegName_getD hnd (of_decide_eq_true ha)
  | bad kind v => cases ha

theorem decodeDest_renderOperand (ha : a.destOk cfg = true) : decodeDest cfg (renderOperand cfg a) = .ok a := by
  cases a with
  | imm v => cases ha
  | reg k =>
    simp only [renderOperand, decodeDest, hname k rfl]
    exact decodeRegName_getD hnd (of_decide_eq_true ha)
  | bad kind v => cases ha

end Rendered

theorem sourceOk_of_destOk {cfg : Config} {a : Operand} (h : a.destOk cfg = true) : a.sourceOk cfg = true := by
  cases a with
  | imm v => rfl
  | reg k => exact h
  | bad kind v => exact h

section Lines

variable {cfg : Config} {i : Instr}
  (hname : ∀ a ∈ i.operands, ∀ k, a = .reg k → tokenClass (cfg.regNames.getD k []) = .regName)
  (hdest : ∀ a ∈ i.dest?.toList, a.destOk cfg = true) (hsrc : ∀ a ∈ i.sources, a.sourceOk cfg = true)
include hname hdest hsrc

/-- The tokens of an assembler line are the mnemonic and the operands' tokens. -/
theorem tokens_renderLine : tokens (renderLine cfg i) = i.opcode.mnemonic :: i.operands.map (renderOperand cfg) := by
  have hok : ∀ a ∈ i.operands, a.sourceOk cfg = true :=
    List.forall_mem_append.2 ⟨fun a ha => sourceOk_of_destOk (hdest a ha), hsrc⟩
  rw [renderLine, ← List.flatMap_map (renderOperand cfg) (' ' :: ·)]
  exact tokens_flatMap (isToken_mnemonic _)
    (List.forall_mem_map.2 fun a ha => isToken_renderOperand (hname a ha) (hok a ha))

/-- The operands' tokens decode to the operands, the destination's in its place. -/
theorem decodeOperands_renderOperand (hnd : cfg.regNames.Nodup) :
    decodeOperands cfg i.opcode (i.operands.map (renderOperand cfg)) = .ok i.operands := by
  refine decodeOperands_operands.2 ⟨_, _, List.map_append, ?_, ?_⟩ <;>
    rw [List.forall₂_map_left_iff, List.forall₂_same]
  · exact fun a ha => decodeDest_renderOperand hnd (hname a (List.mem_append_left _ ha)) (hdest a ha)
  · exact fun a ha => decodeSource_renderOperand hnd (hname a (List.mem_append_right _ ha)) (hsrc a ha)

end Lines

/-- Settles O28: the line has the mnemonic's and the operands' tokens, and each operand's token decodes to it. -/
theorem renderedLinesDecodeBack : Obligations.RenderedLinesDecodeBack := by
  intro cfg i hnd hwf hname
  obtain ⟨hdest, hsrc⟩ := wellFormed_iff.1 hwf
  have hreg : ∀ a ∈ i.operands, ∀ k, a = .reg k → tokenClass (cfg.regNames.getD k []) = .regName := by
    rintro a ha k rfl
    exact hname k ha
  have harity : (i.operands.map (renderOperand cfg)).length ∈ i.opcode.arities := by
    rw [List.length_map]
    exact i.operands_length_mem
  rw [decodeLine_of_operands (tokens_renderLine hreg hdest hsrc) (ofMnemonic?_upper_mnemonic _) harity,
    decodeOperands_renderOperand hreg hdest hsrc hnd, ok_bind]
  exact Instr.build_eq_ok.2 ⟨rfl, rfl⟩

end Sys2Proof
end

section
/-! SUPPORT. The step of a line on tokens (`40_execution.md` R111) and by way of a decoded instruction
(`30_encoding.md` R93): the checks of the tokens are the decoder's rejections, and the rule on checked tokens is the
meaning on the operands they decode to. -/

namespace Sys2Proof.Machine

/-! ## Checking tokens is decoding them -/

/-- What a decoder's answer is for the checks of R111: passed, or its rejection as the end of the step. -/
def checked {α : Type} : Except DecodeError α → Except Stop Unit
  | .ok _ => .ok ()
  | .error e => .error (DecodeError.toStop e)

theorem checked_bind_pure {α β γ : Type} (x : Except DecodeError α) (y : Except DecodeError β)
    (f : α → β → γ) :
    checked (x >>= fun a => y >>= fun b => pure (f a b)) = (checked x >>= fun _ => checked y) := by
  cases x <;> cases y <;> rfl

variable {s : State}

theorem checked_decodeLiteral (max v : Nat) :
    checked (decodeLiteral max v) = if v > max then .error (.raised .unknownOperand) else .ok () := by
  unfold decodeLiteral
  split_ifs with h1 h2
  · omega
  · rfl
  · rfl
  · omega

theorem checked_decodeRegName (t : Text) : checked (decodeRegName s.cfg t) =
    if t ∈ s.cfg.regNames then .ok () else .error (.raised .unknownRegister) := by
  unfold decodeRegName
  cases h : s.cfg.position? t with
  | none => rw [if_neg (position?_eq_none.1 h)]; rfl
  | some k => rw [if_pos (position?_isSome.1 (by simp [h]))]; rfl

theorem checked_floatLiteral (t : Text) :
    checked ((Binary64.literal s.cfg.floatMode (fltValue t)).map Operand.imm) =
      (floatSource s.cfg t).map (fun _ => ()) := by
  unfold floatSource
  cases h : Binary64.literal s.cfg.floatMode (fltValue t) with
  | ok v => rfl
  | error e => rw [literal_eq_error h]; rfl

theorem State.checkSourceToken_eq (t : Text) : s.checkSourceToken t = checked (decodeSource s.cfg t) := by
  unfold State.checkSourceToken decodeSource
  cases tokenClass t with
  | hex =>
    simp only [checked_decodeLiteral, gt_iff_lt, Nat.sub_lt_iff_lt_add (Nat.two_pow_pos 64), ge_iff_le]
    congr 1
    exact propext ⟨by omega, by omega⟩
  | dec => exact (checked_decodeLiteral _ _).symm
  | flt => exact (checked_floatLiteral t).symm
  | regName => exact (checked_decodeRegName t).symm
  | other => rfl

theorem State.checkSourceTokens_eq (ts : List Text) : s.checkSourceTokens ts = checked (decodeSources s.cfg ts) := by
  induction ts with
  | nil => rfl
  | cons t ts ih => rw [State.checkSourceTokens, decodeSources, checked_bind_pure, State.checkSourceToken_eq, ih]

theorem State.classifyDest_bind (t : Text) (x : Except Stop Unit) :
    (s.classifyDest t >>= fun _ => x) = (checked (decodeDest s.cfg t) >>= fun _ => x) := by
  unfold State.classifyDest decodeDest
  cases tokenClass t with
  | regName => 
    simp only [checked_decodeRegName]
    split <;> rfl
  | hex => rfl
  | dec => rfl
  | flt => rfl
  | other => rfl

/-- Stages 4 and 5 of R111 are the decoder of the operand tokens. -/
theorem State.checkTokens_eq (o : Opcode) (ops : List Text) :
    s.checkTokens o ops = checked (decodeOperands s.cfg o ops) := by
  unfold State.checkTokens decodeOperands
  split
  · cases ops with
    | nil => rfl
    | cons t ts =>
      simp only [checked_bind_pure, State.checkSourceTokens_eq]
      exact State.classifyDest_bind t _
  · exact State.checkSourceTokens_eq ops

/-! ## Tokens and the operands they decode to -/

theorem State.readNamed_eq {n : Text} {k : Nat} (h : s.cfg.position? n = some k) : s.readNamed n = s.readReg k := by
  simp [State.readNamed, State.position, h]

/-- Resolving a source token is checking and reading the operand it decodes to (R80, R93). -/
theorem State.resolve_of_decodeSource {t : Text} {a : Operand} (h : decodeSource s.cfg t = .ok a) :
    s.checkSource a = .ok () ∧ s.resolve t = s.readSource a := by
  unfold decodeSource at h
  unfold State.resolve
  cases hc : tokenClass t <;> simp only [hc] at h ⊢
  case hex =>
    obtain ⟨hle, rfl⟩ := decodeLiteral_eq_ok h
    exact ⟨rfl, if_neg (by omega)⟩
  case dec =>
    obtain ⟨hle, rfl⟩ := decodeLiteral_eq_ok h
    exact ⟨rfl, if_neg (Nat.not_lt.2 hle)⟩
  case flt =>
    unfold floatSource
    cases hv : Binary64.literal s.cfg.floatMode (fltValue t) <;> rw [hv] at h <;> cases h
    exact ⟨rfl, rfl⟩
  case regName =>
    obtain ⟨k, hk, rfl⟩ := decodeRegName_eq_ok.1 h
    obtain ⟨hlt, -⟩ := position?_eq_some hk
    rw [if_pos (position?_isSome.1 (by simp [hk])), State.readNamed_eq hk]
    exact ⟨if_pos hlt, rfl⟩
  case other => cases h

/-- A destination token names the register of the operand it decodes to (R86, R93). -/
theorem State.dest_of_decodeDest {t : Text} {d : Operand} (h : decodeDest s.cfg t = .ok d) :
    ∃ k, s.checkDest d = .ok k ∧ s.position t = .ok k := by
  obtain ⟨-, k, hk, rfl⟩ := decodeDest_eq_ok.1 h
  obtain ⟨hlt, -⟩ := position?_eq_some hk
  exact ⟨k, if_pos hlt, by simp [State.position, hk]⟩

/-! ## The rules on tokens are the meanings -/

section Frames

variable {td ta tb : Text} {d a b : Operand}

theorem finish_textMov (hd : decodeDest s.cfg td = .ok d) (ha : decodeSource s.cfg ta = .ok a) :
    s.finish (s.textMov td ta) = execMov d a s := by
  obtain ⟨k, hcheck, hk⟩ := State.dest_of_decodeDest hd
  obtain ⟨hsrc, hread⟩ := State.resolve_of_decodeSource ha
  simp only [State.textMov, State.writeNamed, execMov, hcheck, hk, hsrc, hread, ok_bind]

theorem finish_textAlu2 {op : AluOp} (hd : decodeDest s.cfg td = .ok d) (ha : decodeSource s.cfg ta = .ok a) :
    s.finish (s.textAlu2 op td ta) = aluFrame2 op d a s := by
  obtain ⟨k, hcheck, hk⟩ := State.dest_of_decodeDest hd
  obtain ⟨hsrc, hread⟩ := State.resolve_of_decodeSource ha
  simp only [State.textAlu2, State.readNamed, State.writeNamed, aluFrame2, hcheck, hk, hsrc, hread, ok_bind]

theorem finish_textAlu3 {op : AluOp} (hd : decodeDest s.cfg td = .ok d) (ha : decodeSource s.cfg ta = .ok a)
    (hb : decodeSource s.cfg tb = .ok b) : s.finish (s.textAlu3 op td ta tb) = aluFrame3 op d a b s := by
  obtain ⟨k, hcheck, hk⟩ := State.dest_of_decodeDest hd
  obtain ⟨hsrc, hread⟩ := State.resolve_of_decodeSource ha
  obtain ⟨hsrc', hread'⟩ := State.resolve_of_decodeSource hb
  simp only [State.textAlu3, State.writeNamed, aluFrame3, hcheck, hk, hsrc, hread, hsrc', hread', ok_bind]

theorem finish_textAlu1 {op : AluOp} (hd : decodeDest s.cfg td = .ok d) :
    s.finish (s.textAlu1 op td) = aluFrame1 op d s := by
  obtain ⟨k, hcheck, hk⟩ := State.dest_of_decodeDest hd
  simp only [State.textAlu1, State.readNamed, State.writeNamed, aluFrame1, hcheck, hk, ok_bind]

theorem finish_textCmp (ha : decodeSource s.cfg ta = .ok a) (hb : decodeSource s.cfg tb = .ok b) :
    s.finish (s.textCmp ta tb) = execCmp a b s := by
  obtain ⟨hsrc, hread⟩ := State.resolve_of_decodeSource ha
  obtain ⟨hsrc', hread'⟩ := State.resolve_of_decodeSource hb
  simp only [State.textCmp, execCmp, hsrc, hread, hsrc', hread', ok_bind]

theorem finish_textPush (ha : decodeSource s.cfg ta = .ok a) : s.finish (s.textPush ta) = execPush a s := by
  obtain ⟨hsrc, hread⟩ := State.resolve_of_decodeSource ha
  simp only [State.textPush, execPush, hsrc, hread, ok_bind]

theorem finish_textPop (hd : decodeDest s.cfg td = .ok d) : s.finish (s.textPop td) = execPop d s := by
  obtain ⟨k, hcheck, hk⟩ := State.dest_of_decodeDest hd
  simp only [State.textPop, execPop, hcheck, hk, ok_bind]

end Frames

/-- Stage 6 of R111 on operand tokens is the meaning on the operands they decode to. -/
theorem finish_operate : ∀ {i : Instr} {dest rest : List Text}
    (_ : List.Forall₂ (fun t a => decodeDest s.cfg t = .ok a) dest i.dest?.toList)
    (_ : List.Forall₂ (fun t a => decodeSource s.cfg t = .ok a) rest i.sources),
    s.finish (s.operate i.opcode (dest ++ rest)) = exec i s
  | .mov _ _, _, _, .cons hd .nil, .cons ha .nil => finish_textMov hd ha
  | .add2 _ _, _, _, .cons hd .nil, .cons ha .nil => finish_textAlu2 hd ha
  | .add3 _ _ _, _, _, .cons hd .nil, .cons ha (.cons hb .nil) => finish_textAlu3 hd ha hb
  | .sub2 _ _, _, _, .cons hd .nil, .cons ha .nil => finish_textAlu2 hd ha
  | .sub3 _ _ _, _, _, .cons hd .nil, .cons ha (.cons hb .nil) => finish_textAlu3 hd ha hb
  | .and2 _ _, _, _, .cons hd .nil, .cons ha .nil => finish_textAlu2 hd ha
  | .and3 _ _ _, _, _, .cons hd .nil, .cons ha (.cons hb .nil) => finish_textAlu3 hd ha hb
  | .or2 _ _, _, _, .cons hd .nil, .cons ha .nil => finish_textAlu2 hd ha
  | .or3 _ _ _, _, _, .cons hd .nil, .cons ha (.cons hb .nil) => finish_textAlu3 hd ha hb
  | .xor2 _ _, _, _, .cons hd .nil, .cons ha .nil => finish_textAlu2 hd ha
  | .xor3 _ _ _, _, _, .cons hd .nil, .cons ha (.cons hb .nil) => finish_textAlu3 hd ha hb
  | .mul2 _ _, _, _, .cons hd .nil, .cons ha .nil => finish_textAlu2 hd ha
  | .mul3 _ _ _, _, _, .cons hd .nil, .cons ha (.cons hb .nil) => finish_textAlu3 hd ha hb
  | .div2 _ _, _, _, .cons hd .nil, .cons ha .nil => finish_textAlu2 hd ha
  | .div3 _ _ _, _, _, .cons hd .nil, .cons ha (.cons hb .nil) => finish_textAlu3 hd ha hb
  | .neg _, _, _, .cons hd .nil, .nil => finish_textAlu1 hd
  | .bitNot _, _, _, .cons hd .nil, .nil => finish_textAlu1 hd
  | .lsl _ _, _, _, .cons hd .nil, .cons ha .nil => finish_textAlu2 hd ha
  | .lsr _ _, _, _, .cons hd .nil, .cons ha .nil => finish_textAlu2 hd ha
  | .cmp _ _, _, _, .nil, .cons ha (.cons hb .nil) => finish_textCmp ha hb
  | .push _, _, _, .nil, .cons ha .nil => finish_textPush ha
  | .pop _, _, _, .cons hd .nil, .nil => finish_textPop hd
  | .rdump, _, _, .nil, .nil => rfl

/-! ## The step of a line -/

/-- Settles O9: stage by stage, the same rejections, and the same rule on operands that decode. -/
theorem lineStepIsDecodeThenExec : Obligations.LineStepIsDecodeThenExec := by
  intro line s
  unfold textStep stepLine
  cases h : tokens line with
  | nil => rw [decodeLine_of_noToken h]; rfl
  | cons op ops =>
    simp only [State.runTokens]
    cases ho : Opcode.ofMnemonic? (upper op) with
    | none => rw [decodeLine_of_noMnemonic h ho]; rfl
    | some o =>
      by_cases hn : ops.length ∈ o.arities
      case neg => simp only [if_neg hn, decodeLine_of_arity h ho hn]; rfl
      simp only [if_pos hn, decodeLine_of_operands h ho hn, State.checkTokens_eq]
      cases hops : decodeOperands s.cfg o ops with
      | error e => rfl
      | ok args =>
        have hlen := decodeOperands_length hops
        obtain ⟨i, hi⟩ := Instr.exists_build (hlen ▸ hn)
        obtain ⟨rfl, rfl⟩ := Instr.build_eq_ok.1 hi
        obtain ⟨dest, rest, rfl, hdest, hrest⟩ := decodeOperands_operands.1 hops
        rw [ok_bind, hi]
        exact finish_operate hdest hrest

end Sys2Proof.Machine
end

section
/-! SUPPORT. Float literals (`30_encoding.md` R83, `93_implementation_defined.md` G3): the rounding of a fraction to
the nearest binary64 value, ties to even, and the word a literal becomes. A fraction is `a / b` in units of the least
positive value, `2 ^ -1074`. -/

namespace Sys2Proof

/-! ## Rounding to a multiple -/

section Rounding

variable {a b k : Nat}

/-- What rounding does: down, up, or on a tie to the even neighbour. -/
theorem roundHalfEven_cases (a b : Nat) :
    (roundHalfEven a b = a / b ∧ 2 * (a % b) < b) ∨ (roundHalfEven a b = a / b + 1 ∧ b < 2 * (a % b)) ∨
      (2 * (a % b) = b ∧ roundHalfEven a b % 2 = 0 ∧
        (roundHalfEven a b = a / b ∨ roundHalfEven a b = a / b + 1)) := by
  unfold roundHalfEven
  split_ifs <;> omega

/-- A multiple of `b` is one of the two neighbours of `a`, or lies at least `b` beyond them. -/
theorem mul_cases (q b k : Nat) : (k = q ∧ k * b = q * b) ∨ (k = q + 1 ∧ k * b = q * b + b) ∨
    (k < q ∧ k * b + b ≤ q * b) ∨ (q + 1 < k ∧ q * b + 2 * b ≤ k * b) := by
  rcases Nat.lt_trichotomy k q with h | rfl | h
  · exact .inr (.inr (.inl ⟨h, Nat.succ_mul k b ▸ Nat.mul_le_mul_right b h⟩))
  · exact .inl ⟨rfl, rfl⟩
  · rcases Nat.eq_or_lt_of_le h with rfl | h
    · exact .inr (.inl ⟨rfl, Nat.succ_mul q b⟩)
    · exact .inr (.inr (.inr ⟨h, Nat.add_mul q 2 b ▸ Nat.mul_le_mul_right b h⟩))

/-- The rounded multiple of `b` is as near to `a` as every other, and has an even factor where another is as near. -/
theorem roundHalfEven_nearest (hb : 0 < b) (k : Nat) :
    |((roundHalfEven a b * b : Nat) : Int) - a| ≤ |((k * b : Nat) : Int) - a| ∧
      (|((roundHalfEven a b * b : Nat) : Int) - a| = |((k * b : Nat) : Int) - a| → roundHalfEven a b ≠ k →
        roundHalfEven a b % 2 = 0) := by
  have hdiv : a / b * b + a % b = a := Nat.div_add_mod' a b
  have hlt : a % b < b := Nat.mod_lt a hb
  have hr := roundHalfEven_cases a b
  have hrb := mul_cases (a / b) b (roundHalfEven a b)
  have hkb := mul_cases (a / b) b k
  simp only [Int.abs_eq_natAbs]
  generalize k * b = K at *
  generalize roundHalfEven a b * b = R at *
  generalize a / b * b = A at *
  omega

theorem le_roundHalfEven (h : k * b ≤ a) (hb : 0 < b) : k ≤ roundHalfEven a b := by
  have hk : k ≤ a / b := (Nat.le_div_iff_mul_le hb).2 h
  have := roundHalfEven_cases a b
  omega

theorem roundHalfEven_le (h : a < k * b) : roundHalfEven a b ≤ k := by
  have hk : a / b < k := Nat.div_lt_of_lt_mul (by rwa [Nat.mul_comm])
  have := roundHalfEven_cases a b
  omega

/-- The boundary of rounding up to `n + 1` for an even number `n + 1`: half a unit below it, the tie included. -/
theorem roundHalfEven_eq_iff {u n : Nat} (hu : 0 < u) (hn : n % 2 = 1) (h : a < (n + 1) * (2 * u)) :
    roundHalfEven a (2 * u) = n + 1 ↔ (2 * n + 1) * u ≤ a := by
  have hdiv : 2 * (a / (2 * u) * u) + a % (2 * u) = a := by
    rw [← Nat.mul_left_comm]
    exact Nat.div_add_mod' a (2 * u)
  have hlt : a % (2 * u) < 2 * u := Nat.mod_lt a (by omega)
  have hle : a / (2 * u) ≤ n := Nat.le_of_lt_succ (Nat.div_lt_of_lt_mul (by rwa [Nat.mul_comm]))
  have hbound : (2 * n + 1) * u = 2 * (n * u) + u := by ring
  have hr := roundHalfEven_cases a (2 * u)
  have hq := mul_cases n u (a / (2 * u))
  rw [hbound]
  generalize a / (2 * u) * u = Q at *
  generalize n * u = N at *
  omega

end Rounding

/-! ## The significand and the exponent -/

/-- The significand of `a / b` at its exponent, before `Binary64.normal`. -/
def binary64Significand (a b : Nat) : Nat := roundHalfEven a (b * 2 ^ binary64Exponent a b)

theorem roundBinary64_eq (num den : Nat) : roundBinary64 num den =
    Binary64.normal (binary64Significand (num * 2 ^ 1074) den) (binary64Exponent (num * 2 ^ 1074) den) := rfl

section Significand

variable {a b : Nat} (hb : 0 < b)
include hb

/-- A fraction is below `2 ^ 53` units of its exponent. -/
theorem lt_of_binary64Exponent : a < 2 ^ 53 * (b * 2 ^ binary64Exponent a b) := by
  have hlog : a / b < 2 ^ (53 + binary64Exponent a b) :=
    Nat.lt_log2_self.trans_le (Nat.pow_le_pow_right (by decide) (by unfold binary64Exponent; omega))
  calc a < 2 ^ (53 + binary64Exponent a b) * b := (Nat.div_lt_iff_lt_mul hb).1 hlog
    _ = 2 ^ 53 * (b * 2 ^ binary64Exponent a b) := by rw [Nat.pow_add]; ac_rfl

/-- Unless the exponent is the least, a fraction has `2 ^ 52` units of its exponent. -/
theorem le_of_binary64Exponent (he : binary64Exponent a b ≠ 0) : 2 ^ 52 * (b * 2 ^ binary64Exponent a b) ≤ a := by
  have hexp : 52 + binary64Exponent a b = (a / b).log2 := by unfold binary64Exponent at *; omega
  have hne : a / b ≠ 0 := by
    intro h
    rw [h, Nat.log2_zero] at hexp
    omega
  have hlog : 2 ^ (52 + binary64Exponent a b) ≤ a / b := hexp ▸ Nat.log2_self_le hne
  calc 2 ^ 52 * (b * 2 ^ binary64Exponent a b) = 2 ^ (52 + binary64Exponent a b) * b := by rw [Nat.pow_add]; ac_rfl
    _ ≤ a := (Nat.le_div_iff_mul_le hb).1 hlog

theorem unit_pos : 0 < b * 2 ^ binary64Exponent a b := Nat.mul_pos hb (Nat.two_pow_pos _)

theorem binary64Significand_le : binary64Significand a b ≤ 2 ^ 53 := roundHalfEven_le (lt_of_binary64Exponent hb)

theorem le_binary64Significand (he : binary64Exponent a b ≠ 0) : 2 ^ 52 ≤ binary64Significand a b :=
  le_roundHalfEven (le_of_binary64Exponent hb he) (unit_pos hb)

/-- The rounded value is as near to `a / b` as every other binary64 value, and where another is as near, the
significand is even. -/
theorem binary64Significand_nearest {m e : Nat} (hm : m < 2 ^ 53) :
    |((binary64Significand a b * 2 ^ binary64Exponent a b * b : Nat) : Int) - a| ≤
        |((m * 2 ^ e * b : Nat) : Int) - a| ∧
      (|((binary64Significand a b * 2 ^ binary64Exponent a b * b : Nat) : Int) - a| =
          |((m * 2 ^ e * b : Nat) : Int) - a| →
        binary64Significand a b * 2 ^ binary64Exponent a b ≠ m * 2 ^ e → binary64Significand a b % 2 = 0) := by
  have hunit := unit_pos (a := a) hb
  have hle := le_of_binary64Exponent (a := a) hb
  unfold binary64Significand
  generalize binary64Exponent a b = x at *
  have hvalue (k : Nat) : k * 2 ^ x * b = k * (b * 2 ^ x) := by ac_rfl
  rw [hvalue]
  rcases Nat.lt_or_ge e x with he | he
  · -- Below the exponent every value lies under `2 ^ 52` units, which the fraction has.
    obtain ⟨hnear, -⟩ := roundHalfEven_nearest (a := a) hunit (2 ^ 52)
    have hlt : m * 2 ^ e * b < 2 ^ 52 * (b * 2 ^ x) :=
      calc m * 2 ^ e * b < 2 ^ 53 * 2 ^ e * b := by gcongr
        _ = 2 ^ 52 * 2 ^ (e + 1) * b := by ring
        _ ≤ 2 ^ 52 * 2 ^ x * b := by gcongr <;> omega
        _ = 2 ^ 52 * (b * 2 ^ x) := hvalue _
    specialize hle (by omega)
    simp only [Int.abs_eq_natAbs] at *
    generalize m * 2 ^ e * b = M at *
    generalize 2 ^ 52 * (b * 2 ^ x) = L at *
    omega
  · -- From the exponent on every value is a multiple of its unit.
    obtain ⟨j, rfl⟩ := Nat.exists_eq_add_of_le he
    have hmul : m * 2 ^ (x + j) = m * 2 ^ j * 2 ^ x := by ring
    obtain ⟨hnear, htie⟩ := roundHalfEven_nearest (a := a) hunit (m * 2 ^ j)
    rw [hmul, hvalue]
    exact ⟨hnear, fun heq hne => htie heq fun h => hne (by rw [h])⟩

/-- A fraction is rounded to `2 ^ 53` units of `2 ^ (x + 1)` or beyond from half a unit below that value on. -/
theorem binary64_overflow (x : Nat) :
    x + 1 < binary64Exponent a b ∨ binary64Exponent a b = x + 1 ∧ binary64Significand a b = 2 ^ 53 ↔
      (2 ^ 54 - 1) * (b * 2 ^ x) ≤ a := by
  have hlt := lt_of_binary64Exponent (a := a) hb
  have hle := le_of_binary64Exponent (a := a) hb
  have hpos : 0 < b * 2 ^ x := Nat.mul_pos hb (Nat.two_pow_pos x)
  have hmono {y z : Nat} (h : y ≤ z) : b * 2 ^ y ≤ b * 2 ^ z :=
    Nat.mul_le_mul_left b (Nat.pow_le_pow_right two_pos h)
  have hdouble (y : Nat) : b * 2 ^ (y + 1) = 2 * (b * 2 ^ y) := by ring
  rcases Nat.lt_trichotomy (binary64Exponent a b) (x + 1) with h | h | h
  · have hunit := hmono (Nat.le_of_lt_succ h)
    omega
  · rw [h, hdouble] at hlt
    have hround := roundHalfEven_eq_iff (n := 2 ^ 53 - 1) hpos (by norm_num) hlt
    rw [binary64Significand, h, hdouble]
    omega
  · have hunit := hmono (Nat.succ_le_of_lt h)
    rw [hdouble, hdouble] at hunit
    specialize hle (by omega)
    omega

end Significand

/-! ## The rounded value -/

theorem normal_eq_inf {m e : Nat} : Binary64.normal m e = .inf ↔ 2045 < e ∨ e = 2045 ∧ m = 2 ^ 53 := by
  unfold Binary64.normal
  split_ifs <;> simp <;> omega

/-- `Binary64.normal` keeps a value in range, moving the significand `2 ^ 53` up an exponent. -/
theorem normal_eq_finite {m₀ e₀ m e : Nat} (h : Binary64.normal m₀ e₀ = .finite m e) :
    e ≤ 2045 ∧ ((m₀ = 2 ^ 53 ∧ m = 2 ^ 52 ∧ e = e₀ + 1) ∨ (m₀ ≠ 2 ^ 53 ∧ m = m₀ ∧ e = e₀)) := by
  unfold Binary64.normal at h
  split_ifs at h <;> cases h
  · exact ⟨by omega, .inl ⟨‹_›, rfl, rfl⟩⟩
  · exact ⟨by omega, .inr ⟨‹_›, rfl, rfl⟩⟩

/-- A finite result has the value of the rounded significand, and is even where that is. -/
theorem roundBinary64_value {num den m e : Nat} (h : roundBinary64 num den = .finite m e) :
    m * 2 ^ e = binary64Significand (num * 2 ^ 1074) den * 2 ^ binary64Exponent (num * 2 ^ 1074) den ∧
      (binary64Significand (num * 2 ^ 1074) den % 2 = 0 → m % 2 = 0) := by
  rw [roundBinary64_eq] at h
  obtain ⟨-, ⟨hm, rfl, rfl⟩ | ⟨-, rfl, rfl⟩⟩ := normal_eq_finite h
  · refine ⟨?_, fun _ => rfl⟩
    rw [hm]
    ring
  · exact ⟨rfl, id⟩

section Rounded

variable {num den m e : Nat} (hden : 0 < den)
include hden

theorem roundBinary64_eq_inf : roundBinary64 num den = .inf ↔ (2 ^ 54 - 1) * 2 ^ 970 * den ≤ num := by
  have hscale (c x y : Nat) : c * (den * 2 ^ (x + y)) = c * 2 ^ x * den * 2 ^ y := by ring
  have hpos (y : Nat) : 0 < 2 ^ y := Nat.two_pow_pos y
  rw [roundBinary64_eq, normal_eq_inf]
  refine (binary64_overflow hden 2044).trans ?_
  rw [hscale _ 970 1074]
  exact Nat.mul_le_mul_right_iff (hpos 1074)

variable (h : roundBinary64 num den = .finite m e)
include h

/-- A finite result is a binary64 value: its significand and exponent are in range. -/
theorem roundBinary64_range : m < 2 ^ 53 ∧ e ≤ 2045 ∧ (e ≠ 0 → 2 ^ 52 ≤ m) := by
  rw [roundBinary64_eq] at h
  obtain ⟨he, ⟨-, rfl, rfl⟩ | ⟨hm, rfl, rfl⟩⟩ := normal_eq_finite h
  · exact ⟨by decide, he, fun _ => le_rfl⟩
  · exact ⟨Nat.lt_of_le_of_ne (binary64Significand_le hden) hm, he, le_binary64Significand hden⟩

end Rounded

/-- Settles O25: the significand at its exponent is nearest, with ties to even, and `Binary64.normal` keeps its
value. -/
theorem floatRoundingIsNearestEven : Obligations.FloatRoundingIsNearestEven := by
  refine fun num den hden => ⟨roundBinary64_eq_inf hden, fun m e h => ?_⟩
  obtain ⟨hm, he, hnormal⟩ := roundBinary64_range hden h
  obtain ⟨hvalue, heven⟩ := roundBinary64_value h
  refine ⟨hm, he, hnormal, fun m' e' hm' _ => ?_⟩
  obtain ⟨hnear, htie⟩ := binary64Significand_nearest (a := num * 2 ^ 1074) hden (e := e') hm'
  rw [hvalue]
  exact ⟨hnear, fun heq hne => heven (htie heq hne)⟩

/-! ## The word of a float literal -/

/-- The value of the token `a.b` is the fraction its digits write, rounded (R83). -/
theorem fltValue_eq {a b : Text} (ha : ∀ c ∈ a, isDigit c = true) : fltValue (a ++ '.' :: b) =
    roundBinary64 (Nat.ofDigits 10 ((a ++ b).reverse.map digitValue)) (10 ^ b.length) := by
  obtain ⟨htake, hdrop⟩ := takeWhile_run a b '.' ha rfl
  have hparts : fltParts (a ++ '.' :: b) = (a, b) := by rw [fltParts, htake, hdrop, List.drop_one, List.tail_cons]
  have hdigits : digitsValue 10 a * 10 ^ b.length + digitsValue 10 b =
      Nat.ofDigits 10 ((a ++ b).reverse.map digitValue) := by
    rw [digitsValue_eq, digitsValue_eq, List.reverse_append, List.map_append, Nat.ofDigits_append, List.length_map,
      List.length_reverse, Nat.mul_comm, Nat.add_comm]
  rw [fltValue, hparts]
  exact congrArg (roundBinary64 · _) hdigits

theorem decodeSource_flt (cfg : Config) {a b : Text} (ha : a ≠ []) (hb : b ≠ [])
    (h : ∀ c ∈ a ++ b, isDigit c = true) : decodeSource cfg (a ++ '.' :: b) =
      (Binary64.literal cfg.floatMode
        (roundBinary64 (Nat.ofDigits 10 ((a ++ b).reverse.map digitValue)) (10 ^ b.length))).map Operand.imm := by
  obtain ⟨hda, hdb⟩ := List.forall_mem_append.1 h
  have hclass : tokenClass (a ++ '.' :: b) = .flt := tokenClass_flt.2
    ((isFltToken_iff _).2 ⟨a, b, (isDecToken_iff a).2 ⟨ha, hda⟩, (isDecToken_iff b).2 ⟨hb, hdb⟩, rfl⟩)
  simp only [decodeSource, hclass, fltValue_eq hda]

theorem bits_of_subnormal {m : Nat} (e : Nat) (h : m < 2 ^ 52) : (Binary64.finite m e).bits.toNat = m := by
  rw [Binary64.bits, if_pos h, BitVec.toNat_ofNat]
  omega

/-- The fields of a normal value: sign 0, the exponent raised by one, the significand without its leading bit. -/
theorem bits_of_normal {m e : Nat} (hm : 2 ^ 52 ≤ m) (hm' : m < 2 ^ 53) (he : e ≤ 2045) :
    (Binary64.finite m e).bits.toNat < 2 ^ 63 ∧ (Binary64.finite m e).bits.toNat / 2 ^ 52 = e + 1 ∧
      (Binary64.finite m e).bits.toNat % 2 ^ 52 = m - 2 ^ 52 := by
  rw [Binary64.bits, if_neg (by omega), BitVec.toNat_ofNat]
  omega

theorem literal_truncate_of_le {m e : Nat} (h : 2 ^ 63 ≤ m * 2 ^ e / 2 ^ 1074) :
    Binary64.literal .truncate (.finite m e) = .error .floatOutOfRange := if_pos h

theorem literal_truncate_of_lt {m e : Nat} (h : m * 2 ^ e / 2 ^ 1074 < 2 ^ 63) :
    Binary64.literal .truncate (.finite m e) = .ok (BitVec.ofNat 64 (m * 2 ^ e / 2 ^ 1074)) :=
  (if_neg (Nat.not_le.2 h)).trans (congrArg Except.ok (wrap64_natCast _))

/-- Settles O26: the token's value is the rounded fraction, and each mode has its word. -/
theorem floatLiteralsInBothModes : Obligations.FloatLiteralsInBothModes := by
  intro cfg a b ha hb h d
  have hden : 0 < 10 ^ b.length := Nat.pow_pos (by decide)
  have hsource : decodeSource cfg (a ++ '.' :: b) = (Binary64.literal cfg.floatMode d).map Operand.imm :=
    decodeSource_flt cfg ha hb fun c hc => (isDigit_iff c).2 (h c hc)
  rw [hsource]
  refine ⟨fun hmode => ⟨d.bits, by rw [hmode]; rfl, fun hd => by rw [hd]; rfl, fun m e hd hm => ?_,
    fun m e hd hm => ?_⟩, fun hmode => ⟨fun hd => by rw [hmode, hd]; rfl, fun m e hd hle => ?_, fun m e hd hlt => ?_⟩⟩
  · rw [hd, bits_of_subnormal e hm]
  · obtain ⟨hm', he, -⟩ := roundBinary64_range hden hd
    rw [hd]
    exact bits_of_normal hm hm' he
  · rw [hmode, hd, literal_truncate_of_le hle]
    rfl
  · rw [hmode, hd, literal_truncate_of_lt hlt]
    rfl

end Sys2Proof
end

section
/-! SUPPORT. What an instruction leaves as it was (`40_execution.md` R112, R113, `60_exceptions.md` R224): everything
where it raises, and all but its destination and the stack pointer where it completes. -/

namespace Sys2Proof.Machine

/-! ## Errors -/

/-- An outcome whose last reply is an error is the state before with that reply alone: completing replies `OK`. -/
theorem Completes.eq_of_error {i : Instr} {s t : State} {o : Result} {e : ErrorKind} (h : Completes i s o)
    (ht : o = .next t) (he : t.replies.getLast? = some (.status (.error e))) : t = s.reply (.status (.error e)) := by
  obtain ⟨u, -, rfl⟩ | ⟨e', rfl⟩ := h t ht
  · simp at he
  · obtain rfl : e' = e := by simpa using he
    rfl

/-- A decoder's answer that ends in an error leaves the state before with that reply alone. -/
theorem runDecoded_eq_of_error {d : Except DecodeError Instr} {s t : State} {e : ErrorKind}
    (h : runDecoded d s = .next t) (he : t.replies.getLast? = some (.status (.error e))) :
    t = s.reply (.status (.error e)) := by
  cases d with
  | ok i => exact (exec_completes i s).eq_of_error h he
  | error _ =>
    obtain ⟨e', -, rfl⟩ := State.stop_eq_next h
    obtain rfl : e' = e := by simpa using he
    rfl

/-- Settles O13: an instruction, a line and a command are each a decoder's answer that is run. -/
theorem errorsLeaveNoTrace : Obligations.ErrorsLeaveNoTrace := by
  rintro s t o e (⟨i, rfl⟩ | ⟨line, rfl⟩ | ⟨bytes, rfl⟩) h he
  · exact runDecoded_eq_of_error (d := .ok i) h he
  · exact runDecoded_eq_of_error (d := decodeLine s.cfg line) h he
  · exact runDecoded_eq_of_error (d := decodeCommand bytes) h he

/-! ## Frames -/

/-- An effect writes no register but the destination's and, of `PUSH` and `POP`, the stack pointer. -/
theorem Effect.reg?_eq {i : Instr} {s u : State} {k : Nat} (h : Effect i s u)
    (hdest : ∀ d, i.dest? = some d → s.dest? d ≠ some k)
    (hrsp : ((∃ a, i = .push a) ∨ (∃ d, i = .pop d)) → s.cfg.position? rspName ≠ some k) :
    u.reg? k = s.reg? k := by
  cases h with
  | wrote d v hd =>
    obtain ⟨o, ho, hod⟩ := Option.bind_eq_some_iff.1 hd
    have hk : k ≠ d := by
      rintro rfl
      exact hdest o ho hod
    exact State.reg?_writeReg_other s v hk
  | compared => exact State.compare_reg? ..
  | pushed o v p base j hi _ _ hj =>
    have hk : k ≠ j := by
      rintro rfl
      exact hrsp (.inl ⟨o, hi⟩) hj
    exact State.reg?_writeReg_other _ _ hk
  | popped o p j d hi hd _ hj =>
    have hkd : k ≠ d := by
      rintro rfl
      exact hdest o (hi ▸ rfl) hd
    have hkj : k ≠ j := by
      rintro rfl
      exact hrsp (.inr ⟨o, hi⟩) hj
    rw [State.reg?_writeReg_other _ _ hkd, State.reg?_writeReg_other _ _ hkj]
  | dumped => exact State.emit_reg? ..

/-- No effect of an instruction touches the pending requests. -/
theorem Effect.inputs_eq {i : Instr} {s u : State} (h : Effect i s u) : u.inputs = s.inputs := by
  cases h with
  | wrote => exact State.writeReg_inputs ..
  | compared => exact State.compare_inputs ..
  | pushed => simp
  | popped => simp
  | dumped => exact State.emit_inputs ..

/-- No effect but a dump's emits anything. -/
theorem Effect.out_eq {i : Instr} {s u : State} (h : Effect i s u) (hi : i ≠ .rdump) : u.out = s.out := by
  cases h with
  | wrote => exact State.writeReg_out ..
  | compared => exact State.compare_out ..
  | pushed => simp
  | popped => simp
  | dumped _ hdump => exact absurd hdump hi

/-- Settles O14: the effect of the instruction has this frame, and an error raised leaves no trace. -/
theorem instructionsWriteOnlyTheirOwnState : Obligations.InstructionsWriteOnlyTheirOwnState := by
  intro i s t h
  obtain ⟨u, hu, rfl⟩ | ⟨e, rfl⟩ := exec_completes i s t h
  · exact ⟨fun k hdest hrsp => hu.reg?_eq hdest hrsp, hu.cfg_eq, hu.inputs_eq, hu.out_eq⟩
  · exact ⟨fun _ _ _ => rfl, rfl, rfl, fun _ => rfl⟩

end Sys2Proof.Machine
end

section
/-! SUPPORT. How an instruction can stop (`40_execution.md` R115): in a state that meets the invariant every name it
needs has a position, every position it reads lies in the register file, and what is left are the block's own errors
and reads of registers that hold no value (`10_state.md` R27). -/

namespace Sys2Proof.Machine

/-! ## Computations that are never refused -/

/-- The computation from `s` has a value, raises one of the block's errors, or reads a register that holds no value. -/
inductive StopsOnUnwritten (s : State) {α : Type} : Except Stop α → Prop where
  | ok (a : α) : StopsOnUnwritten s (.ok a)
  | raised (e : ErrorKind) : StopsOnUnwritten s (.error (.raised e))
  | unwritten (h : none ∈ s.regs) : StopsOnUnwritten s (.error (.faulted .readUnwritten))

namespace StopsOnUnwritten

/-- What follows a computation may rely on its value. -/
theorem bind {s : State} {α β : Type} {x : Except Stop α} {f : α → Except Stop β} (hx : StopsOnUnwritten s x)
    (hf : ∀ a, x = .ok a → StopsOnUnwritten s (f a)) : StopsOnUnwritten s (x >>= f) := by
  cases hx with
  | ok a => exact hf a rfl
  | raised e => exact .raised e
  | unwritten h => exact .unwritten h

theorem readReg {s : State} {k : Nat} (hk : k < s.regs.length) : StopsOnUnwritten s (s.readReg k) := by
  cases hv : s.reg? k with
  | some v => exact State.readReg_eq_ok.2 hv ▸ .ok v
  | none =>
    have hempty : s.regs[k] = none := by simpa [State.reg?, hk] using hv
    exact State.readReg_none hv ▸ .unwritten (List.mem_of_getElem hempty)

theorem checkDest (s : State) (d : Operand) : StopsOnUnwritten s (s.checkDest d) := by
  cases h : destError s.cfg d with
  | some e => exact State.checkDest_of_error h ▸ .raised e
  | none =>
    obtain ⟨k, -, hk, -⟩ := State.checkDest_of_noError h
    exact hk ▸ .ok k

theorem checkSource (s : State) (a : Operand) : StopsOnUnwritten s (s.checkSource a) := by
  cases h : sourceError s.cfg a with
  | some e => exact State.checkSource_of_error h ▸ .raised e
  | none => exact State.checkSource_of_noError h ▸ .ok ()

theorem aluResult (s : State) (op : AluOp) (a b : Word) : StopsOnUnwritten s (aluResult op a b) := by
  cases h : alu op a b with
  | some r => exact aluResult_ok h ▸ .ok r
  | none => exact aluResult_divisionByZero h ▸ .raised _

/-- A name's position does not depend on registers or memory, so the write may be to another state. -/
theorem writeNamed {s u : State} {n : Text} (v : Word) (hu : u.cfg = s.cfg) (hn : n ∈ s.cfg.regNames) :
    StopsOnUnwritten s (u.writeNamed n v) := by
  rw [← hu] at hn
  obtain ⟨k, hk⟩ := Option.isSome_iff_exists.1 (position?_isSome.2 hn)
  exact State.writeNamed_eq_ok.2 ⟨k, hk, rfl⟩ ▸ .ok _

section Invariant

variable {s : State} (hs : s.Inv)
include hs

/-- A destination that passed its check is read inside the register file. -/
theorem readDest {d : Operand} {k : Nat} (h : s.checkDest d = .ok k) : StopsOnUnwritten s (s.readReg k) :=
  readReg (hs.dest_lt (State.checkDest_eq_ok.1 h))

/-- A register source that passed its check is read inside the register file. -/
theorem readSource {a : Operand} {x : Unit} (h : s.checkSource a = .ok x) : StopsOnUnwritten s (s.readSource a) := by
  cases a with
  | imm v => exact .ok v
  | bad kind v => exact .raised _
  | reg k =>
    have ⟨_, hlen, _⟩ := hs
    refine readReg ?_
    by_contra hk
    simp [State.checkSource, ← hlen, hk] at h

theorem readNamed {n : Text} (hn : n ∈ s.cfg.regNames) : StopsOnUnwritten s (s.readNamed n) := by
  obtain ⟨k, hk⟩ := Option.isSome_iff_exists.1 (position?_isSome.2 hn)
  exact State.readNamed_eq hk ▸ readReg (hs.position?_lt hk)

theorem push (v : Word) : StopsOnUnwritten s (s.push v) := by
  have ⟨⟨_, hrsp, hss, _⟩, _⟩ := hs
  refine (readNamed hs hrsp).bind fun p _ => (readNamed hs hss).bind fun base _ => ?_
  split
  · exact .raised _
  · split
    · exact .raised _
    · exact writeNamed _ (s.withMem_cfg _) hrsp

theorem pop (d : Nat) : StopsOnUnwritten s (s.pop d) := by
  have ⟨⟨_, hrsp, _⟩, _⟩ := hs
  refine (readNamed hs hrsp).bind fun p _ => ?_
  split
  · exact .raised _
  · exact (writeNamed _ rfl hrsp).bind fun _ _ => .ok _

theorem dumpLinesOf {ns : List Text} (hn : ∀ n ∈ ns, n ∈ s.cfg.regNames) : StopsOnUnwritten s (s.dumpLinesOf ns) := by
  induction ns with
  | nil => exact .ok _
  | cons n ns ih =>
    obtain ⟨hn, hns⟩ := List.forall_mem_cons.1 hn
    exact (readNamed hs hn).bind fun _ _ => (ih hns).bind fun _ _ => .ok _

theorem dumped : StopsOnUnwritten s s.dumped := by
  have ⟨⟨_, _, _, _, _, _, _, hperm⟩, _⟩ := hs
  exact (dumpLinesOf hs fun _ hn => hperm.mem_iff.1 hn).bind fun _ _ => .ok _

end Invariant

end StopsOnUnwritten

/-! ## Instructions -/

/-- The outcome is a next state, or a read of a register in a state where one holds no value. -/
def AnswersOrUnwritten (s : State) (o : Result) : Prop :=
  (∃ t, o = .next t) ∨ o = .fault .readUnwritten ∧ none ∈ s.regs

theorem StopsOnUnwritten.finish {s : State} {r : Except Stop State} (h : StopsOnUnwritten s r) :
    AnswersOrUnwritten s (s.finish r) := by
  cases h with
  | ok t => exact .inl ⟨_, rfl⟩
  | raised e => exact .inl ⟨_, rfl⟩
  | unwritten h => exact .inr ⟨rfl, h⟩

/-- Every form checks its operands before it reads them, and reads them before it operates. -/
theorem Form.answersOrUnwritten {i : Instr} {f : State → Result} {s : State} (hf : Form i f) (hs : s.Inv) :
    AnswersOrUnwritten s (f s) := by
  cases hf with
  | mov d a =>
    exact StopsOnUnwritten.finish <| .bind (.checkDest s d) fun _ _ => .bind (.checkSource s a) fun _ ha =>
      .bind (.readSource hs ha) fun _ _ => .ok _
  | alu2 op d a =>
    exact StopsOnUnwritten.finish <| .bind (.checkDest s d) fun _ hd => .bind (.checkSource s a) fun _ ha =>
      .bind (.readDest hs hd) fun x _ => .bind (.readSource hs ha) fun y _ =>
      .bind (.aluResult s op x y) fun _ _ => .ok _
  | alu3 op d a b =>
    exact StopsOnUnwritten.finish <| .bind (.checkDest s d) fun _ _ => .bind (.checkSource s a) fun _ ha =>
      .bind (.checkSource s b) fun _ hb => .bind (.readSource hs ha) fun x _ => .bind (.readSource hs hb) fun y _ =>
      .bind (.aluResult s op x y) fun _ _ => .ok _
  | alu1 op d =>
    exact StopsOnUnwritten.finish <| .bind (.checkDest s d) fun _ hd => .bind (.readDest hs hd) fun x _ =>
      .bind (.aluResult s op x 0) fun _ _ => .ok _
  | cmp a b =>
    exact StopsOnUnwritten.finish <| .bind (.checkSource s a) fun _ ha => .bind (.checkSource s b) fun _ hb =>
      .bind (.readSource hs ha) fun _ _ => .bind (.readSource hs hb) fun _ _ => .ok _
  | push a =>
    exact StopsOnUnwritten.finish <| .bind (.checkSource s a) fun _ ha => .bind (.readSource hs ha) fun v _ =>
      .push hs v
  | pop d => exact StopsOnUnwritten.finish <| .bind (.checkDest s d) fun k _ => .pop hs k
  | rdump => exact StopsOnUnwritten.finish (.dumped hs)

/-- A register without a value means `REG_RESET = Unwritten` (`10_state.md` R27). -/
theorem State.Inv.regReset_of_unwritten {s : State} (hs : s.Inv) (h : none ∈ s.regs) :
    s.cfg.regReset = .unwritten := by
  have ⟨_, _, _, _, _, hzero, _⟩ := hs
  cases hr : s.cfg.regReset with
  | zero => exact absurd h (hzero hr)
  | unwritten => rfl

/-- Settles O11: the form of the instruction answers or reads a register without a value, and under the invariant
such a register needs `REG_RESET = Unwritten`. -/
theorem instructionsStopOnlyOnUnwrittenReads : Obligations.InstructionsStopOnlyOnUnwrittenReads := by
  intro s i hs
  obtain ⟨t, ht⟩ | ⟨hfault, hempty⟩ := (exec_form i).answersOrUnwritten hs
  · rw [ht]
    exact ⟨nofun, nofun⟩
  · rw [hfault]
    refine ⟨nofun, ?_⟩
    rintro _ ⟨⟩
    exact ⟨rfl, hs.regReset_of_unwritten hempty, hempty⟩

end Sys2Proof.Machine
end

section
/-! SUPPORT. The errors of a line in the order of the stages (`40_execution.md` R111 stages 1 to 5, `60_exceptions.md`
R223): what each kind of token is rejected with, and which rejection comes first. -/

namespace Sys2Proof

open Machine (error_bind ok_bind position?_eq_none)

/-! ## Tokens that are rejected -/

section Tokens

variable {cfg : Config} {t : Text}

/-- A register name outside `REG_NAMES` (`30_encoding.md` R81). -/
theorem decodeRegName_of_not_mem (h : t ∉ cfg.regNames) :
    decodeRegName cfg t = .error (.raised .unknownRegister) := by
  rw [decodeRegName, position?_eq_none.2 h]

theorem decodeDest_of_not_mem (hc : tokenClass t = .regName) (h : t ∉ cfg.regNames) :
    decodeDest cfg t = .error (.raised .unknownRegister) := by
  simp only [decodeDest, hc, decodeRegName_of_not_mem h]

/-- A destination token of another class than a register name (`30_encoding.md` R86). -/
theorem decodeDest_of_not_regName (hc : tokenClass t ≠ .regName) :
    decodeDest cfg t = .error (.raised .invalidDestination) := by
  unfold decodeDest
  cases h : tokenClass t with
  | regName => exact absurd h hc
  | hex | dec | flt | other => rfl

theorem decodeDest_of_mem (hc : tokenClass t = .regName) (h : t ∈ cfg.regNames) : ∃ a, decodeDest cfg t = .ok a := by
  obtain ⟨k, hk⟩ := Option.isSome_iff_exists.1 (Machine.position?_isSome.2 h)
  exact ⟨.reg k, decodeDest_eq_ok.2 ⟨hc, k, hk, rfl⟩⟩

theorem decodeSource_of_other (hc : tokenClass t = .other) :
    decodeSource cfg t = .error (.raised .unknownOperand) := by
  simp only [decodeSource, hc]

theorem decodeSource_of_not_mem (hc : tokenClass t = .regName) (h : t ∉ cfg.regNames) :
    decodeSource cfg t = .error (.raised .unknownRegister) := by
  simp only [decodeSource, hc, decodeRegName_of_not_mem h]

/-- A literal above the largest accepted (`30_encoding.md` R79, R82). -/
theorem decodeLiteral_of_lt {max v : Nat} (h : max < v) : decodeLiteral max v = .error (.raised .unknownOperand) :=
  if_neg (Nat.not_le.2 h)

theorem decodeSource_of_large_hex (hc : tokenClass t = .hex) (h : 2 ^ 64 ≤ digitsValue 16 (t.drop 2)) :
    decodeSource cfg t = .error (.raised .unknownOperand) := by
  simp only [decodeSource, hc]
  exact decodeLiteral_of_lt (Nat.sub_one_lt_of_le (Nat.two_pow_pos 64) h)

theorem decodeSource_of_large_dec (hc : tokenClass t = .dec) (h : cfg.decMax.value < digitsValue 10 t) :
    decodeSource cfg t = .error (.raised .unknownOperand) := by
  simp only [decodeSource, hc, decodeLiteral_of_lt h]

end Tokens

/-! ## The first rejection -/

/-- The sources are read from the left, so the first bad one is reported. -/
theorem decodeSources_of_badSource {cfg : Config} {pre post : List Text} {b : Text} {e : DecodeError}
    (hpre : ∀ p ∈ pre, ∃ a, decodeSource cfg p = .ok a) (hb : decodeSource cfg b = .error e) :
    decodeSources cfg (pre ++ b :: post) = .error e := by
  induction pre with
  | nil => rw [List.nil_append, decodeSources, hb, error_bind]
  | cons p pre ih =>
    obtain ⟨⟨a, ha⟩, hpre⟩ := List.forall_mem_cons.1 hpre
    rw [List.cons_append, decodeSources, ha, ok_bind, ih hpre, error_bind]

section Operands

variable {cfg : Config} {o : Opcode} {e : DecodeError}

/-- The destination comes before the sources, whatever they are. -/
theorem decodeOperands_of_badDest {d : Text} {rest : List Text} (ho : o.hasDest = true)
    (hd : decodeDest cfg d = .error e) : decodeOperands cfg o (d :: rest) = .error e := by
  simp only [decodeOperands, ho, if_true, hd, error_bind]

/-- The first bad source is reported where no destination stands before it that is bad. -/
theorem decodeOperands_of_badSource {ops pre post : List Text} {b : Text}
    (hops : o.hasDest = false ∧ ops = pre ++ b :: post ∨
      o.hasDest = true ∧ ∃ d, tokenClass d = .regName ∧ d ∈ cfg.regNames ∧ ops = d :: (pre ++ b :: post))
    (hpre : ∀ p ∈ pre, ∃ a, decodeSource cfg p = .ok a) (hb : decodeSource cfg b = .error e) :
    decodeOperands cfg o ops = .error e := by
  have hsources := decodeSources_of_badSource (post := post) hpre hb
  obtain ⟨ho, rfl⟩ | ⟨ho, d, hc, hmem, rfl⟩ := hops
  · rw [decodeOperands_of_noDest ho, hsources]
  · obtain ⟨a, ha⟩ := decodeDest_of_mem hc hmem
    simp only [decodeOperands, ho, if_true, ha, ok_bind, hsources, error_bind]

end Operands

end Sys2Proof

namespace Sys2Proof.Machine

theorem stepLine_of_raised {line : Text} {s : State} {e : ErrorKind} (h : decodeLine s.cfg line = .error (.raised e)) :
    stepLine line s = s.raise e := by
  rw [stepLine, h]
  rfl

/-- An operand token that is rejected ends the step of its line (`40_execution.md` R111 stages 4 and 5). -/
theorem stepLine_of_badOperands {line op : Text} {ops : List Text} {s : State} {o : Opcode} {e : ErrorKind}
    (h : tokens line = op :: ops) (ho : Opcode.ofMnemonic? (upper op) = some o) (hn : ops.length ∈ o.arities)
    (he : decodeOperands s.cfg o ops = .error (.raised e)) : stepLine line s = s.raise e := by
  refine stepLine_of_raised ?_
  rw [decodeLine_of_operands h ho hn, he, error_bind]

/-- Settles O20: the line decoder by its stages, and within the operands the first token that is rejected. -/
theorem lineErrorsInStageOrder : Obligations.LineErrorsInStageOrder := by
  refine fun line s => ⟨fun h => stepLine_of_raised (decodeLine_of_noToken h), fun op ops h => ⟨fun hno => ?_,
    fun o ho => ⟨fun hn => ?_, fun hn => ⟨?_, ?_⟩⟩⟩⟩
  · exact stepLine_of_raised (decodeLine_of_noMnemonic h (ofMnemonic?_eq_none hno))
  · exact stepLine_of_raised (decodeLine_of_arity h (ofMnemonic?_mnemonic ho) hn)
  · rintro d rest rfl hdest
    have bad {e : ErrorKind} (hd : decodeDest s.cfg d = .error (.raised e)) : stepLine line s = s.raise e :=
      stepLine_of_badOperands h (ofMnemonic?_mnemonic ho) hn (decodeOperands_of_badDest hdest hd)
    exact ⟨fun hc hmem => bad (decodeDest_of_not_mem hc hmem), fun hc => bad (decodeDest_of_not_regName hc)⟩
  · intro pre b post hops hpre
    have bad {e : ErrorKind} (hb : decodeSource s.cfg b = .error (.raised e)) : stepLine line s = s.raise e :=
      stepLine_of_badOperands h (ofMnemonic?_mnemonic ho) hn (decodeOperands_of_badSource hops hpre hb)
    exact ⟨fun hc => bad (decodeSource_of_other hc), fun hc hmem => bad (decodeSource_of_not_mem hc hmem),
      fun hc hv => bad (decodeSource_of_large_hex hc hv), fun hc hv => bad (decodeSource_of_large_dec hc hv)⟩

end Sys2Proof.Machine
end

section
/-! SUPPORT. The ALU frames by the opcode's tag (`40_execution.md` R116, R118 to R120). -/

namespace Sys2Proof.Machine

/-- The outcome is what the ALU answers to the tag and the two words: its result written to the register at position
`d`, or `DivisionByZero` raised. -/
def State.AnswersAlu (s : State) (o : Result) (d : Nat) (tag : BitVec 4) (x y : Word) : Prop :=
  ∃ answer, aluPort tag x y = some answer ∧ (∀ r, answer = some r → s.Writes o d (fun v => v = r)) ∧
    (answer = none → o = s.raise .divisionByZero)

section Frames

variable {s : State} {dest : Operand} {d : Nat} (hs : s.Inv) (hd : s.dest? dest = some d)
include hs hd

/-- The two-operand frame answers by the tag of its operation (R118). -/
theorem aluFrame2_answersAlu (op : AluOp) {b : Operand} (x y : Word) (hx : s.reg? d = some x)
    (hy : s.source? b = some y) : s.AnswersAlu (aluFrame2 op dest b s) d op.tag x y :=
  ⟨_, aluPort_tag op x y, fun _ hr => aluFrame2_writes hs hd hx hy hr rfl, aluFrame2_divisionByZero hd hx hy⟩

/-- The three-operand frame answers by the tag of its operation, whatever its destination held (R119). -/
theorem aluFrame3_answersAlu (op : AluOp) {a b : Operand} (x y : Word) (hx : s.source? a = some x)
    (hy : s.source? b = some y) : s.AnswersAlu (aluFrame3 op dest a b s) d op.tag x y :=
  ⟨_, aluPort_tag op x y, fun _ hr => aluFrame3_writes hs hd hx hy hr rfl, aluFrame3_divisionByZero hd hx hy⟩

/-- The one-operand frame writes what its operation answers, where it answers a word (R120). -/
theorem aluFrame1_writesAlu (op : AluOp) {x r : Word} (hx : s.reg? d = some x) (hr : alu op x 0 = some r) :
    ∃ r, aluPort op.tag x 0 = some (some r) ∧ s.Writes (aluFrame1 op dest s) d (fun v => v = r) :=
  ⟨r, hr ▸ aluPort_tag op x 0, aluFrame1_writes hs hd hx hr rfl⟩

end Frames

/-- Settles O58: each instruction is the frame of its form, run with the operation its opcode's tag selects. -/
theorem aluFramesAnswerByTag : Obligations.AluFramesAnswerByTag := by
  intro s dest a b d hs hd
  simp only [List.forall_mem_cons, List.not_mem_nil, false_imp_iff, implies_true, and_true]
  refine ⟨?_, ?_, ?_⟩
  · have frame (op : AluOp) := aluFrame2_answersAlu hs hd op (b := b)
    exact ⟨frame .add, frame .sub, frame .and, frame .or, frame .xor, frame .mul, frame .div, frame .lsl, frame .lsr⟩
  · have frame (op : AluOp) := aluFrame3_answersAlu hs hd op (a := a) (b := b)
    exact ⟨frame .add, frame .sub, frame .and, frame .or, frame .xor, frame .mul, frame .div⟩
  · exact ⟨fun _ hx => aluFrame1_writesAlu hs hd .neg hx rfl, fun _ hx => aluFrame1_writesAlu hs hd .not hx rfl⟩

end Sys2Proof.Machine
end

section
/-! SUPPORT. The move of a word into a register (`41_move.md` R130). -/

namespace Sys2Proof.Machine

/-- `MOV` completes on a destination and a readable source. -/
theorem execMov_ok {s : State} {dest src : Operand} {d : Nat} {y : Word} (hd : s.dest? dest = some d)
    (hy : s.source? src = some y) : execMov dest src s = .next ((s.writeReg d y).reply (.status .ok)) := by
  obtain ⟨hcheck, hread⟩ := State.source?_eq_some.1 hy
  simp only [execMov, State.checkDest_eq_ok.2 hd, hcheck, hread, ok_bind]
  rfl

/-- Settles O33: `MOV` completes with its source's word written to a register of the file, and such a write changes
nothing else. -/
theorem movCopiesItsSource : Obligations.MovCopiesItsSource :=
  fun _ _ _ _ y hs hd hy => ⟨_, y, execMov_ok hd hy, State.wroteRegister y (hs.dest_lt hd), rfl⟩

end Sys2Proof.Machine
end

section
/-! SUPPORT. Arithmetic and logic (`42_arith_logic.md`): what each ALU result is as an integer or bit by bit, and
the two forms of an instruction from the operation they run. -/

namespace Sys2Proof.Machine

/-! ## The results of the ALU -/

theorem aluAdd_toNat (a b : Word) : (aluAdd a b).toNat = (a.toNat + b.toNat) % 2 ^ 64 :=
  Int.ofNat_inj.1 (wrap64_toNat (a.u + b.u))

theorem aluSub_toNat (a b : Word) : ((aluSub a b).toNat : Int) = ((a.toNat : Int) - b.toNat) % 2 ^ 64 :=
  wrap64_toNat (a.u - b.u)

theorem aluMul_toNat (a b : Word) : (aluMul a b).toNat = (a.toNat * b.toNat) % 2 ^ 64 :=
  Int.ofNat_inj.1 (wrap64_toNat (a.u * b.u))

/-- The low half of the product is the same for the signed readings (R146). -/
theorem aluMul_eq_wrap64_signed (a b : Word) : aluMul a b = wrap64 (a.s * b.s) := by
  simp only [aluMul, wrap64, Word.u, Word.s, BitVec.ofInt_mul, BitVec.ofInt_toInt, BitVec.ofInt_natCast,
    BitVec.ofNat_toNat, BitVec.setWidth_eq]

theorem aluMul_toNat_signed (a b : Word) : ((aluMul a b).toNat : Int) = (a.toInt * b.toInt) % 2 ^ 64 :=
  aluMul_eq_wrap64_signed a b ▸ wrap64_toNat (a.s * b.s)

theorem aluDiv_zero (a : Word) : aluDiv a 0 = none := if_pos rfl

/-- The quotient of R147 is the library's signed division, the case -2^63 / -1 included: both wrap the integer
quotient. -/
theorem aluDiv_of_ne_zero (a : Word) {b : Word} (h : b ≠ 0) : aluDiv a b = some (a.sdiv b) := by
  have hu : b.u ≠ 0 := fun hb => h (BitVec.eq_of_toNat_eq (Int.ofNat_inj.1 hb))
  have hwrap : wrap64 (a.s.tdiv b.s) = a.sdiv b :=
    BitVec.eq_of_toInt_eq (by rw [wrap64, BitVec.toInt_ofInt, BitVec.toInt_sdiv, Word.s, Word.s])
  rw [aluDiv, if_neg hu, hwrap]

/-- Rounding toward zero, and the one quotient that is no word: -2^63 / -1 (R147). -/
theorem sdiv_roundsTowardZero (a b : Word) :
    (a.toInt = -(2 ^ 63) ∧ b.toInt = -1 → a.sdiv b = a) ∧
      (¬ (a.toInt = -(2 ^ 63) ∧ b.toInt = -1) → (a.sdiv b).toInt = a.toInt.tdiv b.toInt) := by
  have hmin : a.toInt = -(2 ^ 63) ↔ a = BitVec.intMin 64 := BitVec.toInt_inj (y := BitVec.intMin 64)
  have hneg : b.toInt = -1 ↔ b = -1#64 := BitVec.toInt_inj (y := -1#64)
  rw [hmin, hneg]
  refine ⟨?_, fun h => BitVec.toInt_sdiv_of_ne_or_ne a b (not_and_or.1 h)⟩
  rintro ⟨rfl, rfl⟩
  exact BitVec.intMin_sdiv_neg_one

/-! ## Both forms of an instruction -/

/-- Where the ALU answers a word, the form in place and the form with two sources both write it (`40_execution.md`
R118, R119). -/
theorem aluFrames_write {s : State} {op : AluOp} {dest a b : Operand} {d : Nat} {x y r : Word} {P : Word → Prop}
    (hs : s.Inv) (hd : s.dest? dest = some d) (hr : alu op x y = some r) (hP : P r) :
    (s.reg? d = some x → s.source? b = some y → s.Writes (aluFrame2 op dest b s) d P) ∧
      (s.source? a = some x → s.source? b = some y → s.Writes (aluFrame3 op dest a b s) d P) :=
  ⟨fun hx hy => aluFrame2_writes hs hd hx hy hr hP, fun hx hy => aluFrame3_writes hs hd hx hy hr hP⟩

/-- Settles O34: the ALU's result is the wrapped sum of the readings. -/
theorem addWrapsTheSum : Obligations.AddWrapsTheSum :=
  fun _ _ _ _ _ x y hs hd => aluFrames_write hs hd (op := .add) rfl (aluAdd_toNat x y)

/-- Settles O35: the ALU's result is the wrapped difference of the readings. -/
theorem subWrapsTheDifference : Obligations.SubWrapsTheDifference :=
  fun _ _ _ _ _ x y hs hd => aluFrames_write hs hd (op := .sub) rfl (aluSub_toNat x y)

/-- Settles O36: the bits of a conjunction of words. -/
theorem andIsBitwise : Obligations.AndIsBitwise :=
  fun _ _ _ _ _ _ _ hs hd => aluFrames_write hs hd (op := .and) rfl fun _ _ => BitVec.getLsbD_and

/-- Settles O37: the bits of a disjunction of words. -/
theorem orIsBitwise : Obligations.OrIsBitwise :=
  fun _ _ _ _ _ _ _ hs hd => aluFrames_write hs hd (op := .or) rfl fun _ _ => BitVec.getLsbD_or

/-- Settles O38: the bits of an exclusive or of words. -/
theorem xorIsBitwise : Obligations.XorIsBitwise :=
  fun _ _ _ _ _ _ _ hs hd => aluFrames_write hs hd (op := .xor) rfl fun _ _ => BitVec.getLsbD_xor

/-- Settles O39: the wrapped product of the unsigned readings is that of the signed ones. -/
theorem mulKeepsTheLowHalf : Obligations.MulKeepsTheLowHalf :=
  fun _ _ _ _ _ x y hs hd =>
    aluFrames_write hs hd (op := .mul) rfl ⟨aluMul_toNat x y, aluMul_toNat_signed x y⟩

/-- Settles O40: a nonzero divisor gives the signed quotient, and zero the indication that the frames raise. -/
theorem divRoundsTowardZero : Obligations.DivRoundsTowardZero := by
  intro s dest a b d x y hs hd
  have quotient := sdiv_roundsTowardZero x y
  refine ⟨fun hx hb => ⟨fun hy => ?_, ?_⟩, fun ha hb => ⟨fun hy => ?_, ?_⟩⟩
  · exact aluFrame2_writes hs hd hx hb (aluDiv_of_ne_zero x hy) quotient
  · rintro rfl
    exact aluFrame2_divisionByZero hd hx hb (aluDiv_zero x)
  · exact aluFrame3_writes hs hd ha hb (aluDiv_of_ne_zero x hy) quotient
  · rintro rfl
    exact aluFrame3_divisionByZero hd ha hb (aluDiv_zero x)

end Sys2Proof.Machine
end


section
/-! SUPPORT. The operations in place (`43_unary.md`): what each ALU result is against the word it replaces. -/

namespace Sys2Proof.Machine

/-- The difference of R160 is the library's negation of a word. -/
theorem aluNeg_eq_neg (a : Word) : aluNeg a = -a := by
  rw [aluNeg, wrap64, Word.u, Int.zero_sub, BitVec.ofInt_neg, BitVec.ofInt_natCast, BitVec.ofNat_toNat,
    BitVec.setWidth_eq]

theorem toNat_add_aluNeg (a : Word) : (a.toNat + (aluNeg a).toNat) % 2 ^ 64 = 0 := by
  rw [← BitVec.toNat_add, aluNeg_eq_neg, BitVec.add_right_neg, BitVec.toNat_zero]

theorem getLsbD_aluNot (a : Word) {j : Nat} (hj : j < 64) : (aluNot a).getLsbD j = !a.getLsbD j := by
  rw [aluNot, BitVec.getLsbD_not, decide_eq_true hj, Bool.true_and]

/-- Settles O41: both are the one-operand frame, which writes the ALU's result and changes nothing else. -/
theorem negAndNotInPlace : Obligations.NegAndNotInPlace :=
  fun _ _ _ x hs hd hx =>
    ⟨aluFrame1_writes hs hd (op := .neg) hx rfl (toNat_add_aluNeg x),
      aluFrame1_writes hs hd (op := .not) hx rfl fun _ => getLsbD_aluNot x⟩

end Sys2Proof.Machine
end


section
/-! SUPPORT. The shifts (`44_shift.md`): each ALU result is the library's logical shift by the amount of R170. -/

namespace Sys2Proof.Machine

theorem aluLsl_eq_shiftLeft (a b : Word) : aluLsl a b = a <<< shiftAmount b := by
  have reading : a.u * 2 ^ shiftAmount b = ((a.toNat <<< shiftAmount b : Nat) : Int) := by
    rw [Nat.shiftLeft_eq, Word.u]
    norm_cast
  rw [aluLsl, reading, wrap64_natCast, ← BitVec.toNat_inj, BitVec.toNat_ofNat, BitVec.toNat_shiftLeft]

theorem aluLsr_eq_ushiftRight (a b : Word) : aluLsr a b = a >>> shiftAmount b := by
  have reading : a.u / 2 ^ shiftAmount b = ((a.toNat >>> shiftAmount b : Nat) : Int) := by
    rw [Nat.shiftRight_eq_div_pow, Word.u]
    norm_cast
  rw [aluLsr, reading, wrap64_natCast, ← BitVec.toNat_ushiftRight, BitVec.ofNat_toNat, BitVec.setWidth_eq]

/-- Below the amount LSL fills with zeros, and at it the bits of the operand begin (R171). -/
theorem getLsbD_aluLsl (a b : Word) {j : Nat} (hj : j < 64) :
    (aluLsl a b).getLsbD j = (decide (shiftAmount b ≤ j) && a.getLsbD (j - shiftAmount b)) := by
  rw [aluLsl_eq_shiftLeft, BitVec.getLsbD_shiftLeft, decide_eq_true hj, Bool.true_and, ← decide_not]
  simp only [Nat.not_lt]

/-- LSR fills with zeros from above: they are the bits read past the top of the operand (R172). -/
theorem getLsbD_aluLsr (a b : Word) (j : Nat) : (aluLsr a b).getLsbD j = a.getLsbD (j + shiftAmount b) := by
  rw [aluLsr_eq_ushiftRight, BitVec.getLsbD_ushiftRight, Nat.add_comm]

/-- Settles O42: both are the two-operand frame, which writes the ALU's result and changes nothing else. -/
theorem shiftsTakeTheAmountModulo64 : Obligations.ShiftsTakeTheAmountModulo64 :=
  fun _ _ _ _ x y hs hd hx hy =>
    ⟨aluFrame2_writes hs hd (op := .lsl) hx hy rfl fun _ => getLsbD_aluLsl x y,
      aluFrame2_writes hs hd (op := .lsr) hx hy rfl fun j _ => getLsbD_aluLsr x y j⟩

end Sys2Proof.Machine
end


section
/-! SUPPORT. Comparison (`45_compare.md` R180). -/

namespace Sys2Proof.Machine

/-- `CMP` completes on two readable sources with the flag writes of their comparison. -/
theorem execCmp_ok {s : State} {a b : Operand} {x y : Word} (hx : s.source? a = some x) (hy : s.source? b = some y) :
    execCmp a b s = .next ((s.compare x y).reply (.status .ok)) := by
  obtain ⟨hcheckA, hreadA⟩ := State.source?_eq_some.1 hx
  obtain ⟨hcheckB, hreadB⟩ := State.source?_eq_some.1 hy
  simp only [execCmp, hcheckA, hcheckB, hreadA, hreadB, ok_bind]
  rfl

/-- A comparison leaves every register, every byte of memory and everything else but the flags. -/
theorem State.comparedFrame (s : State) (x y : Word) :
    let t := (s.compare x y).reply (.status .ok)
    s.RegsKept t [] ∧ s.MemKept t ∧ s.OthersKept t ∧ s.RepliedOk t :=
  ⟨fun _ _ => rfl, fun _ => rfl, ⟨rfl, rfl, rfl⟩, rfl⟩

/-- Settles O43: `CMP` completes with the flag writes of its sources' comparison, which touch `Z` and `N` alone. -/
theorem cmpSetsZAndN : Obligations.CmpSetsZAndN := by
  intro s a b x y hx hy
  obtain ⟨hz, hn, hflags⟩ := s.flag_compare x y
  exact ⟨_, execCmp_ok hx hy, hz, hn, hflags, s.comparedFrame x y⟩

end Sys2Proof.Machine
end

section
/-! SUPPORT. The stack (`46_stack.md` R190 to R199): the discipline that every instruction which leaves `RSP` and `SS`
to `PUSH` and `POP` keeps, what a push and a pop do, and the two together. -/

namespace Sys2Proof.Machine

/-! ## Words, names and states -/

/-- `wrap64` leaves an integer of the unsigned range as it is (`00_scope.md` R10). -/
theorem u_wrap64 {i : Int} (h0 : 0 ≤ i) (h1 : i < 2 ^ 64) : (wrap64 i).u = i :=
  (wrap64_toNat i).trans (Int.emod_eq_of_lt h0 h1)

theorem wrap64_u (w : Word) : wrap64 w.u = w := by simp [wrap64, Word.u]

/-- The pointer a pop leaves is the old one plus 8, as words. -/
theorem wrap64_u_add_eight (p : Word) : wrap64 (p.u + 8) = p + 8 := by
  apply BitVec.eq_of_toNat_eq
  have := wrap64_toNat (p.u + 8)
  unfold Word.u at *
  rw [BitVec.toNat_add, show (8 : Word).toNat = 8 by rfl]
  omega

/-- The top of memory is an unsigned word (`70_reset_and_hazards.md` R263). -/
theorem memSize_lt_of_valid {cfg : Config} (h : cfg.Valid) : (cfg.memSize : Int) < 2 ^ 64 := by
  have ⟨_, _, _, _, _, hmem, _⟩ := h
  omega

/-- Different names stand at different positions. -/
theorem position?_inj {cfg : Config} {n m : Text} {k : Nat} (hn : cfg.position? n = some k)
    (hm : cfg.position? m = some k) : n = m := by
  obtain ⟨_, rfl⟩ := position?_eq_some hn
  obtain ⟨_, rfl⟩ := position?_eq_some hm
  rfl

/-- The base does not stand at the position of the stack pointer. -/
theorem position?_ssName_ne {cfg : Config} {k : Nat} (h : cfg.position? rspName = some k) :
    cfg.position? ssName ≠ some k := fun h' => absurd (position?_inj h h') (by decide)

/-- A register keeps its value when another position is written. -/
theorem State.named?_writeReg_other {s : State} {n : Text} {k : Nat} (v : Word) (h : s.cfg.position? n ≠ some k) :
    (s.writeReg k v).named? n = s.named? n := by
  unfold State.named?
  refine Option.bind_congr fun j hj => State.reg?_writeReg_other s v ?_
  rintro rfl
  exact h hj

/-- Every instruction that answers a next state keeps the invariant. -/
theorem exec_inv {i : Instr} {s t : State} (hs : s.Inv) (h : exec i s = .next t) : t.Inv := by
  obtain ⟨u, hu, rfl⟩ | ⟨e, rfl⟩ := exec_completes i s t h
  · exact (hu.inv hs).reply _
  · exact hs.reply _

/-- Which register a destination names depends on the configuration alone. -/
theorem State.dest?_congr {s t : State} (h : t.cfg = s.cfg) (o : Operand) : t.dest? o = s.dest? o := by
  cases o <;> simp [State.dest?, h]

/-! ## Stack discipline -/

namespace State.StackDiscipline

variable {s : State}

/-- The discipline reads the configuration and the two stack registers alone. -/
theorem congr {t : State} (h : s.StackDiscipline) (hcfg : t.cfg = s.cfg) (hp : t.named? rspName = s.named? rspName)
    (hb : t.named? ssName = s.named? ssName) : t.StackDiscipline := by
  simpa only [State.StackDiscipline, hcfg, hp, hb] using h

/-- Writing a register that is neither stack register keeps the discipline. -/
theorem writeReg {k : Nat} (v : Word) (h : s.StackDiscipline)
    (hk : s.cfg.position? rspName ≠ some k ∧ s.cfg.position? ssName ≠ some k) : (s.writeReg k v).StackDiscipline := by
  obtain ⟨hrsp, hss⟩ := hk
  exact h.congr rfl (State.named?_writeReg_other v hrsp) (State.named?_writeReg_other v hss)

/-- Moving the stack pointer anywhere between the base and the top keeps the discipline. -/
theorem movePointer {p base : Word} {k : Nat} {i : Int} (hs : s.cfg.Valid) (hk : s.cfg.position? rspName = some k)
    (hp : s.named? rspName = some p) (hb : s.named? ssName = some base) (hbase : base.u ≤ i)
    (htop : i ≤ s.cfg.memSize) : (s.writeReg k (wrap64 i)).StackDiscipline := by
  have hi : (wrap64 i).u = i := u_wrap64 ((Word.u_nonneg base).trans hbase) (htop.trans_lt (memSize_lt_of_valid hs))
  refine ⟨wrap64 i, base, State.named?_writeReg_self _ hk hp, ?_, by rwa [hi], by rwa [hi]⟩
  rw [State.named?_writeReg_other _ (position?_ssName_ne hk), hb]

end State.StackDiscipline

/-- The reset state has an empty stack: the pointer at the top, the base below it by the size of the stack
(`70_reset_and_hazards.md` R261). -/
theorem resetWith_stackDiscipline {cfg : Config} (h : cfg.Valid) : (State.resetWith cfg).StackDiscipline := by
  have ⟨_, hrsp, hss, _, _, _, hstack, _⟩ := h
  have hlt := memSize_lt_of_valid h
  refine ⟨wrap64 cfg.memSize, wrap64 ((cfg.memSize : Int) - cfg.stackSize),
    (resetWith_named? hrsp).trans (resetValue_rspName cfg), (resetWith_named? hss).trans (resetValue_ssName cfg), ?_, ?_⟩
  · rw [u_wrap64 (by omega) (by omega), u_wrap64 (by omega) hlt]
    omega
  · rw [u_wrap64 (by omega) hlt]
    rfl

/-- An effect whose destination is neither stack register keeps the discipline: a push stops at the base, a pop at
the top (`46_stack.md` R190, `90_conflicts.md` C3). -/
theorem Effect.stackDiscipline {i : Instr} {s u : State} (h : Effect i s u) (hs : s.cfg.Valid)
    (hdisc : s.StackDiscipline)
    (hdest : ∀ d k, i.dest? = some d → s.dest? d = some k →
      s.cfg.position? rspName ≠ some k ∧ s.cfg.position? ssName ≠ some k) : u.StackDiscipline := by
  cases h with
  | wrote k v hd =>
    obtain ⟨d, hid, hdk⟩ := Option.bind_eq_some_iff.1 hd
    exact hdisc.writeReg v (hdest d k hid hdk)
  | compared => exact hdisc.congr rfl rfl rfl
  | pushed _ v p base k _ hp hb hk hbase htop =>
    exact .movePointer (s := s.withMem _) hs hk hp hb hbase (by simp only [State.withMem_cfg]; omega)
  | popped d p k j hi hd hp hk htop =>
    obtain ⟨p', base, hp', hb, hbase, -⟩ := hdisc
    obtain rfl : p' = p := Option.some.inj (hp'.symm.trans hp)
    exact (State.StackDiscipline.movePointer hs hk hp hb (by omega) htop).writeReg _ (hdest d j (hi ▸ rfl) hd)
  | dumped => exact hdisc.congr rfl rfl rfl

/-- Settles O48: the reset state keeps discipline, and so does every effect; an error raised leaves no trace. -/
theorem stackDisciplineIsKept : Obligations.StackDisciplineIsKept := by
  refine ⟨fun _ => resetWith_stackDiscipline, fun i s t hs hdisc h hdest => ?_⟩
  have ⟨hvalid, _⟩ := hs
  obtain ⟨u, hu, rfl⟩ | ⟨e, rfl⟩ := exec_completes i s t h
  · exact (hu.stackDiscipline hvalid hdisc hdest).congr rfl rfl rfl
  · exact hdisc.congr rfl rfl rfl

/-! ## Pushing -/

/-- `PUSH` of a source that yields a value pushes it. -/
theorem execPush_eq {s : State} {a : Operand} {v : Word} (hv : s.source? a = some v) :
    execPush a s = s.finish (s.push v) := by
  obtain ⟨hcheck, hread⟩ := State.source?_eq_some.1 hv
  simp [execPush, hcheck, hread]

section Push

variable {s : State} {a : Operand} {v p base : Word} (hv : s.source? a = some v) (hp : s.named? rspName = some p)
  (hb : s.named? ssName = some base)
include hv hp hb

/-- `PUSH` overflows where the eight bytes would reach below the base (R192). -/
theorem execPush_stackOverflow (h : p.u - 8 < base.u) : execPush a s = s.raise .stackOverflow := by
  simp [execPush_eq hv, State.push, State.readNamed_eq_ok.2 hp, State.readNamed_eq_ok.2 hb, h]

/-- `PUSH` is out of bounds where the pointer stands above the top, the base check passed (R192). -/
theorem execPush_outOfBounds (hbase : base.u ≤ p.u - 8) (h : s.cfg.memSize < p.u) :
    execPush a s = s.raise .outOfBounds := by
  simp [execPush_eq hv, State.push, State.readNamed_eq_ok.2 hp, State.readNamed_eq_ok.2 hb, hbase.not_gt, h]

/-- `PUSH` completes between the base and the top (R192). -/
theorem execPush_ok {k : Nat} (hk : s.cfg.position? rspName = some k) (hbase : base.u ≤ p.u - 8)
    (htop : p.u ≤ s.cfg.memSize) :
    execPush a s = .next
      (((s.withMem (s.mem.writeWord (pushAddress p) v)).writeReg k (wrap64 (p.u - 8))).reply (.status .ok)) := by
  simp [execPush_eq hv, State.push_eq_ok.2 ⟨p, base, k, hp, hb, hk, hbase, htop, rfl⟩]

end Push

/-- Settles O44: the operand's check, the base check and the range check decide; a push that passes them writes one
word of memory and one register. -/
theorem pushStoresBelowThePointer : Obligations.PushStoresBelowThePointer := by
  refine fun s a ⟨_, _, hwf, _⟩ => ⟨fun e he => ?_, fun v p base hv hp hb =>
    ⟨execPush_stackOverflow hv hp hb, fun hbase h => execPush_outOfBounds hv hp hb hbase (Int.ofNat_lt.2 h),
      fun hbase htop => ?_⟩⟩
  · exact (exec_form (.push a)).raise_of_firstError (by simp [firstError, Instr.dest?, Instr.sources, he])
  · obtain ⟨k, hk, -⟩ := State.named?_eq_some hp
    have h0 : 0 ≤ p.u - 8 := (Word.u_nonneg base).trans hbase
    have haddr : (pushAddress p : Int) = (p.toNat : Int) - 8 := Int.toNat_of_nonneg h0
    refine ⟨_, execPush_ok hv hp hb hk hbase (Int.ofNat_le.2 htop), haddr,
      fun i hi => Memory.readByte_writeWord v hwf hi, fun x hx => Memory.readByte_writeWord_other v hwf hx,
      ⟨wrap64 (p.u - 8), State.named?_writeReg_self _ hk hp, ?_⟩, fun j hj => ?_, fun _ => rfl, ⟨rfl, rfl, rfl⟩, rfl⟩
    · rw [wrap64_pushAddress h0, haddr]
    · exact State.reg?_writeReg_other _ _ (by rintro rfl; exact hj hk)

/-! ## Popping -/

/-- `POP` underflows where the eight bytes would reach past the top (R197). -/
theorem execPop_stackUnderflow {s : State} {dest : Operand} {d : Nat} {p : Word} (hd : s.dest? dest = some d)
    (hp : s.named? rspName = some p) (h : s.cfg.memSize < p.u + 8) : execPop dest s = s.raise .stackUnderflow := by
  simp [execPop, State.checkDest_eq_ok.2 hd, State.pop, State.readNamed_eq_ok.2 hp, h]

/-- A `POP` that answers `OK` moved the pointer and then wrote the word it found there to its destination (R197,
R199). -/
theorem execPop_of_repliedOk {s t : State} {d k : Nat} {p : Word} (hp : s.named? rspName = some p)
    (hk : s.cfg.position? rspName = some k) (h : execPop (.reg d) s = .next t) (ht : s.RepliedOk t) :
    t = ((s.writeReg k (wrap64 (p.u + 8))).writeReg d (s.mem.readWord p.toNat)).reply (.status .ok) := by
  obtain ⟨u, hu, rfl⟩ | ⟨e, -, rfl⟩ := State.finish_eq_next h
  · obtain ⟨d', hd, hu⟩ := bind_eq_ok.1 hu
    obtain ⟨⟨⟩, -⟩ := State.dest?_eq_some (State.checkDest_eq_ok.1 hd)
    obtain ⟨p', k', hp', hk', -, rfl⟩ := State.pop_eq_ok.1 hu
    obtain rfl : p' = p := Option.some.inj (hp'.symm.trans hp)
    obtain rfl : k' = k := Option.some.inj (hk'.symm.trans hk)
    rfl
  · simp [State.RepliedOk] at ht

/-- Settles O45: the destination's check and the top check decide; a pop that passes them writes two registers. -/
theorem popLoadsAtThePointer : Obligations.PopLoadsAtThePointer := by
  refine fun s dest hs => ⟨fun e he => ?_, fun d p hd hp => ⟨fun htop => ?_, fun h => ?_⟩⟩
  · exact (exec_form (.pop dest)).raise_of_firstError (by simp [firstError, Instr.dest?, Instr.sources, he])
  · have ⟨hvalid, _⟩ := hs
    obtain ⟨k, hk, -⟩ := State.named?_eq_some hp
    have htop' : p.u + 8 ≤ s.cfg.memSize := Int.ofNat_le.2 htop
    have hq : (wrap64 (p.u + 8)).u = p.u + 8 :=
      u_wrap64 (by have := Word.u_nonneg p; omega) (htop'.trans_lt (memSize_lt_of_valid hvalid))
    refine ⟨_, s.mem.readWord p.toNat, execPop_ok hd hp hk htop', ?_, fun i hi => Memory.readWord_slice _ _ _ hi,
      fun hne => ⟨wrap64 (p.u + 8), ?_, Int.ofNat_inj.1 hq⟩, fun j hjd hjk => ?_, fun _ => rfl, fun _ => rfl,
      ⟨rfl, rfl, rfl⟩, rfl⟩
    · exact State.reg?_writeReg_self _ (by simpa using hs.dest_lt hd)
    · rw [State.reply_named?, State.named?_writeReg_other (s := s.writeReg k _) _ hne, State.named?_writeReg_self _ hk hp]
    · exact (State.reg?_writeReg_other _ _ hjd).trans
        (State.reg?_writeReg_other _ _ (by rintro rfl; exact hjk hk))
  · exact execPop_stackUnderflow hd hp (Int.ofNat_lt.2 h)

/-! ## A push and a pop behind it -/

section Pushed

variable {s t : State} {a : Operand} {v p : Word} (hs : s.Inv) (hv : s.source? a = some v)
  (h : execPush a s = .next t) (ht : s.RepliedOk t) (hp : s.named? rspName = some p)
include hs hv h ht hp

/-- A `PUSH` that answers `OK` leaves the word of its source at its store address, inside memory, and the pointer
there (R192). -/
theorem execPush_leaves : t.mem.readWord (pushAddress p) = v ∧ t.named? rspName = some (wrap64 (p.u - 8)) ∧
    0 ≤ p.u - 8 ∧ pushAddress p + 8 ≤ s.cfg.memSize := by
  have ⟨_, _, hwf, _⟩ := hs
  obtain ⟨p', k, hp', hk, h0, hend, rfl⟩ := execPush_of_repliedOk hv h ht
  obtain rfl : p' = p := Option.some.inj (hp'.symm.trans hp)
  refine ⟨Memory.readWord_writeWord v hwf, ?_, h0, hend⟩
  rw [State.reply_named?]
  exact State.named?_writeReg_self _ hk hp

/-- A `POP` behind a `PUSH` that answered `OK` writes the pointer the push found, then the pushed word to its
destination (R196). -/
theorem execPop_of_execPush {dest : Operand} {d k : Nat} (hd : s.dest? dest = some d)
    (hk : s.cfg.position? rspName = some k) :
    execPop dest t = .next (((t.writeReg k p).writeReg d v).reply (.status .ok)) := by
  obtain ⟨hword, hptr, h0, hend⟩ := execPush_leaves hs hv h ht hp
  have hcfg : t.cfg = s.cfg := exec_keepsConfig (.push a) s t h
  have haddr := wrap64_pushAddress h0
  have hback : (wrap64 (p.u - 8)).u + 8 = p.u := by
    rw [Word.u, haddr, pushAddress]
    omega
  have htop : (wrap64 (p.u - 8)).u + 8 ≤ t.cfg.memSize := by
    rw [Word.u, haddr, hcfg]
    omega
  have hpop := execPop_ok ((State.dest?_congr hcfg dest).trans hd) hptr (hcfg ▸ hk) htop
  rwa [hback, wrap64_u, haddr, hword] at hpop

end Pushed

/-- Settles O46: the pop behind the push writes the old pointer, then the pushed word, to different registers. -/
theorem pushThenPopRestores : Obligations.PushThenPopRestores := by
  intro s t a dest x d hs hx h ht hd hne
  have ⟨_, _, _, _, _, _, hrsp, _⟩ := hs
  obtain ⟨p, hp⟩ := Option.isSome_iff_exists.1 hrsp
  obtain ⟨k, hk, -⟩ := State.named?_eq_some hp
  obtain ⟨-, hptr, -⟩ := execPush_leaves hs hx h ht hp
  have hcfg : t.cfg = s.cfg := exec_keepsConfig (.push a) s t h
  have hdt : t.dest? dest = some d := (State.dest?_congr hcfg dest).trans hd
  refine ⟨_, execPop_of_execPush hs hx h ht hp hd hk, rfl, ?_, ?_, fun _ => rfl⟩
  · exact State.reg?_writeReg_self _ (by simpa using (exec_inv hs h).dest_lt hdt)
  · rw [State.reply_named?, State.named?_writeReg_other _ (by simpa [hcfg] using hne),
      State.named?_writeReg_self _ (hcfg ▸ hk) hptr, hp]

/-! ## The stack registers as operands -/

/-- The register at a name's position, as a source, yields what the name holds. -/
theorem State.source?_position? {s : State} {n : Text} {k : Nat} (hk : s.cfg.position? n = some k) :
    s.source? (.reg k) = s.named? n := by
  obtain ⟨hlt, -⟩ := position?_eq_some hk
  simp [State.source?, hlt, State.named?_eq hk]

/-- No `PUSH` touches the base: it writes the stack pointer alone (R194). -/
theorem execPush_named?_ssName {s t : State} {a : Operand} (h : exec (.push a) s = .next t) :
    t.named? ssName = s.named? ssName := by
  obtain ⟨hregs, hcfg, -⟩ := instructionsWriteOnlyTheirOwnState (.push a) s t h
  unfold State.named?
  rw [hcfg]
  exact Option.bind_congr fun k hk => hregs k nofun fun _ hk' => position?_ssName_ne hk' hk

/-- Settles O47: a push reads its operand before it moves the pointer, and a pop writes its destination after. -/
theorem stackRegistersAsOperands : Obligations.StackRegistersAsOperands := by
  intro s t kp ks p base hs hkp hks hp hb ht
  refine ⟨fun h => ?_, fun h => ?_, fun a h => (execPush_named?_ssName h).trans hb, fun h => ?_, fun h => ?_⟩
  · obtain ⟨hword, -⟩ := execPush_leaves hs ((State.source?_position? hkp).trans hp) h ht hp
    exact hword
  · obtain ⟨hword, -⟩ := execPush_leaves hs ((State.source?_position? hks).trans hb) h ht hp
    exact hword
  · rw [execPop_of_repliedOk hp hkp h ht, State.reply_named?]
    exact State.named?_writeReg_self _ hkp (State.named?_writeReg_self _ hkp hp)
  · have hrsp : s.cfg.position? rspName ≠ some ks := fun hks' => position?_ssName_ne hks' hks
    have hbase : (s.writeReg kp (wrap64 (p.u + 8))).named? ssName = some base :=
      (State.named?_writeReg_other _ (position?_ssName_ne hkp)).trans hb
    rw [execPop_of_repliedOk hp hkp h ht, State.reply_named?, State.reply_named?]
    refine ⟨State.named?_writeReg_self _ hks hbase, ?_⟩
    rw [State.named?_writeReg_other (s := s.writeReg kp _) _ hrsp, State.named?_writeReg_self _ hkp hp,
      wrap64_u_add_eight]

end Sys2Proof.Machine
end

section
/-! SUPPORT. Construction and reset (`70_reset_and_hazards.md` R260 to R263): which configurations are valid, what
their reset states hold, and that these meet the invariant. -/

namespace Sys2Proof.Machine

/-! ## Construction -/

theorem construct_of_valid {cfg : Config} (h : cfg.Valid) : State.construct cfg = .next (State.resetWith cfg) :=
  if_pos h

theorem construct_of_not_valid {cfg : Config} (h : ¬ cfg.Valid) :
    State.construct cfg = .refused .invalidConfiguration := if_neg h

/-- The negations of R263's conditions, one by one, with R7's on `DUMP_ORDER`. -/
theorem not_valid_iff {cfg : Config} : ¬ cfg.Valid ↔
    ¬ cfg.regNames.Nodup ∨ rspName ∉ cfg.regNames ∨ ssName ∉ cfg.regNames ∨ [] ∈ cfg.regNames ∨ cfg.memSize < 1 ∨
      2 ^ 63 - 1 < cfg.memSize ∨ cfg.memSize < cfg.stackSize ∨ ¬ cfg.dumpOrder.Perm cfg.regNames := by
  have hempty : (∀ n ∈ cfg.regNames, n ≠ []) ↔ [] ∉ cfg.regNames := List.forall_mem_ne'
  rw [Config.Valid, hempty]
  simp only [not_and_or, not_not, not_le]

/-- Settles O2: construction asks for validity alone, and validity is the conditions listed. -/
theorem invalidConfigurationIsRefused : Obligations.InvalidConfigurationIsRefused := by
  refine fun cfg => ⟨fun h => construct_of_not_valid (not_valid_iff.2 h), ?_⟩
  rintro ⟨hnodup, hrsp, hss, hempty, hmem⟩
  have hvalid : cfg.Valid := ⟨hnodup, hrsp, hss, List.forall_mem_ne'.2 hempty, hmem⟩
  exact ⟨_, construct_of_valid hvalid⟩

/-! ## The reset state -/

/-- Every register but the two of the stack is reset as `REG_RESET` says (`10_state.md` R27). -/
theorem resetValue_of_ne {cfg : Config} {n : Text} (hp : n ≠ rspName) (hs : n ≠ ssName) :
    Config.resetValue cfg n = match cfg.regReset with | .zero => some 0 | .unwritten => none := by
  cases hr : cfg.regReset with
  | zero => exact resetValue_of_zero hr hp hs
  | unwritten => rw [Config.resetValue, if_neg hp, if_neg hs, hr]

theorem resetValue_isSome_of_zero {cfg : Config} (hz : cfg.regReset = .zero) (n : Text) :
    (Config.resetValue cfg n).isSome = true := by
  by_cases hp : n = rspName
  · simp [hp]
  · by_cases hs : n = ssName
    · simp [hs]
    · simp [resetValue_of_zero hz hp hs]

/-- Settles O1: the reset value of each name, and no flag, byte or text. -/
theorem constructionGivesTheResetState : Obligations.ConstructionGivesTheResetState := by
  intro cfg h
  have ⟨_, hrsp, hss, _⟩ := h
  exact ⟨State.resetWith cfg, construct_of_valid h, rfl,
    fun n hn hp hs => (resetWith_named? hn).trans (resetValue_of_ne hp hs),
    (resetWith_named? hrsp).trans (resetValue_rspName cfg), (resetWith_named? hss).trans (resetValue_ssName cfg),
    fun _ => rfl, fun _ => rfl, rfl⟩

/-! ## The invariant at reset -/

theorem resetWith_inv {cfg : Config} (h : cfg.Valid) : (State.resetWith cfg).Inv := by
  have ⟨_, hrsp, hss, _⟩ := h
  refine ⟨h, List.length_map _, Memory.wf_nil, nofun, .nil, fun hz hnone => ?_, ?_, ?_⟩
  · obtain ⟨n, -, hn⟩ := List.mem_map.1 hnone
    have hsome : (Config.resetValue cfg n).isSome = true := resetValue_isSome_of_zero hz n
    rw [hn] at hsome
    cases hsome
  · rw [resetWith_named? hrsp, resetValue_rspName]
    rfl
  · rw [resetWith_named? hss, resetValue_ssName]
    rfl

/-- The default names make a valid configuration with every size of memory and stack that R263 allows. -/
theorem withSizes_valid {memSize stackSize : Nat} (h1 : 1 ≤ memSize) (h2 : memSize ≤ 2 ^ 63 - 1)
    (h3 : stackSize ≤ memSize) : (Config.withSizes memSize stackSize).Valid := by
  have hnodup : defaultRegNames.Nodup := by decide
  have hrsp : rspName ∈ defaultRegNames := by decide
  have hss : ssName ∈ defaultRegNames := by decide
  have hnames : ∀ n ∈ defaultRegNames, n ≠ [] := by decide
  exact ⟨hnodup, hrsp, hss, hnames, h1, h2, h3, .refl _⟩

/-- Settles O4: the reset state field by field, and `ZERO_CFG` is valid. -/
theorem resetMeetsTheInvariant : Obligations.ResetMeetsTheInvariant :=
  ⟨fun _ => resetWith_inv, resetWith_inv (withSizes_valid (by decide) (by decide) (by decide))⟩

end Sys2Proof.Machine
end

section
/-! SUPPORT. The register dump (`47_dump.md` R210, R211), which `RDUMP` and the port `dump` share: the format of a
line, the lines of a dump, and the dump that meets a register without a value. -/

namespace Sys2Proof.Machine

/-! ## The format of a line -/

/-- The digits of the upper case (R211). -/
theorem hexDigit_upper_mem {d : Nat} (h : d < 16) : hexDigit .upper d ∈ "0123456789ABCDEF".toList := by
  interval_cases d <;> decide

/-- The digits of the lower case (R211). -/
theorem hexDigit_lower_mem {d : Nat} (h : d < 16) : hexDigit .lower d ∈ "0123456789abcdef".toList := by
  interval_cases d <;> decide

/-- Settles O50: the sixteen digits printed write the value, which is below `16 ^ 16`. -/
theorem dumpLineFormat : Obligations.DumpLineFormat := by
  intro hexCase name v
  have hvalue : v.toNat % 16 ^ 16 = v.toNat := Nat.mod_eq_of_lt v.isLt
  refine ⟨hexDigits hexCase 16 v.toNat, rfl, hexDigits_length .., (ofDigits_hexDigits ..).trans hvalue, ?_, ?_⟩
  · rintro rfl c hc
    obtain ⟨d, hd, rfl⟩ := mem_hexDigits _ _ _ _ hc
    exact hexDigit_upper_mem hd
  · rintro rfl c hc
    obtain ⟨d, hd, rfl⟩ := mem_hexDigits _ _ _ _ hc
    exact hexDigit_lower_mem hd

/-! ## The lines of a dump -/

/-- Where every register listed holds a value, `v` of its name, the dump is its line for each. -/
theorem State.dumpLinesOf_of_named? {s : State} {v : Text → Word} {ns : List Text}
    (h : ∀ n ∈ ns, s.named? n = some (v n)) :
    s.dumpLinesOf ns = .ok (ns.map fun n => dumpLine s.cfg.hexCase n (v n)) := by
  induction ns with
  | nil => rfl
  | cons n ns ih =>
    obtain ⟨hn, hns⟩ := List.forall_mem_cons.1 h
    rw [State.dumpLinesOf, State.readNamed_eq_ok.2 hn, ok_bind, ih hns, ok_bind]
    rfl

/-- A register of the configuration that holds no value faults when it is read by name (`10_state.md` R27). -/
theorem State.readNamed_of_empty {s : State} {n : Text} (hn : n ∈ s.cfg.regNames) (h : s.named? n = none) :
    s.readNamed n = .error (.faulted .readUnwritten) := by
  obtain ⟨k, hk⟩ := Option.isSome_iff_exists.1 (position?_isSome.2 hn)
  rw [State.readNamed_eq hk, State.readReg_none ((State.named?_eq hk).symm.trans h)]

/-- The first register listed that holds no value ends the dump. -/
theorem State.dumpLinesOf_of_empty {s : State} {ns : List Text} (hns : ∀ n ∈ ns, n ∈ s.cfg.regNames)
    (h : ∃ n ∈ ns, s.named? n = none) : s.dumpLinesOf ns = .error (.faulted .readUnwritten) := by
  induction ns with
  | nil => simp at h
  | cons n ns ih =>
    obtain ⟨hn, hns⟩ := List.forall_mem_cons.1 hns
    cases hv : s.named? n with
    | none => rw [State.dumpLinesOf, State.readNamed_of_empty hn hv, error_bind]
    | some v =>
      have hrest : ∃ m ∈ ns, s.named? m = none := by simpa [hv] using h
      rw [State.dumpLinesOf, State.readNamed_eq_ok.2 hv, ok_bind, ih hns hrest, error_bind]

/-! ## The dump under the invariant -/

section Invariant

variable {s : State} (hs : s.Inv)
include hs

/-- The dump order lists the names of the configuration (`00_scope.md` R7). -/
theorem State.Inv.dumpOrder_perm : s.cfg.dumpOrder.Perm s.cfg.regNames := by
  have ⟨⟨_, _, _, _, _, _, _, hperm⟩, _⟩ := hs
  exact hperm

/-- Where every register holds a value, so does every name. -/
theorem State.Inv.named?_isSome_of_allWritten (h : s.AllWritten) {n : Text} (hn : n ∈ s.cfg.regNames) :
    (s.named? n).isSome = true := by
  obtain ⟨k, hk⟩ := Option.isSome_iff_exists.1 (position?_isSome.2 hn)
  have hlt := hs.position?_lt hk
  have hmem : s.regs[k] ∈ s.regs := List.getElem_mem hlt
  rw [State.named?_eq hk]
  cases hv : s.regs[k] with
  | none => exact absurd (hv ▸ hmem) h
  | some v => simp [State.reg?, hlt, hv]

/-- A register without a value is one that some name's register is. -/
theorem State.Inv.exists_named?_eq_none (h : none ∈ s.regs) : ∃ n ∈ s.cfg.regNames, s.named? n = none := by
  have ⟨⟨hnodup, _⟩, hlen, _⟩ := hs
  obtain ⟨k, hk, hv⟩ := List.getElem_of_mem h
  have hk' : k < s.cfg.regNames.length := hlen ▸ hk
  refine ⟨s.cfg.regNames[k], List.getElem_mem hk', ?_⟩
  rw [State.named?_eq (idxOf?_getElem hnodup hk')]
  simp [State.reg?, hk, hv]

/-- The dump where every register holds a value (R210). -/
theorem State.Inv.dumped_of_allWritten (h : s.AllWritten) : ∃ v : Text → Word,
    (∀ n ∈ s.cfg.dumpOrder, s.named? n = some (v n)) ∧
      s.dumped = .ok (s.emit (s.cfg.dumpOrder.map fun n => dumpLine s.cfg.hexCase n (v n))) := by
  have hv : ∀ n ∈ s.cfg.dumpOrder, s.named? n = some ((s.named? n).getD 0) := fun n hn => by
    obtain ⟨w, hw⟩ := Option.isSome_iff_exists.1 (hs.named?_isSome_of_allWritten h (hs.dumpOrder_perm.mem_iff.1 hn))
    simp [hw]
  exact ⟨_, hv, by rw [State.dumped, State.dumpLinesOf_of_named? hv]; rfl⟩

/-- The dump where some register holds no value (`10_state.md` R27, R37). -/
theorem State.Inv.dumped_of_unwritten (h : none ∈ s.regs) : s.dumped = .error (.faulted .readUnwritten) := by
  obtain ⟨n, hn, hv⟩ := hs.exists_named?_eq_none h
  have hmem := hs.dumpOrder_perm.mem_iff (a := n)
  rw [State.dumped, State.dumpLinesOf_of_empty (fun _ => hs.dumpOrder_perm.mem_iff.1) ⟨n, hmem.2 hn, hv⟩, error_bind]

/-- The port `dump` raises nothing, so where it answers it completed. -/
theorem State.Inv.portDump_repliedOk {t : State} (h : portDump s = .next t) : s.RepliedOk t := by
  by_cases hw : none ∈ s.regs
  · rw [portDump, hs.dumped_of_unwritten hw] at h
    cases h
  · obtain ⟨v, -, hdump⟩ := hs.dumped_of_allWritten hw
    rw [portDump, hdump] at h
    cases h
    rfl

end Invariant

/-- Settles O49: the dump is computed once and ends `RDUMP` and the port alike. -/
theorem rdumpEmitsEveryRegister : Obligations.RdumpEmitsEveryRegister := by
  intro s hs
  have ⟨⟨hnodup, _⟩, _⟩ := hs
  have hperm := hs.dumpOrder_perm
  refine ⟨fun hw => ?_, fun hempty => ?_⟩
  · obtain ⟨v, hv, hdump⟩ := hs.dumped_of_allWritten hw
    have hend := congrArg s.finish hdump
    refine ⟨_, _, _, hend, hend, rfl, rfl, by simpa using hperm.length_eq, hperm.nodup_iff.2 hnodup,
      fun n => hperm.mem_iff, fun j n hj => ⟨v n, hv n (List.mem_of_getElem? hj), by simp [hj]⟩,
      fun _ _ => rfl, fun _ => rfl, fun _ => rfl, rfl, rfl, rfl, fun _ _ => rfl, fun _ => rfl, fun _ => rfl, rfl, rfl⟩
  · have hend := congrArg s.finish (hs.dumped_of_unwritten hempty)
    exact ⟨hend, hend⟩

/-- Settles O54: each of the four operations completes, or meets a fault. -/
theorem portWritesReplyOk : Obligations.PortWritesReplyOk := by
  refine fun s t hs => ⟨fun n v hn h => ?_, fun f b h => ?_, fun a b ha h => ?_, hs.portDump_repliedOk⟩
  · obtain ⟨k, hk⟩ := Option.isSome_iff_exists.1 (position?_isSome.2 hn)
    rw [portSet_of_position? v hk] at h
    cases h
    rfl
  · cases h
    rfl
  · rw [portWrite_of_inBounds b ha] at h
    cases h
    rfl

end Sys2Proof.Machine
end

section
/-! SUPPORT. What a step of an instruction leaves besides its effect: the configuration and the pending requests as
they were, text only added, and one status answered (`60_exceptions.md` R221, R222); and the program run of
`70_reset_and_hazards.md` R276 against the steps of the block. -/

namespace Sys2Proof.Machine

/-! ## What an instruction's step answers -/

/-- From `s` to `t` the configuration and the pending requests are kept, text is only added, and the status `st` is
the one new reply. -/
structure Answered (s t : State) (st : Status) : Prop where
  cfg : t.cfg = s.cfg
  inputs : t.inputs = s.inputs
  out : s.out <+: t.out
  replies : t.replies = s.replies ++ [.status st]

theorem answered_reply (s : State) (st : Status) : Answered s (s.reply (.status st)) st :=
  ⟨rfl, rfl, List.prefix_refl _, rfl⟩

/-- No effect of an instruction answers anything: the status comes when it ends. -/
theorem Effect.replies_eq {i : Instr} {s u : State} (h : Effect i s u) : u.replies = s.replies := by
  cases h with
  | wrote => exact State.writeReg_replies ..
  | compared => exact State.compare_replies ..
  | pushed => simp
  | popped => simp
  | dumped => exact State.emit_replies ..

/-- An effect only adds to the emitted text. -/
theorem Effect.out_prefix {i : Instr} {s u : State} (h : Effect i s u) : s.out <+: u.out := by
  cases h with
  | dumped lines => exact List.prefix_append _ lines
  | wrote | compared | pushed | popped => exact List.prefix_refl _

theorem Effect.answered {i : Instr} {s u : State} (h : Effect i s u) : Answered s (u.reply (.status .ok)) .ok :=
  ⟨h.cfg_eq, h.inputs_eq, h.out_prefix, by simp [h.replies_eq]⟩

theorem exec_answered {i : Instr} {s t : State} (h : exec i s = .next t) : ∃ st, Answered s t st := by
  obtain ⟨u, hu, rfl⟩ | ⟨e, rfl⟩ := exec_completes i s t h
  · exact ⟨.ok, hu.answered⟩
  · exact ⟨.error e, answered_reply s _⟩

theorem stepLine_answered {line : Text} {s t : State} (h : stepLine line s = .next t) : ∃ st, Answered s t st := by
  unfold stepLine runDecoded at h
  split at h
  · exact exec_answered h
  · obtain ⟨e, -, rfl⟩ := State.stop_eq_next h
    exact ⟨.error e, answered_reply s _⟩

/-- Settles O10: the form of the instruction answers, because no register is without a value. -/
theorem everyInstructionAnswers : Obligations.EveryInstructionAnswers := by
  intro s i hs hw
  obtain ⟨t, ht⟩ | ⟨-, hempty⟩ := (exec_form i).answersOrUnwritten hs
  · obtain ⟨st, hst⟩ := exec_answered ht
    exact ⟨t, st, ht, hst.replies⟩
  · exact absurd hempty hw

/-! ## Steps and the pending requests -/

/-- What follows a next state, where there is one. -/
def thenNext {σ τ φ ρ : Type} (o : Host.Outcome σ φ ρ) (f : σ → Host.Outcome τ φ ρ) : Host.Outcome τ φ ρ :=
  match o with
  | .next s => f s
  | .fault r => .fault r
  | .refused r => .refused r

/-- An outcome with its next state, where there is one, replaced. -/
def mapNext {σ τ φ ρ : Type} (f : σ → τ) (o : Host.Outcome σ φ ρ) : Host.Outcome τ φ ρ :=
  thenNext o fun s => .next (f s)

/-- Two states of which the second is the first with the program pending. -/
def Loaded (program : List Text) (u u' : State) : Prop := u' = u.load program

section Load

variable {program : List Text}

theorem sameRegs_load (u : State) : u.SameRegs (u.load program) := ⟨rfl, rfl⟩

theorem loaded_writeNamed (u : State) (n : Text) (v : Word) :
    Alike (Loaded program) (u.writeNamed n v) ((u.load program).writeNamed n v) :=
  .read ((sameRegs_load u).position n) fun _ => .ok rfl

theorem loaded_push (u : State) (v : Word) : Alike (Loaded program) (u.push v) ((u.load program).push v) := by
  refine .read ((sameRegs_load u).readNamed rspName) fun p => .read ((sameRegs_load u).readNamed ssName) fun base => ?_
  rw [State.load_cfg]
  split
  · exact .stop _
  · split
    · exact .stop _
    · exact loaded_writeNamed (u.withMem _) _ _

theorem loaded_pop (u : State) (d : Nat) : Alike (Loaded program) (u.pop d) ((u.load program).pop d) := by
  refine .read ((sameRegs_load u).readNamed rspName) fun p => ?_
  rw [State.load_cfg]
  split
  · exact .stop _
  · refine (loaded_writeNamed u _ _).bind fun t t' ht => .ok ?_
    rw [ht]
    rfl

theorem loaded_dumped (u : State) : Alike (Loaded program) u.dumped (u.load program).dumped :=
  .read ((sameRegs_load u).dumpLinesOf _) fun _ => .ok rfl

theorem stop_load (s : State) (e : Stop) : (s.load program).stop e = mapNext (State.load · program) (s.stop e) := by
  cases e <;> rfl

theorem finish_load {s : State} {r r' : Except Stop State} (h : Alike (Loaded program) r r') :
    (s.load program).finish r' = mapNext (State.load · program) (s.finish r) := by
  cases h with
  | stop e => exact stop_load s e
  | ok h =>
    rw [h]
    rfl

/-- No form looks at the pending requests or touches them. -/
theorem Form.load {i : Instr} {f : State → Result} (hf : Form i f) (s : State) :
    f (s.load program) = mapNext (State.load · program) (f s) := by
  have h : s.SameRegs (s.load program) := sameRegs_load s
  cases hf with
  | mov d a =>
    exact finish_load <| .read (h.checkDest d) fun _ => .read (h.checkSource a) fun _ =>
      .read (h.readSource a) fun _ => .ok rfl
  | alu2 op d a =>
    exact finish_load <| .read (h.checkDest d) fun k => .read (h.checkSource a) fun _ =>
      .read (h.readReg k) fun _ => .read (h.readSource a) fun _ => .read rfl fun _ => .ok rfl
  | alu3 op d a b =>
    exact finish_load <| .read (h.checkDest d) fun _ => .read (h.checkSource a) fun _ =>
      .read (h.checkSource b) fun _ => .read (h.readSource a) fun _ => .read (h.readSource b) fun _ =>
      .read rfl fun _ => .ok rfl
  | alu1 op d =>
    exact finish_load <| .read (h.checkDest d) fun k => .read (h.readReg k) fun _ => .read rfl fun _ => .ok rfl
  | cmp a b =>
    exact finish_load <| .read (h.checkSource a) fun _ => .read (h.checkSource b) fun _ =>
      .read (h.readSource a) fun _ => .read (h.readSource b) fun _ => .ok rfl
  | push a =>
    exact finish_load <| .read (h.checkSource a) fun _ => .read (h.readSource a) fun v => loaded_push s v
  | pop d => exact finish_load <| .read (h.checkDest d) fun k => loaded_pop s k
  | rdump => exact finish_load (loaded_dumped s)

end Load

/-- A line's step is the same whatever program is pending behind it. -/
theorem stepLine_load (line : Text) (program : List Text) (s : State) :
    stepLine line (s.load program) = mapNext (State.load · program) (stepLine line s) := by
  unfold stepLine runDecoded
  rw [State.load_cfg]
  split
  · exact (exec_form _).load s
  · exact stop_load s _

/-! ## Steps of a loaded program -/

/-- A machine's run is its first step and the run from there. -/
theorem run_succ (M : Host.Core) (n : Nat) (s : M.State) : M.run (n + 1) s = thenNext (M.step s) (M.run n) := by
  rw [Host.Core.run]
  cases M.step s <;> rfl

theorem core_run_succ (n : Nat) (s : State) :
    Sys2Proof.core.run (n + 1) s = thenNext (step s) fun t : State => Sys2Proof.core.run n t :=
  run_succ Sys2Proof.core n s

/-- Settles O8: the step looks for a first request. -/
theorem idleBlockKeepsItsState : Obligations.IdleBlockKeepsItsState := fun s h => by rw [step, h]

theorem run_of_idle {s : State} (h : s.inputs = []) (n : Nat) : Sys2Proof.core.run n s = .next s := by
  induction n with
  | zero => rfl
  | succ n ih =>
    rw [core_run_succ, idleBlockKeepsItsState s h]
    exact ih

/-- The first step of a loaded program is the step of its first line, handed to the feeder with the rest pending. -/
theorem step_load_cons (line : Text) (rest : List Text) (s : State) :
    step (s.load (line :: rest)) = feedAfter (mapNext (State.load · rest) (stepLine line s)) :=
  congrArg feedAfter (stepLine_load line rest s)

theorem State.load_of_idle {s : State} (h : s.inputs = []) : s.load [] = s := by
  rw [State.load, List.map_nil, ← h]

/-- Lines are instructions, so a feeder that drops the pending instructions leaves no line. -/
theorem filter_lines (rest : List Text) :
    (rest.map Request.line).filter (fun r => !r.isInstruction) = [] := by
  simp [Request.isInstruction]

section Answered

variable {s t : State} {st : Status} (h : Answered s t st)
include h

theorem Answered.lastStatus : t.lastStatus = st := by simp [State.lastStatus, h.replies]

/-- The feeder with a program pending after an instruction that answered `st` (R276). -/
theorem Answered.feed_load (rest : List Text) : (t.load rest).feed =
    if s.cfg.feederPolicy = .abortRun ∧ t.lastStatus ≠ .ok then t.load [] else t.load rest := by
  have hlast : (t.load rest).lastOk = false ↔ t.lastStatus ≠ .ok := by simp [h.lastStatus, State.lastOk, h.replies]
  have hpolicy : (t.load rest).cfg.feederPolicy = s.cfg.feederPolicy := by rw [State.load_cfg, h.cfg]
  simp only [State.feed, hlast, hpolicy, State.load_inputs, filter_lines]
  rfl

/-- A step's reply and its text in front of those of the run behind it are those of the whole run. -/
theorem Answered.after {r : RunResult} (hreplies : r.final.replies = t.replies ++ r.statuses.map Reply.status)
    (hout : r.final.out = t.out ++ r.emitted) :
    (RunResult.after s t r).final.replies = s.replies ++ (RunResult.after s t r).statuses.map Reply.status ∧
      (RunResult.after s t r).final.out = s.out ++ (RunResult.after s t r).emitted := by
  constructor
  · simp [RunResult.after, hreplies, h.replies, h.lastStatus]
  · rw [RunResult.after, hout, ← List.append_assoc, List.prefix_iff_eq_append.1 h.out]

end Answered

/-! ## The run -/

/-- The statuses of a run are its final state's new replies, and its text is what the final state's output has more
(R276). -/
theorem runProgram_replies_out {policy : FeederPolicy} {program : List Text} {s : State} {r : RunResult}
    (h : runProgram policy program s = .next r) :
    r.final.replies = s.replies ++ r.statuses.map Reply.status ∧ r.final.out = s.out ++ r.emitted := by
  induction program generalizing s r with
  | nil =>
    cases h
    simp
  | cons line rest ih =>
    rw [runProgram] at h
    split at h
    · next t ht =>
      obtain ⟨st, hst⟩ := stepLine_answered ht
      split at h
      · cases h
        exact hst.after (r := ⟨t, [], []⟩) (by simp) (by simp)
      · split at h <;> cases h
        next r hr =>
        obtain ⟨hreplies, hout⟩ := ih hr
        exact hst.after hreplies hout
    · cases h
    · cases h

/-- Stepping a loaded program ends as its run does, from a state with nothing else pending. -/
theorem run_load (program : List Text) {s : State} (hs : s.inputs = []) :
    Sys2Proof.core.run program.length (s.load program) =
      mapNext RunResult.final (runProgram s.cfg.feederPolicy program s) := by
  induction program generalizing s with
  | nil =>
    rw [State.load_of_idle hs]
    rfl
  | cons line rest ih =>
    rw [List.length_cons, core_run_succ, step_load_cons, runProgram]
    cases hline : stepLine line s with
    | fault f => rfl
    | refused r => rfl
    | next t =>
      obtain ⟨st, hst⟩ := stepLine_answered hline
      have hidle : t.inputs = [] := hst.inputs.trans hs
      simp only [mapNext, feedAfter, thenNext, hst.feed_load rest]
      split
      · rw [State.load_of_idle hidle]
        exact run_of_idle hidle _
      · refine (ih hidle).trans ?_
        rw [hst.cfg]
        cases runProgram s.cfg.feederPolicy rest t <;> rfl

/-- Settles O56: stepping the lines ends as the run does, and the run's statuses and text are the replies and the
output added. -/
theorem loadedProgramRunsAsDefined : Obligations.LoadedProgramRunsAsDefined := by
  intro program s
  have hend {o : Host.Outcome RunResult Fault Refusal} (h : runProgram s.cfg.feederPolicy program (s.load []) = o) :
      Sys2Proof.core.run program.length (s.load program) = mapNext RunResult.final o :=
    h ▸ run_load program (s := s.load []) rfl
  exact ⟨fun r h => ⟨hend h, runProgram_replies_out (s := s.load []) h⟩, fun f h => hend h, fun x h => hend h⟩

end Sys2Proof.Machine
end
